-- ==== Sys2Proof/Word.lean ====
section
/-! DEFINITION. The widths of the block's values (00_scope.md R10, R11): words, bytes, bus offsets and pin levels. -/

namespace Sys2Proof

/-- A host register's value, 32 bits (R10, R11). -/
abbrev Word := BitVec 32

/-- A byte, 8 bits (R11). -/
abbrev Byte := BitVec 8

/-- A byte offset on the host bus, 6 bits: 0x00 to 0x3F (R21, R24). -/
abbrev Offset := BitVec 6

/-- The level of a pin or of a one-bit field: `true` is 1, `false` is 0 (R46). -/
abbrev Level := Bool

end Sys2Proof
end

