-- ==== Sys2Proof/Syntax.lean ====
section
/-! DEFINITION. The command set: one constructor for each row of spec/opcode_table.json (30_encoding.md R82). -/

namespace Sys2Proof

/-- A host command (R17, R82). Operands are unsigned numbers (R89); their ranges are checked in WellFormed. -/
inductive Instr where
  /-- `adc.read ch`: READ_CHANNEL (40_adc.md R111) -/
  | adcRead (ch : Nat)
  /-- `adc.readall`: READ_ALL (40_adc.md R112) -/
  | adcReadall
  /-- `sw.read`: READ (41_single_wire.md R141) -/
  | swRead
  /-- `sw.readretry n`: READ_RETRY (42_retry.md R182) -/
  | swReadretry (n : Nat)
deriving DecidableEq, Repr

end Sys2Proof
end

