-- ==== Sys2Proof/WellFormed.lean ====
section
/-! DEFINITION. Which commands have an encoding (30_encoding.md R89, R92). -/

namespace Sys2Proof

/-- The operand ranges of R92: "ch in 0..15", "n in 0..255". A command outside them has no encoding, and the
assembler refuses it. -/
def Instr.wellFormed : Instr → Bool
  | .adcRead ch => decide (ch ≤ 15)
  | .adcReadall => true
  | .swRead => true
  | .swReadretry n => decide (n ≤ 255)

end Sys2Proof
end

