-- ==== Sys2Proof/Decode.lean ====
section
/-! DEFINITION. Decoding of command words (30_encoding.md R80 to R83), total on any word and any bytes, rejecting
by name; then the encoder, written from the same formats. -/

namespace Sys2Proof

/-- The command register written. It is the only thing that tells the two command spaces apart (R82, R91). -/
inductive CmdReg where
  /-- ADC_CMD, offset 0x04 -/
  | adcCmd
  /-- SW_CMD, offset 0x20 -/
  | swCmd
deriving DecidableEq, Repr

/-- Why a word is ILLEGAL (R83), or why bytes are no command word. -/
inductive DecodeError where
  /-- OP is none of the register's two operations -/
  | illegalOp (op : BitVec 4)
  /-- OP is legal and a bit that must be 0 is not -/
  | reservedBits
  /-- the bytes are not one 32-bit word (R91) -/
  | notOneWord
deriving DecidableEq, Repr

/-- OP, bits [3:0] of a command word of either register (R80, R81). -/
def opField (v : Word) : BitVec 4 := v.extractLsb' 0 4

/-- CH, bits [7:4] of ADC_CMD, zero-extended (R80, R89). -/
def chField (v : Word) : Nat := (v.extractLsb' 4 4).toNat

/-- N, bits [15:8] of SW_CMD, zero-extended (R81, R89). -/
def nField (v : Word) : Nat := (v.extractLsb' 8 8).toNat

/-- `AdcDecode` (R80). -/
def decodeAdc (v : Word) : Except DecodeError Instr :=
  if opField v = 0x1#4 then
    if v.extractLsb' 8 24 = 0#24 then .ok (.adcRead (chField v)) else .error .reservedBits
  else if opField v = 0x2#4 then
    if v = 0x00000002#32 then .ok .adcReadall else .error .reservedBits
  else .error (.illegalOp (opField v))

/-- `SwDecode` (R81). -/
def decodeSw (v : Word) : Except DecodeError Instr :=
  if opField v = 0x1#4 then
    if v = 0x00000001#32 then .ok .swRead else .error .reservedBits
  else if opField v = 0x2#4 then
    if v.extractLsb' 4 4 = 0#4 ∧ v.extractLsb' 16 16 = 0#16 then .ok (.swReadretry (nField v))
    else .error .reservedBits
  else .error (.illegalOp (opField v))

/-- The command a word is at the register it is written to (R82). No state enters (R91). -/
def decode (r : CmdReg) (v : Word) : Except DecodeError Instr :=
  match r with
  | .adcCmd => decodeAdc v
  | .swCmd => decodeSw v

/-- The four byte lanes of a word, lane 0 first: byte k is bits [8k+7:8k] (20_memory.md R63). -/
def lanes (v : Word) : List Byte :=
  [v.extractLsb' 0 8, v.extractLsb' 8 8, v.extractLsb' 16 8, v.extractLsb' 24 8]

/-- The word whose byte lanes these are (R63). -/
def wordOfLanes (b0 b1 b2 b3 : Byte) : Word := b3 ++ b2 ++ b1 ++ b0

/-- Decoding of the bytes of a command word in lane order: exactly one word (R91). -/
def decodeBytes (r : CmdReg) (bs : List Byte) : Except DecodeError Instr :=
  match bs with
  | [b0, b1, b2, b3] => decode r (wordOfLanes b0 b1 b2 b3)
  | _ => .error .notOneWord

/-- The register and the word of a command (R80, R81, R92). The operand is meant to be in its range
(`Instr.WellFormed`); bits above its field are dropped. -/
def encode : Instr → CmdReg × Word
  | .adcRead ch => (.adcCmd, 0#24 ++ BitVec.ofNat 4 ch ++ 0x1#4)
  | .adcReadall => (.adcCmd, 0x00000002#32)
  | .swRead => (.swCmd, 0x00000001#32)
  | .swReadretry n => (.swCmd, 0#16 ++ BitVec.ofNat 8 n ++ 0x02#8)

/-- DESIGN CHOICE (log 5). The register and the command meant by a table word that is given without its register:
the register at which it is legal. The words 1 and 2 are legal at both; there the command is the one that has no
other word (`sw.read`, `adc.readall`), so that every row of the table has a word that stands for it. -/
def tableCommand (v : Word) : Option (CmdReg × Instr) :=
  match decodeBytes .adcCmd (lanes v), decodeBytes .swCmd (lanes v) with
  | .ok _, .ok .swRead => some (.swCmd, .swRead)
  | .ok i, _ => some (.adcCmd, i)
  | .error _, .ok i => some (.swCmd, i)
  | .error _, .error _ => none

/-- The word of a table row's bits: `nbits` bits of `w`, every bit above them 0. -/
def tableWord (nbits w : Nat) : Word := BitVec.ofNat 32 (w % 2 ^ nbits)

/-- The command the decoder reads from a table word (log 5); `none` where the decoder refuses it, and for a row
wider than the one word a command has (R91). -/
def decodeTableWord (nbits w : Nat) : Option Instr :=
  if nbits ≤ 32 then (tableCommand (tableWord nbits w)).map (·.2) else none

end Sys2Proof
end

