-- ==== Sys2Proof/Config.lean ====
section
/-! DEFINITION. What an instance of the block fixes (the parameters of 00_scope.md R9), what the environment
supplies at each turn (R8), and the model's one free value. -/

namespace Sys2Proof

/-- P_ADC_SAMPLE_EDGE (R9): which transition of `adc_clk` samples a data bit (40_adc.md R117). -/
inductive SampleEdge where
  | rising
  | falling
deriving DecidableEq, Repr

/-- P_TEMP_ENCODING (R9): how the temp_int byte holds a signed value (30_encoding.md R90). -/
inductive TempEncoding where
  | twosComplement
  | unsigned
  | signMagnitude
deriving DecidableEq, Repr

/-- The parameters of an instance (R9), each under its name there less the `P_`. -/
structure Params where
  /-- P_ADC_CHANNELS, 1..4 -/
  adcChannels : Nat
  /-- P_T_ADC_PHASE, 2..255 ticks -/
  tAdcPhase : Nat
  /-- P_ADC_CMD_PAD -/
  adcCmdPad : Level
  /-- P_ADC_SAMPLE_EDGE -/
  adcSampleEdge : SampleEdge
  /-- P_T_START_LOW, 18000..2^32-1 ticks -/
  tStartLow : Nat
  /-- P_T_RELEASE, 20..40 ticks -/
  tRelease : Nat
  /-- P_T_WAIT_TIMEOUT, 2..255 ticks -/
  tWaitTimeout : Nat
  /-- P_T_BIT_THRESHOLD, 1..254 ticks and less than P_T_WAIT_TIMEOUT -/
  tBitThreshold : Nat
  /-- P_RETRY_DELAY_RESET, 0..2^32-1 ticks -/
  retryDelayReset : Word
  /-- P_RETRY_DEFAULT_ATTEMPTS, 0..255 -/
  retryDefaultAttempts : Byte
  /-- P_TEMP_ENCODING -/
  tempEncoding : TempEncoding
  /-- P_HUM_MAX -/
  humMax : Int
  /-- P_TEMP_MIN -/
  tempMin : Int
  /-- P_TEMP_MAX -/
  tempMax : Int
deriving DecidableEq, Repr

/-- The default of every parameter: "the block" when no argument is given (R9). -/
def Params.default : Params where
  adcChannels := 4
  tAdcPhase := 2
  adcCmdPad := true
  adcSampleEdge := .rising
  tStartLow := 18000
  tRelease := 30
  tWaitTimeout := 100
  tBitThreshold := 50
  retryDelayReset := 2000000#32
  retryDefaultAttempts := 15#8
  tempEncoding := .twosComplement
  humMax := 100
  tempMin := -40
  tempMax := 80

/-- The legal values of R9. Outside them the block is not defined and the model refuses
(93_implementation_defined.md I9). The ranges of P_RETRY_DELAY_RESET and P_RETRY_DEFAULT_ATTEMPTS are their types'. -/
def Params.legal (p : Params) : Bool :=
  decide ((1 ≤ p.adcChannels ∧ p.adcChannels ≤ 4) ∧
    (2 ≤ p.tAdcPhase ∧ p.tAdcPhase ≤ 255) ∧
    (18000 ≤ p.tStartLow ∧ p.tStartLow < 2 ^ 32) ∧
    (20 ≤ p.tRelease ∧ p.tRelease ≤ 40) ∧
    (2 ≤ p.tWaitTimeout ∧ p.tWaitTimeout ≤ 255) ∧
    (1 ≤ p.tBitThreshold ∧ p.tBitThreshold ≤ 254 ∧ p.tBitThreshold < p.tWaitTimeout))

/-- The parameters are legal (R9). -/
abbrev Params.Legal (p : Params) : Prop := p.legal = true

/-- One turn of one agent (R8). A tick carries the level of each input pin that the tick samples (R23, R46). -/
inductive Turn where
  /-- the host performs its next operation -/
  | host
  /-- one `tick_us` strobe, with the levels of `adc_din` and `sw_in` -/
  | tick (adcDin swIn : Level)
  /-- the platform drives `rst_n` to a level (R20, R230) -/
  | reset (rstN : Level)
deriving DecidableEq, Repr, Inhabited

/-- FREE VALUE (log 2). Which agent moves next, with what input levels, once the turns written in the state are
used up: R8 and R71 admit every interleaving and I4 every level, so nothing constrains it. The argument counts
the draws. -/
opaque Config.freeTurn : Nat → Turn

end Sys2Proof
end

