-- ==== Sys2Proof/Machine/State.lean ====
section
/-! DEFINITION. The state of the block as plain data (10_state.md), the host's pending operations, the agents'
pending turns, and the state after reset (R48). -/

namespace Sys2Proof.Machine

/-- The result codes (30_encoding.md R88). Codes 8..15 are never produced. -/
inductive ErrCode where
  /-- 0 -/
  | ok
  /-- 1 -/
  | invalidChannel
  /-- 2 -/
  | noResponse
  /-- 3 -/
  | truncated
  /-- 4 -/
  | checksumError
  /-- 5 -/
  | outOfRange
  /-- 6 -/
  | sensorUnavailable
  /-- 7 -/
  | illegalCommand
deriving DecidableEq, Repr

/-! ## The ADC engine -/

/-- `st.adc_phase` (R40). -/
inductive AdcPhase where
  | idle
  | setup
  | low
  | high
  /-- END -/
  | ending
  | gap
deriving DecidableEq, Repr

/-- `st.adc_op` (R40). -/
inductive AdcOp where
  | readChannel
  | readAll
deriving DecidableEq, Repr

/-- ADC_STATUS (R27). Its reserved bits hold nothing and read 0 (R36). -/
structure AdcStatus where
  busy : Bool
  done : Bool
  overrun : Bool
  err : ErrCode
  op : BitVec 4
deriving DecidableEq, Repr

/-- ADC_RESULT (R28). -/
structure AdcResult where
  sample : Byte
  channel : BitVec 2
  valid : Bool
deriving DecidableEq, Repr

/-- ADC_ALL (R29). -/
structure AdcAll where
  ch0 : Byte
  ch1 : Byte
  ch2 : Byte
  ch3 : Byte
deriving DecidableEq, Repr

/-- The ADC engine: its registers (R27 to R29), its internal state (R40) and the pins it owns (R43). -/
structure AdcEngine where
  status : AdcStatus
  result : AdcResult
  all : AdcAll
  phase : AdcPhase
  /-- `st.adc_cnt`, a tick count; the spec gives it no width of its own (R10, R12; log 9) -/
  cnt : Nat
  /-- `st.adc_cycle`, 0..13 -/
  cycle : Nat
  cmd : BitVec 5
  shift : Byte
  ch : BitVec 2
  op : AdcOp
  /-- pin `adc_cs_n` -/
  csN : Level
  /-- pin `adc_clk` -/
  clk : Level
  /-- pin `adc_dout` -/
  dout : Level
  /-- pin `adc_dout_oe` -/
  doutOe : Level
deriving DecidableEq, Repr

/-- The ADC engine's reset values (R48). -/
def AdcEngine.atReset : AdcEngine where
  status := ⟨false, false, false, .ok, 0#4⟩
  result := ⟨0#8, 0#2, false⟩
  all := ⟨0#8, 0#8, 0#8, 0#8⟩
  phase := .idle
  cnt := 0
  cycle := 0
  cmd := 0#5
  shift := 0#8
  ch := 0#2
  op := .readChannel
  csN := true
  clk := false
  dout := false
  doutOe := false

/-! ## The single-wire engine and the retry state machine -/

/-- `st.sw_phase` (R41). -/
inductive SwPhase where
  | idle
  | startLow
  | release
  | ack0
  | ack1
  | ack2
  | bitH
  | bitL
  | delay
deriving DecidableEq, Repr

/-- SW_STATUS (R31). -/
structure SwStatus where
  busy : Bool
  done : Bool
  overrun : Bool
  err : ErrCode
  op : BitVec 4
  lastErr : ErrCode
  attempts : Byte
deriving DecidableEq, Repr

/-- SW_FRAME0 (R32). -/
structure SwFrame0 where
  humInt : Byte
  humFrac : Byte
  tempInt : Byte
  tempFrac : Byte
deriving DecidableEq, Repr

/-- SW_FRAME1 (R33). -/
structure SwFrame1 where
  checksum : Byte
  csumOk : Bool
  full : Bool
deriving DecidableEq, Repr

/-- SW_READING (R34). -/
structure SwReading where
  humidity : Byte
  temperature : Byte
  valid : Bool
deriving DecidableEq, Repr

/-- The value 0 of SW_FRAME0, SW_FRAME1 and SW_READING. -/
def SwFrame0.zero : SwFrame0 := ⟨0#8, 0#8, 0#8, 0#8⟩

/-- See `SwFrame0.zero`. -/
def SwFrame1.zero : SwFrame1 := ⟨0#8, false, false⟩

/-- See `SwFrame0.zero`. -/
def SwReading.zero : SwReading := ⟨0#8, 0#8, false⟩

/-- The single-wire engine with its retry state machine: registers (R31 to R35), internal state (R41, R42) and the
pins it owns (R43). -/
structure SwEngine where
  status : SwStatus
  frame0 : SwFrame0
  frame1 : SwFrame1
  reading : SwReading
  /-- SW_RETRY_DELAY (R35) -/
  retryDelay : Word
  phase : SwPhase
  /-- `st.sw_cnt`, a 32-bit tick counter (R41) -/
  cnt : BitVec 32
  /-- `st.sw_bit`, 0..40 -/
  bit : Nat
  /-- `st.sw_frame` -/
  frame : BitVec 40
  /-- `st.rt_retry` -/
  rtRetry : Bool
  /-- `st.rt_max` -/
  rtMax : Byte
  /-- `st.rt_delay` -/
  rtDelay : Word
  /-- pin `sw_oe` -/
  oe : Level
  /-- pin `sw_out` -/
  out : Level
  /-- pin `sw_pu_en` -/
  puEn : Level
deriving DecidableEq, Repr

/-- The single-wire engine's reset values (R48). -/
def SwEngine.atReset (p : Params) : SwEngine where
  status := ⟨false, false, false, .ok, 0#4, .ok, 0#8⟩
  frame0 := .zero
  frame1 := .zero
  reading := .zero
  retryDelay := p.retryDelayReset
  phase := .idle
  cnt := 0#32
  bit := 0
  frame := 0#40
  rtRetry := false
  rtMax := 0#8
  rtDelay := 0#32
  oe := false
  out := true
  puEn := true

/-! ## The machine -/

/-- One pending operation of the host (20_memory.md R61, R62; 30_encoding.md R92, R93). The width of an access is
given in bytes, so that a narrow access can be written down and refused (R68). -/
inductive HostOp where
  /-- `MemRead(off, bytes)` -/
  | rd (off : Offset) (bytes : Nat)
  /-- `MemWrite(off, bytes, v)` -/
  | wr (off : Offset) (bytes : Nat) (v : Word)
  /-- `poll REG, mask, val`: repeat `rd REG` until `(value & mask) = val` (R93) -/
  | poll (off : Offset) (mask val : Word)
  /-- `delay_us n`: n ticks with no host access (R92) -/
  | delay (ticks : Nat)
deriving DecidableEq, Repr

/-- The state: the parameters, the two engines, the level of `rst_n`, and what the outside still has to do. -/
structure State where
  /-- the instance's parameters (R9); no step writes them (log 1) -/
  params : Params
  adc : AdcEngine
  sw : SwEngine
  /-- the level the platform drives on `rst_n` (R20, R230; log 8) -/
  rstN : Level
  /-- the value the host's last read returned (the model's own; log 4) -/
  lastRead : Word
  /-- the host's operations still to come, first one first (the model's own; log 3) -/
  host : List HostOp
  /-- the agents' turns still to come (the model's own; log 2) -/
  turns : List Turn
  /-- how many turns `Config.freeTurn` has supplied (the model's own; log 2) -/
  draws : Nat
deriving DecidableEq, Repr

/-- The machine right after `rst_n` is released (R48), with the default parameters (R9) and nothing pending. -/
def State.reset : State where
  params := Params.default
  adc := AdcEngine.atReset
  sw := SwEngine.atReset Params.default
  rstN := true
  lastRead := 0#32
  host := []
  turns := []
  draws := 0

/-- Reasons the machine stops with a fault. There are none: "The block never traps, halts or stops on an error"
(60_exceptions.md R200; log 14). -/
inductive Fault where
deriving DecidableEq, Repr

/-- Reasons the model refuses a step. -/
inductive Refusal where
  /-- Raised by `exec` for an instruction with no meaning yet. Safe: the machine stops where the hardware goes on. -/
  | notModelled (mnemonic : String)
  /-- Raised by a host access that is not 4 bytes wide or not word-aligned: "is not defined by this spec, and a
  model refuses it" (20_memory.md R68, I1). Safe. -/
  | narrowOrMisaligned
  /-- Raised by every step of a machine whose parameters are outside the legal ranges of R9 (I9, "refuse"). Safe. -/
  | illegalParameters
deriving DecidableEq, Repr

/-- The outcome of a step of this machine. -/
abbrev Result := Host.Outcome State Fault Refusal

end Sys2Proof.Machine
end

