-- ==== Sys2Proof/Machine/Operands.lean ====
section
/-! DEFINITION. The operand forms and the value computations of the two engines: channel check, ADC command bits,
shift registers, pulse classifier, checksum, temperature decode, range check. -/

namespace Sys2Proof.Machine

/-! ## ADC operands -/

/-- Valid channels are 0..N-1 (R9, R16; 40_adc.md R111). -/
def channelValid (p : Params) (ch : Nat) : Bool := decide (ch < p.adcChannels)

/-- `st.adc_cmd = {1, 1, ch[1], ch[0], P_ADC_CMD_PAD}` (30_encoding.md R84). -/
def adcCommandBits (p : Params) (ch : BitVec 2) : BitVec 5 := 0b11#2 ++ ch ++ BitVec.ofBool p.adcCmdPad

/-- `{r[6:0], b}`: the ADC byte assembler, MSB first (40_adc.md R117). -/
def shiftIn8 (r : Byte) (b : Level) : Byte := r.extractLsb' 0 7 ++ BitVec.ofBool b

/-! ## Single-wire values -/

/-- `{r[38:0], b}`: the frame assembler, MSB first (41_single_wire.md R150). -/
def shiftIn40 (r : BitVec 40) (b : Level) : BitVec 40 := r.extractLsb' 0 39 ++ BitVec.ofBool b

/-- The pulse classifier: 1 if `d > P_T_BIT_THRESHOLD`, else 0 (R149). -/
def classify (p : Params) (d : Nat) : Level := decide (d > p.tBitThreshold)

/-- `b_k = st.sw_frame[39-8k : 32-8k]` (R86, R150, R153). -/
def frameByte (f : BitVec 40) (k : Nat) : Byte := f.extractLsb' (32 - 8 * k) 8

/-- The additive checksum `(b0 + b1 + b2 + b3) mod 256` (R87, R154). -/
def checksum (b0 b1 b2 b3 : Byte) : Byte := BitVec.ofNat 8 (b0.toNat + b1.toNat + b2.toNat + b3.toNat)

/-- `TempDecode` (30_encoding.md R90). -/
def tempDecode (e : TempEncoding) (b : Byte) : Int :=
  match e with
  | .twosComplement => if b.toNat < 128 then b.toNat else (b.toNat : Int) - 256
  | .unsigned => b.toNat
  | .signMagnitude => if b.getLsbD 7 then -((b.extractLsb' 0 7).toNat : Int) else (b.extractLsb' 0 7).toNat

/-- The range check of humidity and temperature, both bounds inclusive (41_single_wire.md R157). -/
def inRange (p : Params) (hum : Byte) (t : Int) : Bool :=
  decide ((hum.toNat : Int) ≤ p.humMax ∧ p.tempMin ≤ t ∧ t ≤ p.tempMax)

/-- TEMPERATURE is `temperature mod 256` (R153, R160). -/
def temperatureByte (t : Int) : Byte := BitVec.ofInt 8 t

end Sys2Proof.Machine
end

