-- ==== Sys2Proof/Machine/Ops.lean ====
section
/-! DEFINITION. The operations the commands and the ticks share: completion (the block's analogue of taking an
exception, 60_exceptions.md R205), the acceptance of a command word (R66, R110, R140), the start of an ADC
transaction (R114) and of a single-wire attempt (R142), the end of an attempt (R184). -/

namespace Sys2Proof.Machine

/-! ## Completion -/

/-- `complete_adc(kind)` (40_adc.md R125, R205): "BUSY <- 0; DONE <- 1; ERR <- kind; phase <- IDLE", and the counter 0. -/
def completeAdc (kind : ErrCode) (a : AdcEngine) : AdcEngine :=
  { a with
    status := { a.status with busy := false, done := true, err := kind }
    phase := .idle
    cnt := 0 }

/-- `complete_sw(kind)` (42_retry.md R187, R205). -/
def completeSw (kind : ErrCode) (w : SwEngine) : SwEngine :=
  { w with
    status := { w.status with busy := false, done := true, err := kind }
    phase := .idle
    cnt := 0#32 }

/-! ## Acceptance of a command word -/

/-- What `AdcAccept` does before it looks at the command (R110). OVERRUN is left as it stands. -/
def adcAccept (op : BitVec 4) (a : AdcEngine) : AdcEngine :=
  { a with
    status := { a.status with op := op, done := false, err := .ok }
    result := { a.result with valid := false } }

/-- What `SwAccept` does before it looks at the command (R140). The frame registers are not cleared. -/
def swAccept (op : BitVec 4) (w : SwEngine) : SwEngine :=
  { w with
    status := { w.status with op := op, done := false, err := .ok, lastErr := .ok, attempts := 0#8 }
    reading := .zero }

/-- `AdcCommandWrite` (20_memory.md R66): while BUSY the write sets OVERRUN and nothing else; otherwise it is
accepted and `run` is the command's own effect (R110). -/
def adcCommandWrite (op : BitVec 4) (run : AdcEngine → AdcEngine) (a : AdcEngine) : AdcEngine :=
  if a.status.busy then { a with status := { a.status with overrun := true } }
  else run (adcAccept op a)

/-- `SwCommandWrite` (R66, R140). -/
def swCommandWrite (op : BitVec 4) (run : SwEngine → SwEngine) (w : SwEngine) : SwEngine :=
  if w.status.busy then { w with status := { w.status with overrun := true } }
  else run (swAccept op w)

/-! ## The ADC transaction -/

/-- `StartTransaction(ch)` (40_adc.md R114). -/
def startTransaction (p : Params) (ch : BitVec 2) (a : AdcEngine) : AdcEngine :=
  { a with
    ch := ch
    cmd := adcCommandBits p ch
    shift := 0#8
    cycle := 0
    csN := false
    clk := false
    doutOe := true
    dout := (adcCommandBits p ch).getLsbD 4
    phase := .setup
    cnt := 0 }

/-- `EnterLow(k)` (R116): the data line carries command bit 4-k for k ≤ 4, is released at k = 5, and is left alone
from k = 6 on. -/
def enterLow (k : Nat) (a : AdcEngine) : AdcEngine :=
  { a with
    cycle := k
    clk := false
    doutOe := if k ≤ 4 then true else if k = 5 then false else a.doutOe
    dout := if k ≤ 4 then a.cmd.getLsbD (4 - k) else if k = 5 then false else a.dout
    phase := .low }

/-- The write of one field of ADC_ALL (R124). -/
def AdcAll.set (a : AdcAll) (ch : BitVec 2) (v : Byte) : AdcAll :=
  match ch.toNat with
  | 0 => { a with ch0 := v }
  | 1 => { a with ch1 := v }
  | 2 => { a with ch2 := v }
  | _ => { a with ch3 := v }

/-- One field of ADC_ALL (R29). -/
def AdcAll.get (a : AdcAll) (ch : BitVec 2) : Byte :=
  match ch.toNat with
  | 0 => a.ch0
  | 1 => a.ch1
  | 2 => a.ch2
  | _ => a.ch3

/-! ## The single-wire attempt -/

/-- `StartAttempt()` (41_single_wire.md R142). -/
def startAttempt (w : SwEngine) : SwEngine :=
  { w with
    status := { w.status with attempts := w.status.attempts + 1#8 }
    frame0 := .zero
    frame1 := .zero
    frame := 0#40
    bit := 0
    oe := true
    out := false
    phase := .startLow
    cnt := 0#32 }

/-- `AttemptEnd(kind)` (42_retry.md R184). -/
def attemptEnd (kind : ErrCode) (w : SwEngine) : SwEngine :=
  let w := { w with status := { w.status with lastErr := kind } }
  if kind = .ok then completeSw .ok w
  else if w.rtRetry = false then completeSw kind w
  else if w.rtMax.toNat ≤ w.status.attempts.toNat then completeSw .sensorUnavailable w
  else if w.rtDelay = 0#32 then startAttempt w
  else { w with phase := .delay, cnt := 0#32 }

end Sys2Proof.Machine
end

