-- ==== Sys2Proof/Machine/AdcEngine.lean ====
section
/-! DEFINITION. The ADC engine (40_adc.md): what its two commands do once accepted, and its step at every tick. -/

namespace Sys2Proof.Machine

/-- `ExecReadChannel(ch)` (R111): the channel check comes before any pin activity. -/
def runReadChannel (p : Params) (ch : Nat) (a : AdcEngine) : AdcEngine :=
  if channelValid p ch then
    startTransaction p (BitVec.ofNat 2 ch)
      { a with op := .readChannel, status := { a.status with busy := true } }
  else completeAdc .invalidChannel a

/-- `ExecReadAll()` (R112). -/
def runReadAll (p : Params) (a : AdcEngine) : AdcEngine :=
  startTransaction p 0#2
    { a with op := .readAll, all := ⟨0#8, 0#8, 0#8, 0#8⟩, status := { a.status with busy := true } }

/-- `adc.read ch`: the write of its word to ADC_CMD (R66, R110, R111). -/
def execAdcRead (ch : Nat) (s : State) : Result :=
  .next { s with adc := adcCommandWrite 0x1#4 (runReadChannel s.params ch) s.adc }

/-- `adc.readall`: the write of its word to ADC_CMD (R66, R110, R112). -/
def execAdcReadall (s : State) : Result :=
  .next { s with adc := adcCommandWrite 0x2#4 (runReadAll s.params) s.adc }

/-- The sample of a data cycle (R117): at the transition `edge`, if it is the one P_ADC_SAMPLE_EDGE names, and only in
cycles 6 to 13. -/
def sampleAt (p : Params) (edge : SampleEdge) (din : Level) (a : AdcEngine) : AdcEngine :=
  if p.adcSampleEdge = edge ∧ 6 ≤ a.cycle then { a with shift := shiftIn8 a.shift din } else a

/-- The end of the GAP phase: the result, and completion or the next channel (R119, R120, R124). -/
def transactionEnd (p : Params) (a : AdcEngine) : AdcEngine :=
  match a.op with
  | .readChannel => completeAdc .ok { a with result := ⟨a.shift, a.ch, true⟩ }
  | .readAll =>
    if a.ch.toNat + 1 < p.adcChannels then
      startTransaction p (a.ch + 1#2) { a with all := a.all.set a.ch a.shift }
    else completeAdc .ok { a with all := a.all.set a.ch a.shift }

/-- What happens at the tick that ends the current phase (R121; the `case` of `AdcTick`). -/
def adcPhaseEnd (p : Params) (din : Level) (a : AdcEngine) : AdcEngine :=
  match a.phase with
  | .idle => a
  | .setup => enterLow 0 a
  | .low => { sampleAt p .rising din a with clk := true, phase := .high }
  | .high =>
    let a := sampleAt p .falling din a
    if a.cycle < 13 then enterLow (a.cycle + 1) a else { a with clk := false, phase := .ending }
  | .ending => { a with csN := true, dout := false, doutOe := false, phase := .gap }
  | .gap => transactionEnd p a

/-- `AdcTick()` (R121). It reads the engine's own state, `adc_din` and the parameters. -/
def adcTick (p : Params) (din : Level) (a : AdcEngine) : AdcEngine :=
  if a.phase = .idle then a
  else if a.cnt + 1 < p.tAdcPhase then { a with cnt := a.cnt + 1 }
  else adcPhaseEnd p din { a with cnt := 0 }

end Sys2Proof.Machine
end

