-- ==== Sys2Proof/Machine/SingleWire.lean ====
section
/-! DEFINITION. The single-wire engine (41_single_wire.md) and the retry state machine (42_retry.md): what their two
commands do once accepted, and the engine's step at every tick. -/

namespace Sys2Proof.Machine

/-- `ExecRead()` (R141). -/
def runRead (w : SwEngine) : SwEngine :=
  startAttempt
    { w with rtRetry := false, rtMax := 1#8, rtDelay := 0#32, status := { w.status with busy := true } }

/-- `ExecReadRetry(n)` (42_retry.md R182, R183): the delay is latched from SW_RETRY_DELAY (R181). -/
def runReadRetry (n : Nat) (w : SwEngine) : SwEngine :=
  let w := { w with rtRetry := true, rtMax := BitVec.ofNat 8 n, rtDelay := w.retryDelay }
  if n = 0 then completeSw .sensorUnavailable w
  else startAttempt { w with status := { w.status with busy := true } }

/-- `sw.read`: the write of its word to SW_CMD (R66, R140, R141). -/
def execSwRead (s : State) : Result :=
  .next { s with sw := swCommandWrite 0x1#4 runRead s.sw }

/-- `sw.readretry n`: the write of its word to SW_CMD (R66, R140, R182). -/
def execSwReadretry (n : Nat) (s : State) : Result :=
  .next { s with sw := swCommandWrite 0x2#4 (runReadRetry n) s.sw }

/-- `FrameComplete()` (R153 to R160): the frame registers whatever the checksum, then checksum, then range. -/
def frameComplete (p : Params) (w : SwEngine) : SwEngine :=
  let b0 := frameByte w.frame 0
  let b1 := frameByte w.frame 1
  let b2 := frameByte w.frame 2
  let b3 := frameByte w.frame 3
  let b4 := frameByte w.frame 4
  let ok := decide (checksum b0 b1 b2 b3 = b4)
  let w := { w with frame0 := ⟨b0, b1, b2, b3⟩, frame1 := ⟨b4, ok, true⟩ }
  if ok = false then attemptEnd .checksumError w
  else
    let t := tempDecode p.tempEncoding b2
    if inRange p b0 t = false then attemptEnd .outOfRange w
    else attemptEnd .ok { w with reading := ⟨b0, temperatureByte t, true⟩ }

/-- `WaitStep(L, next, failkind)` (R146): one tick of a bounded wait. -/
def waitStep (p : Params) (level : Level) (next : SwPhase) (failKind : ErrCode) (swIn : Level)
    (w : SwEngine) : SwEngine :=
  let w := { w with cnt := w.cnt + 1#32 }
  if swIn = level then { w with cnt := 0#32, phase := next }
  else if w.cnt.toNat = p.tWaitTimeout then attemptEnd failKind w
  else w

/-- One tick of BIT_L (R148 to R152): the wait that ends the high pulse and measures it. -/
def bitLowStep (p : Params) (swIn : Level) (w : SwEngine) : SwEngine :=
  let w := { w with cnt := w.cnt + 1#32 }
  if swIn = false then
    let w := { w with
      cnt := 0#32
      frame := shiftIn40 w.frame (classify p w.cnt.toNat)
      bit := w.bit + 1 }
    if w.bit = 40 then frameComplete p w else { w with phase := .bitH }
  else if w.cnt.toNat = p.tWaitTimeout then attemptEnd .truncated w
  else w

/-- `RetryDelayTick()` (42_retry.md R185). -/
def retryDelayTick (w : SwEngine) : SwEngine :=
  let w := { w with cnt := w.cnt + 1#32 }
  if w.cnt = w.rtDelay then startAttempt { w with cnt := 0#32 } else w

/-- One tick of START_LOW (R143, R152). -/
def startLowStep (p : Params) (w : SwEngine) : SwEngine :=
  let w := { w with cnt := w.cnt + 1#32 }
  if w.cnt.toNat = p.tStartLow then { w with cnt := 0#32, out := true, phase := .release } else w

/-- One tick of RELEASE (R144, R152). -/
def releaseStep (p : Params) (w : SwEngine) : SwEngine :=
  let w := { w with cnt := w.cnt + 1#32 }
  if w.cnt.toNat = p.tRelease then { w with cnt := 0#32, oe := false, phase := .ack0 } else w

/-- `SwTick()` (R152). It reads the engine's own state, `sw_in` and the parameters. -/
def swTick (p : Params) (swIn : Level) (w : SwEngine) : SwEngine :=
  match w.phase with
  | .idle => w
  | .startLow => startLowStep p w
  | .release => releaseStep p w
  | .ack0 => waitStep p false .ack1 .noResponse swIn w
  | .ack1 => waitStep p true .ack2 .noResponse swIn w
  | .ack2 => waitStep p false .bitH .noResponse swIn w
  | .bitH => waitStep p true .bitL .truncated swIn w
  | .bitL => bitLowStep p swIn w
  | .delay => retryDelayTick w

end Sys2Proof.Machine
end

