-- ==== Sys2Proof/Machine/Dispatch.lean ====
section
/-! DEFINITION. The one dispatch from a command to its meaning: one arm per constructor of Instr. -/

namespace Sys2Proof.Machine

/-- The effect of a command at the access that carries it (20_memory.md R66). -/
def exec (i : Instr) (s : State) : Host.Outcome State Fault Refusal :=
  match i with
  -- ADC engine (40_adc.md)
  | .adcRead ch => Sys2Proof.Machine.execAdcRead ch s
  | .adcReadall => Sys2Proof.Machine.execAdcReadall s
  -- single-wire engine (41_single_wire.md) and retry state machine (42_retry.md)
  | .swRead => Sys2Proof.Machine.execSwRead s
  | .swReadretry n => Sys2Proof.Machine.execSwReadretry n s

end Sys2Proof.Machine
end

