-- ==== Sys2Proof/Machine/Flags.lean ====
section
/-! DEFINITION. The words the host reads: every register of the window assembled from its fields (10_state.md R25 to
R36), every reserved bit 0, and the numbers of the result codes (30_encoding.md R88). -/

namespace Sys2Proof.Machine

/-- The 4-bit number of a result code (R88). -/
def ErrCode.code : ErrCode → BitVec 4
  | .ok => 0#4
  | .invalidChannel => 1#4
  | .noResponse => 2#4
  | .truncated => 3#4
  | .checksumError => 4#4
  | .outOfRange => 5#4
  | .sensorUnavailable => 6#4
  | .illegalCommand => 7#4

/-- CAPS.TEMP_ENC (R25). The value 3 never appears (I8). -/
def tempEncCode : TempEncoding → BitVec 2
  | .twosComplement => 0#2
  | .unsigned => 1#2
  | .signMagnitude => 2#2

/-- CAPS (R25): WAIT_TIMEOUT [31:24], BIT_THRESHOLD [23:16], ADC_PHASE [15:8], TEMP_ENC [5:4], ADC_NCH [2:0]. -/
def capsWord (p : Params) : Word :=
  BitVec.ofNat 8 p.tWaitTimeout ++ BitVec.ofNat 8 p.tBitThreshold ++ BitVec.ofNat 8 p.tAdcPhase ++
    0#2 ++ tempEncCode p.tempEncoding ++ 0#1 ++ BitVec.ofNat 3 p.adcChannels

/-- ADC_STATUS (R27): OP [11:8], ERR [7:4], OVERRUN [2], DONE [1], BUSY [0]. -/
def AdcStatus.word (s : AdcStatus) : Word :=
  0#20 ++ s.op ++ s.err.code ++ 0#1 ++ BitVec.ofBool s.overrun ++ BitVec.ofBool s.done ++ BitVec.ofBool s.busy

/-- ADC_RESULT (R28): VALID [31], CHANNEL [9:8], SAMPLE [7:0]. -/
def AdcResult.word (r : AdcResult) : Word := BitVec.ofBool r.valid ++ 0#21 ++ r.channel ++ r.sample

/-- ADC_ALL (R29): CH3 [31:24], CH2 [23:16], CH1 [15:8], CH0 [7:0]. -/
def AdcAll.word (a : AdcAll) : Word := a.ch3 ++ a.ch2 ++ a.ch1 ++ a.ch0

/-- SW_STATUS (R31): ATTEMPTS [23:16], LAST_ERR [15:12], OP [11:8], ERR [7:4], OVERRUN [2], DONE [1], BUSY [0]. -/
def SwStatus.word (s : SwStatus) : Word :=
  0#8 ++ s.attempts ++ s.lastErr.code ++ s.op ++ s.err.code ++ 0#1 ++
    BitVec.ofBool s.overrun ++ BitVec.ofBool s.done ++ BitVec.ofBool s.busy

/-- SW_FRAME0 (R32): TEMP_FRAC [31:24], TEMP_INT [23:16], HUM_FRAC [15:8], HUM_INT [7:0]. -/
def SwFrame0.word (f : SwFrame0) : Word := f.tempFrac ++ f.tempInt ++ f.humFrac ++ f.humInt

/-- SW_FRAME1 (R33): FULL [31], CSUM_OK [8], CHECKSUM [7:0]. -/
def SwFrame1.word (f : SwFrame1) : Word := BitVec.ofBool f.full ++ 0#22 ++ BitVec.ofBool f.csumOk ++ f.checksum

/-- SW_READING (R34): VALID [31], TEMPERATURE [15:8], HUMIDITY [7:0]. -/
def SwReading.word (r : SwReading) : Word := BitVec.ofBool r.valid ++ 0#15 ++ r.temperature ++ r.humidity

end Sys2Proof.Machine
end

