-- ==== Sys2Proof/Machine/Bus.lean ====
section
/-! DEFINITION. The host bus (20_memory.md): the register map, `MemRead` and `MemWrite`, the write of an ILLEGAL word. -/

namespace Sys2Proof.Machine

/-- The registers of the window (10_state.md R24). -/
inductive Reg where
  | caps
  | adcCmd
  | adcStatus
  | adcResult
  | adcAll
  | swCmd
  | swStatus
  | swFrame0
  | swFrame1
  | swReading
  | swRetryDelay
deriving DecidableEq, Repr

/-- The offset of a register (R24). -/
def regOffset : Reg → Offset
  | .caps => 0x00#6
  | .adcCmd => 0x04#6
  | .adcStatus => 0x08#6
  | .adcResult => 0x0C#6
  | .adcAll => 0x10#6
  | .swCmd => 0x20#6
  | .swStatus => 0x24#6
  | .swFrame0 => 0x28#6
  | .swFrame1 => 0x2C#6
  | .swReading => 0x30#6
  | .swRetryDelay => 0x34#6

/-- The register at an offset; `none` at every other offset, the reserved words among them (R24, R36). -/
def regAt (off : Offset) : Option Reg :=
  match off.toNat with
  | 0x00 => some .caps
  | 0x04 => some .adcCmd
  | 0x08 => some .adcStatus
  | 0x0C => some .adcResult
  | 0x10 => some .adcAll
  | 0x20 => some .swCmd
  | 0x24 => some .swStatus
  | 0x28 => some .swFrame0
  | 0x2C => some .swFrame1
  | 0x30 => some .swReading
  | 0x34 => some .swRetryDelay
  | _ => none

/-- The one form of access the spec defines: 4 bytes wide and word-aligned (R67, R68). -/
def accessDefined (off : Offset) (bytes : Nat) : Bool := decide (bytes = 4 ∧ off.toNat % 4 = 0)

/-- The value of a register as the host reads it: 0 for the write-only ones (R26, R30, R61). -/
def readReg (r : Reg) (s : State) : Word :=
  match r with
  | .caps => capsWord s.params
  | .adcCmd => 0#32
  | .adcStatus => s.adc.status.word
  | .adcResult => s.adc.result.word
  | .adcAll => s.adc.all.word
  | .swCmd => 0#32
  | .swStatus => s.sw.status.word
  | .swFrame0 => s.sw.frame0.word
  | .swFrame1 => s.sw.frame1.word
  | .swReading => s.sw.reading.word
  | .swRetryDelay => s.sw.retryDelay

/-- `MemRead(off, 4)` for a word-aligned `off` (R61): reserved offsets read 0 (R36). -/
def memRead (off : Offset) (s : State) : Word :=
  match regAt off with
  | some r => readReg r s
  | none => 0#32

/-- `W1C(ADC_STATUS, v)` (R65). -/
def w1cAdc (v : Word) (a : AdcEngine) : AdcEngine :=
  if v.getLsbD 2 then { a with status := { a.status with overrun := false } } else a

/-- `W1C(SW_STATUS, v)` (R65). -/
def w1cSw (v : Word) (w : SwEngine) : SwEngine :=
  if v.getLsbD 2 then { w with status := { w.status with overrun := false } } else w

/-- The write of a word that decodes to no command (R83, 60_exceptions.md R203): OVERRUN while BUSY (R208), else
the acceptance and `complete(ILLEGAL_COMMAND)`. OP is the written OP field. -/
def illegalWrite (r : CmdReg) (v : Word) (s : State) : State :=
  match r with
  | .adcCmd => { s with adc := adcCommandWrite (opField v) (completeAdc .illegalCommand) s.adc }
  | .swCmd => { s with sw := swCommandWrite (opField v) (completeSw .illegalCommand) s.sw }

/-- The write of a word to a command register: the command it decodes to, or the ILLEGAL word's effect (R62, R110, R140). -/
def commandWrite (r : CmdReg) (v : Word) (s : State) : Result :=
  match decode r v with
  | .ok i => exec i s
  | .error _ => .next (illegalWrite r v s)

/-- The write of a register (R62): read-only registers ignore it (R37). -/
def writeReg (r : Reg) (v : Word) (s : State) : Result :=
  match r with
  | .adcCmd => commandWrite .adcCmd v s
  | .swCmd => commandWrite .swCmd v s
  | .adcStatus => .next { s with adc := w1cAdc v s.adc }
  | .swStatus => .next { s with sw := w1cSw v s.sw }
  | .swRetryDelay => .next { s with sw := { s.sw with retryDelay := v } }
  | .caps => .next s
  | .adcResult => .next s
  | .adcAll => .next s
  | .swFrame0 => .next s
  | .swFrame1 => .next s
  | .swReading => .next s

/-- `MemWrite(off, 4, v)` for a word-aligned `off` (R62): reserved offsets ignore it (R36). -/
def memWrite (off : Offset) (v : Word) (s : State) : Result :=
  match regAt off with
  | some r => writeReg r v s
  | none => .next s

/-- The offset of a command register (R24). -/
def cmdOffset : CmdReg → Offset
  | .adcCmd => regOffset .adcCmd
  | .swCmd => regOffset .swCmd

end Sys2Proof.Machine
end

