-- ==== Sys2Proof/Machine/Turns.lean ====
section
/-! DEFINITION. What each agent does in its turn (00_scope.md R8): the host's next operation, one tick of both engines,
a level of `rst_n`. -/

namespace Sys2Proof.Machine

/-- The block's state put at its reset values (R48, 70_reset_and_hazards.md R230). The parameters, and what the outside
holds (the host's operations and data, the turns), are not the block's to reset (log 8). -/
def resetBlock (s : State) : State :=
  { s with adc := AdcEngine.atReset, sw := SwEngine.atReset s.params }

/-- What the bus returns for a read: 0 while `rst_n` is low (R230). -/
def busRead (off : Offset) (s : State) : Word := if s.rstN then memRead off s else 0#32

/-- What the bus does with a write: nothing while `rst_n` is low (R230). -/
def busWrite (off : Offset) (v : Word) (s : State) : Result := if s.rstN then memWrite off v s else .next s

/-- The host performs its next operation: it does nothing when it has none, or while it lets time pass. -/
def hostTurn (s : State) : Result :=
  match s.host with
  | [] => .next s
  | .rd off bytes :: rest =>
    if accessDefined off bytes then .next { s with lastRead := busRead off s, host := rest }
    else .refused .narrowOrMisaligned
  | .wr off bytes v :: rest =>
    if accessDefined off bytes then busWrite off v { s with host := rest }
    else .refused .narrowOrMisaligned
  | .poll off mask val :: rest =>
    if accessDefined off 4 then
      if busRead off s &&& mask = val then .next { s with lastRead := busRead off s, host := rest }
      else .next { s with lastRead := busRead off s }
    else .refused .narrowOrMisaligned
  | .delay 0 :: rest => .next { s with host := rest }
  | .delay (_ + 1) :: _ => .next s

/-- One tick passes for a host that is in `delay_us` (30_encoding.md R92). -/
def elapseDelay : List HostOp → List HostOp
  | .delay (n + 1) :: rest => .delay n :: rest
  | ops => ops

/-- One tick: both engines step, each on its own input level (R8, 60_exceptions.md R210, R215). While `rst_n` is low the
block stays at its reset values (R230). -/
def tickTurn (adcDin swIn : Level) (s : State) : State :=
  if s.rstN then
    { s with
      adc := adcTick s.params adcDin s.adc
      sw := swTick s.params swIn s.sw
      host := elapseDelay s.host }
  else { s with host := elapseDelay s.host }

/-- The platform drives `rst_n`: low, and its release, put the block at its reset values (R230). A level that is high
and stays high changes nothing. -/
def resetTurn (level : Level) (s : State) : State :=
  if level && s.rstN then s else { resetBlock s with rstN := level }

/-- One turn of one agent. -/
def takeTurn (t : Turn) (s : State) : Result :=
  match t with
  | .host => hostTurn s
  | .tick adcDin swIn => .next (tickTurn adcDin swIn s)
  | .reset level => .next (resetTurn level s)

/-- Whose turn it is, and the state with that turn taken off: the next of the turns written in the state, or a free one
(log 2). -/
def nextTurn (s : State) : Turn × State :=
  match s.turns with
  | t :: rest => (t, { s with turns := rest })
  | [] => (Config.freeTurn s.draws, { s with draws := s.draws + 1 })

/-- One step of a machine whose parameters are legal. -/
def stepLegal (s : State) : Result := takeTurn (nextTurn s).1 (nextTurn s).2

/-- The register a table word is written to when it is fetched (log 5): the one at which it is legal, ADC_CMD for a word
that is legal at neither. -/
def fetchReg (v : Word) : CmdReg :=
  match tableCommand v with
  | some (r, _) => r
  | none => .adcCmd

end Sys2Proof.Machine
end

