-- ==== Sys2Proof/Machine/Step.lean ====
section
/-! DEFINITION. The step: one turn of one agent; and the placing of a command word where the next step takes it. -/

namespace Sys2Proof.Machine

/-- One step. A parameter set outside R9 is refused (I9). -/
def step (s : State) : Host.Outcome State Fault Refusal :=
  if s.params.legal then stepLegal s else .refused .illegalParameters

/-- The state whose very next step is the host's write of a table word to its command register (log 5, log 7): the next
turn is the host's, its next operation is that write, and `rst_n` is high, since a write during reset is ignored (R230). -/
def State.withFetchWord (s : State) (nbits w : Nat) : State :=
  { s with
    rstN := true
    host := .wr (cmdOffset (fetchReg (tableWord nbits w))) 4 (tableWord nbits w) :: s.host
    turns := .host :: s.turns }

end Sys2Proof.Machine
end

