-- ==== Sys2Proof/Machine/Assembler.lean ====
section
/-! DEFINITION. The assembler syntax of host programs and its pseudo-instructions (30_encoding.md R92, R93): each line
as the host operations it stands for. -/

namespace Sys2Proof.Machine

/-- A line of a host program. -/
inductive AsmLine where
  /-- `rd REG` -/
  | rd (off : Offset)
  /-- `wr REG, imm32` -/
  | wr (off : Offset) (v : Word)
  /-- one of the four commands -/
  | cmd (i : Instr)
  /-- `sw.readretry` with no operand -/
  | swReadretryDefault
  /-- `sw.setdelay d` -/
  | swSetdelay (d : Word)
  /-- `adc.clroverrun` -/
  | adcClroverrun
  /-- `sw.clroverrun` -/
  | swClroverrun
  /-- `poll REG, mask, val` -/
  | poll (off : Offset) (mask val : Word)
  /-- `adc.wait` -/
  | adcWait
  /-- `sw.wait` -/
  | swWait
  /-- `adc.read_channel ch` -/
  | adcReadChannel (ch : Nat)
  /-- `adc.read_all_channels` -/
  | adcReadAllChannels
  /-- `sw.read_once` -/
  | swReadOnce
  /-- `sw.read_retry n, d` -/
  | swReadRetry (n : Nat) (d : Word)
  /-- `delay_us n` -/
  | delayUs (n : Nat)
deriving DecidableEq, Repr

/-- `rd REG` of a named register (R92). -/
def rdOp (r : Reg) : HostOp := .rd (regOffset r) 4

/-- `wr REG, v` of a named register (R92). -/
def wrOp (r : Reg) (v : Word) : HostOp := .wr (regOffset r) 4 v

/-- The write of a command's word to its register; an operand outside its range has no encoding and is refused (R92). -/
def cmdOps (i : Instr) : Option (List HostOp) :=
  if i.wellFormed then some [.wr (cmdOffset (encode i).1) 4 (encode i).2] else none

/-- `poll STATUS, 0x1, 0x0` (R93). -/
def waitOp (r : Reg) : HostOp := .poll (regOffset r) 0x1#32 0x0#32

/-- The operations a line stands for (R92, R93). -/
def assemble (p : Params) : AsmLine → Option (List HostOp)
  | .rd off => some [.rd off 4]
  | .wr off v => some [.wr off 4 v]
  | .cmd i => cmdOps i
  | .swReadretryDefault => cmdOps (.swReadretry p.retryDefaultAttempts.toNat)
  | .swSetdelay d => some [wrOp .swRetryDelay d]
  | .adcClroverrun => some [wrOp .adcStatus 0x4#32]
  | .swClroverrun => some [wrOp .swStatus 0x4#32]
  | .poll off mask val => some [.poll off mask val]
  | .adcWait => some [waitOp .adcStatus]
  | .swWait => some [waitOp .swStatus]
  | .adcReadChannel ch =>
    (cmdOps (.adcRead ch)).map (· ++ [waitOp .adcStatus, rdOp .adcStatus, rdOp .adcResult])
  | .adcReadAllChannels =>
    (cmdOps .adcReadall).map (· ++ [waitOp .adcStatus, rdOp .adcStatus, rdOp .adcAll])
  | .swReadOnce => (cmdOps .swRead).map (· ++ [waitOp .swStatus, rdOp .swStatus, rdOp .swReading])
  | .swReadRetry n d =>
    (cmdOps (.swReadretry n)).map
      ([wrOp .swRetryDelay d] ++ · ++ [waitOp .swStatus, rdOp .swStatus, rdOp .swReading])
  | .delayUs n => some [.delay n]

/-- A host program: its lines' operations in order, refused if any line is (R92). -/
def assembleAll (p : Params) : List AsmLine → Option (List HostOp)
  | [] => some []
  | l :: ls =>
    match assemble p l, assembleAll p ls with
    | some a, some b => some (a ++ b)
    | _, _ => none

end Sys2Proof.Machine
end

