-- ==== Sys2Proof/Safety.lean ====
section
/-! DEFINITION. The terms claims are stated in: the engines after n ticks, the ticks of the ADC transaction's events
(40_adc.md R122), the sensor's waveform (41_single_wire.md R146 to R151), and the invariant of the block. -/

namespace Sys2Proof.Machine

/-! ## The engines after n ticks

Ticks are numbered from 1: time 0 is the access that accepts the command (95_test_vectors.md section 0). -/

/-- The ADC engine after the ticks 1 to n, where tick t samples the level `din t`. -/
def adcAfter (p : Params) (din : Nat → Level) : Nat → AdcEngine → AdcEngine
  | 0, a => a
  | n + 1, a => adcTick p (din (n + 1)) (adcAfter p din n a)

/-- The single-wire engine after the ticks 1 to n, where tick t samples the level `line t`. -/
def swAfter (p : Params) (line : Nat → Level) : Nat → SwEngine → SwEngine
  | 0, w => w
  | n + 1, w => swTick p (line (n + 1)) (swAfter p line n w)

/-- What a host that is in `delay_us` still has to wait after n ticks (30_encoding.md R92). -/
def hostAfter : Nat → List HostOp → List HostOp
  | 0, ops => ops
  | n + 1, ops => elapseDelay (hostAfter n ops)

/-- n tick turns with the levels of `din` and `line`, the first of them tick number `start + 1`. -/
def tickTurns (din line : Nat → Level) (start : Nat) : Nat → List Turn
  | 0 => []
  | n + 1 => .tick (din (start + 1)) (line (start + 1)) :: tickTurns din line (start + 1) n

/-! ## The ADC transaction -/

/-- The tick, counted from the start of the transaction, at which the data bit of cycle k is sampled (R117, R122). -/
def sampleTick (p : Params) (k : Nat) : Nat :=
  match p.adcSampleEdge with
  | .rising => 2 * p.tAdcPhase + 2 * k * p.tAdcPhase
  | .falling => 3 * p.tAdcPhase + 2 * k * p.tAdcPhase

/-- The stimulus of a byte on `adc_din` (30_encoding.md R94): through the whole of data cycle k, from tick T+2kT+1 to
3T+2kT of the transaction, the level is the bit that the cycle carries, most significant first. -/
abbrev PresentsByte (p : Params) (din : Nat → Level) (b : Byte) : Prop :=
  ∀ k t, 6 ≤ k → k ≤ 13 → p.tAdcPhase + 2 * k * p.tAdcPhase < t → t ≤ 3 * p.tAdcPhase + 2 * k * p.tAdcPhase →
    din t = b.getLsbD (13 - k)

/-- The ticks of one transaction (R122, R250). -/
def transactionTicks (p : Params) : Nat := 31 * p.tAdcPhase

/-- The level of `adc_dout` in cycle k of a transaction for channel c: start bit, single-ended bit, two channel bits,
pad bit, then 0 while the wire is released (30_encoding.md R84, 40_adc.md R116). -/
def commandLevel (p : Params) (c : BitVec 2) (k : Nat) : Level :=
  match k with
  | 0 => true
  | 1 => true
  | 2 => c.getLsbD 1
  | 3 => c.getLsbD 0
  | 4 => p.adcCmdPad
  | _ => false

/-- The pins of the ADC engine. -/
structure AdcPins where
  csN : Level
  clk : Level
  dout : Level
  doutOe : Level
deriving DecidableEq, Repr

/-- The levels of the engine's pins. -/
def AdcEngine.pins (a : AdcEngine) : AdcPins := ⟨a.csN, a.clk, a.dout, a.doutOe⟩

/-- The idle levels (R123). -/
def AdcPins.idle : AdcPins := ⟨true, false, false, false⟩

/-! ## The single-wire attempt -/

/-- The longest attempt, in ticks: `Ts + Tr + 83 × TO` (R163). -/
def attemptBound (p : Params) : Nat := p.tStartLow + p.tRelease + 83 * p.tWaitTimeout

/-- The ticks of an attempt with no answer: `Ts + Tr + TO` (R163). -/
def silentAttempt (p : Params) : Nat := p.tStartLow + p.tRelease + p.tWaitTimeout

/-- The engine at the start of a READ that is accepted right after reset: one attempt and nothing before it (R141). -/
def freshAttempt (p : Params) : SwEngine := runRead (swAccept 0x1#4 (SwEngine.atReset p))

/-- An attempt against this line ends at its tick d, and not before, with this result (R146 to R160). The line's levels
are numbered from the attempt's start. -/
structure AttemptEnds (p : Params) (line : Nat → Level) (d : Nat) (kind : ErrCode) : Prop where
  runs : ∀ m, m < d → (swAfter p line m (freshAttempt p)).status.busy = true
  ends : (swAfter p line d (freshAttempt p)).status.busy = false
  result : (swAfter p line d (freshAttempt p)).status.err = kind

/-- One data bit as the line carries it: a low pulse, then a high pulse, in ticks (R148). -/
structure Pulse where
  low : Nat
  high : Nat
deriving DecidableEq, Repr

/-- Every pulse is at least one tick long and within the wait's bound (R146, R164). -/
abbrev Pulse.Bounded (p : Params) (b : Pulse) : Prop :=
  (1 ≤ b.low ∧ b.low ≤ p.tWaitTimeout) ∧ (1 ≤ b.high ∧ b.high ≤ p.tWaitTimeout)

/-- The levels of the data bits, one a tick. -/
def pulseLevels : List Pulse → List Level
  | [] => []
  | b :: bs => List.replicate b.low false ++ List.replicate b.high true ++ pulseLevels bs

/-- The sensor's answer from the first sample tick of ACK0: the line high for `latency - 1` ticks, the acknowledgement
low and high, the data bits, and the falling edge that ends the last of them (R147, R148, R151; in the notation of
30_encoding.md R94 `H(latency-1) L(ackLow) H(ackHigh)`, then `L H` for each bit, then `L1`). -/
def answer (latency ackLow ackHigh : Nat) (bits : List Pulse) : List Level :=
  List.replicate (latency - 1) true ++ List.replicate ackLow false ++ List.replicate ackHigh true ++
    pulseLevels bits ++ [false]

/-- Bit j (0 first, the most significant) of byte k of the frame is arrival bit 8k+j, a 1 iff its high pulse is longer
than the threshold (30_encoding.md R86, 41_single_wire.md R149, R150). -/
abbrev CarriesByte (p : Params) (bits : List Pulse) (k : Nat) (b : Byte) : Prop :=
  ∀ j, j < 8 → ∀ q ∈ bits[8 * k + j]?, b.getLsbD (7 - j) = decide (q.high > p.tBitThreshold)

/-- What a frame's validation finds: checksum first, then range (41_single_wire.md R155, R157, R159). -/
def frameKind (p : Params) (b0 b1 b2 b3 b4 : Byte) : ErrCode :=
  if checksum b0 b1 b2 b3 ≠ b4 then .checksumError
  else if (b0.toNat : Int) ≤ p.humMax ∧ p.tempMin ≤ tempDecode p.tempEncoding b2 ∧
      tempDecode p.tempEncoding b2 ≤ p.tempMax then .ok
  else .outOfRange

/-- SW_READING after a frame with that finding (R160). -/
def frameReading (p : Params) (b0 b1 b2 b3 b4 : Byte) : SwReading :=
  if frameKind p b0 b1 b2 b3 b4 = .ok then ⟨b0, temperatureByte (tempDecode p.tempEncoding b2), true⟩ else .zero

/-- A host operation that the model refuses: an access that is not 4 bytes wide and word-aligned (20_memory.md R68). -/
def HostOp.undefinedAccess : HostOp → Bool
  | .rd off n => !accessDefined off n
  | .wr off n _ => !accessDefined off n
  | .poll off _ _ => !accessDefined off 4
  | .delay _ => false

/-! ## The invariant of the block -/

/-- The ADC engine between two turns. -/
structure AdcInv (p : Params) (a : AdcEngine) : Prop where
  /-- BUSY is 1 exactly while a command runs (R27, R111, R125) -/
  busy_iff : a.status.busy = true ↔ a.phase ≠ .idle
  /-- DONE and ERR are 0 while BUSY (R27) -/
  busy_clean : a.status.busy = true → a.status.done = false ∧ a.status.err = .ok ∧ a.result.valid = false
  /-- chip select is low from SETUP to END (R114, R118) -/
  select : a.csN = false ↔ (a.phase = .setup ∨ a.phase = .low ∨ a.phase = .high ∨ a.phase = .ending)
  /-- the clock is high in HIGH phases only (R115) -/
  clock : a.clk = true ↔ a.phase = .high
  /-- the data wire is driven in SETUP and in the cycles 0 to 4 only (R114, R116) -/
  driven : a.doutOe = true ↔ (a.phase = .setup ∨ ((a.phase = .low ∨ a.phase = .high) ∧ a.cycle ≤ 4))
  /-- the released data output is 0 (R116, R118) -/
  released : a.doutOe = false → a.dout = false
  /-- `st.adc_cnt` stays below the phase length, and is 0 in IDLE (R121, R125) -/
  count : a.cnt < p.tAdcPhase ∧ (a.phase = .idle → a.cnt = 0)
  /-- `st.adc_cycle` is 0..13 (R40) -/
  cycles : a.cycle ≤ 13
  /-- a running command addresses a channel that exists (R111, R112, R120) -/
  channel : a.phase ≠ .idle → a.ch.toNat < p.adcChannels
  /-- the running command is the one in OP (R27, R40) -/
  operation : a.phase ≠ .idle →
    (a.op = .readChannel ∧ a.status.op = 0x1#4) ∨ (a.op = .readAll ∧ a.status.op = 0x2#4)
  /-- fields of ADC_ALL for channels that do not exist read 0 (R29) -/
  unused : ∀ c : BitVec 2, p.adcChannels ≤ c.toNat → a.all.get c = 0#8
  /-- VALID: the last accepted command was a READ_CHANNEL that completed with ERR = 0 (R28) -/
  valid : a.result.valid = true →
    a.status.done = true ∧ a.status.err = .ok ∧ a.status.op = 0x1#4 ∧ a.result.channel.toNat < p.adcChannels
  /-- the codes an ADC command ends with (R88) -/
  codes : a.status.err = .ok ∨ a.status.err = .invalidChannel ∨ a.status.err = .illegalCommand

/-- An attempt is under way: every phase but IDLE and DELAY. -/
abbrev SwPhase.InAttempt (ph : SwPhase) : Prop := ph ≠ .idle ∧ ph ≠ .delay

/-- The bound that `st.sw_cnt` stays below in each phase (R143, R144, R146, R185). -/
def swCountBound (p : Params) (w : SwEngine) : Nat :=
  match w.phase with
  | .idle => 1
  | .startLow => p.tStartLow
  | .release => p.tRelease
  | .ack0 => p.tWaitTimeout
  | .ack1 => p.tWaitTimeout
  | .ack2 => p.tWaitTimeout
  | .bitH => p.tWaitTimeout
  | .bitL => p.tWaitTimeout
  | .delay => w.rtDelay.toNat

/-- The single-wire engine and the retry state machine between two turns. -/
structure SwInv (p : Params) (w : SwEngine) : Prop where
  /-- BUSY is 1 exactly while a command runs (R31) -/
  busy_iff : w.status.busy = true ↔ w.phase ≠ .idle
  /-- DONE and ERR are 0 while BUSY (R31), and no Reading stands (R34) -/
  busy_clean : w.status.busy = true → w.status.done = false ∧ w.status.err = .ok ∧ w.reading = .zero
  /-- the line is driven in START_LOW and RELEASE only (R142 to R144, R161) -/
  driven : w.oe = true ↔ (w.phase = .startLow ∨ w.phase = .release)
  /-- it is driven low in START_LOW only (R142, R143, R161) -/
  low : w.out = false ↔ w.phase = .startLow
  /-- the pull-up request is always 1 (R23) -/
  pullUp : w.puEn = true
  /-- `st.sw_cnt` stays below the bound of its phase -/
  count : w.cnt.toNat < swCountBound p w
  /-- `st.sw_bit` is 0..40 (R41), and below 40 while a bit is received -/
  bits : w.bit ≤ 40 ∧ (w.phase.InAttempt → w.bit < 40)
  /-- the frame registers are 0 during an attempt (R32, R33, R242) -/
  attempt_clear : w.phase.InAttempt → w.frame0 = .zero ∧ w.frame1 = .zero
  /-- with FULL = 0 both frame registers are 0 (R33) -/
  not_full : w.frame1.full = false → w.frame0 = .zero ∧ w.frame1 = .zero
  /-- CSUM_OK says whether the frame's checksum matches (R33, R155) -/
  csum : w.frame1.full = true →
    (w.frame1.csumOk = true ↔
      checksum w.frame0.humInt w.frame0.humFrac w.frame0.tempInt w.frame0.tempFrac = w.frame1.checksum)
  /-- without VALID the register SW_READING is 0 (R34) -/
  not_valid : w.reading.valid = false → w.reading = .zero
  /-- with VALID it holds the values of a frame that passed both checks (R34, R160) -/
  valid : w.reading.valid = true →
    w.status.done = true ∧ w.frame1.full = true ∧ w.frame1.csumOk = true ∧
    w.reading.humidity = w.frame0.humInt ∧
    w.reading.temperature = temperatureByte (tempDecode p.tempEncoding w.frame0.tempInt) ∧
    (w.frame0.humInt.toNat : Int) ≤ p.humMax ∧
    p.tempMin ≤ tempDecode p.tempEncoding w.frame0.tempInt ∧ tempDecode p.tempEncoding w.frame0.tempInt ≤ p.tempMax
  /-- a completed command has a Reading iff its ERR is OK (42_retry.md R190) -/
  done_ok : w.status.done = true → (w.reading.valid = true ↔ w.status.err = .ok)
  /-- ATTEMPTS of a running command is between 1 and its budget (42_retry.md R184) -/
  budget : w.status.busy = true →
    1 ≤ w.status.attempts.toNat ∧ w.status.attempts.toNat ≤ w.rtMax.toNat
  /-- READ makes one attempt and never delays; READ_RETRY is the command in OP (R141, R181, R182) -/
  mode : w.status.busy = true →
    (w.rtRetry = false ∧ w.rtMax = 1#8 ∧ w.status.op = 0x1#4) ∨ (w.rtRetry = true ∧ w.status.op = 0x2#4)
  /-- a delay comes between attempts of a READ_RETRY only, never after the last (R184, R185) -/
  delay : w.phase = .delay →
    w.rtRetry = true ∧ w.rtDelay ≠ 0#32 ∧ w.status.attempts.toNat < w.rtMax.toNat
  /-- LAST_ERR is OK or a retryable kind (R88, R186, R191) -/
  last : w.status.lastErr = .ok ∨ w.status.lastErr = .noResponse ∨ w.status.lastErr = .truncated ∨
    w.status.lastErr = .checksumError ∨ w.status.lastErr = .outOfRange
  /-- a completed READ reports its attempt's kind, a completed READ_RETRY only OK or SENSOR_UNAVAILABLE (R141, R182,
  R191); an ILLEGAL word reports ILLEGAL_COMMAND (R203) -/
  codes : w.status.done = true →
    w.status.err = .illegalCommand ∨
    (w.status.op = 0x1#4 ∧ w.status.err = w.status.lastErr) ∨
    (w.status.op = 0x2#4 ∧ (w.status.err = .ok ∨ w.status.err = .sensorUnavailable))

/-- What holds between any two turns of a block that started at reset: legal parameters, both engines' invariants, and
the reset values while `rst_n` is low (R230). -/
structure Inv (s : State) : Prop where
  legal : s.params.Legal
  adc : AdcInv s.params s.adc
  sw : SwInv s.params s.sw
  held : s.rstN = false → s.adc = AdcEngine.atReset ∧ s.sw = SwEngine.atReset s.params

/-! ## Agreement for one engine -/

/-- The window's single-wire half: offsets 0x20 to 0x3C (R24). -/
def swHalf (off : Offset) : Bool := decide (0x20 ≤ off.toNat)

/-- Two turns that the ADC engine cannot tell apart: they may differ in the level of `sw_in`. -/
def Turn.adcAgree : Turn → Turn → Bool
  | .host, .host => true
  | .tick a _, .tick b _ => a == b
  | .reset a, .reset b => a == b
  | _, _ => false

/-- Two turns that the single-wire engine cannot tell apart: they may differ in the level of `adc_din`. -/
def Turn.swAgree : Turn → Turn → Bool
  | .host, .host => true
  | .tick _ a, .tick _ b => a == b
  | .reset a, .reset b => a == b
  | _, _ => false

/-- Two host operations that the ADC engine cannot tell apart: two defined reads, two defined writes to the single-wire
half, or the same write, delay or poll. A poll of the single-wire half is no such pair: it ends when the other engine
lets it, and so the other engine decides through the host when the next operation comes. -/
def HostOp.adcAgree : HostOp → HostOp → Bool
  | .rd off n, .rd off' n' => accessDefined off n && accessDefined off' n'
  | .wr off n v, .wr off' n' v' =>
    accessDefined off n && accessDefined off' n' &&
      ((swHalf off && swHalf off') || (off == off' && v == v'))
  | .poll off mask val, .poll off' mask' val' => off == off' && mask == mask' && val == val' && !swHalf off
  | .delay n, .delay n' => n == n'
  | _, _ => false

/-- Two host operations that the single-wire engine cannot tell apart; of the polls, those of the single-wire half and of
CAPS. See `HostOp.adcAgree`. -/
def HostOp.swAgree : HostOp → HostOp → Bool
  | .rd off n, .rd off' n' => accessDefined off n && accessDefined off' n'
  | .wr off n v, .wr off' n' v' =>
    accessDefined off n && accessDefined off' n' &&
      ((!swHalf off && !swHalf off') || (off == off' && v == v'))
  | .poll off mask val, .poll off' mask' val' =>
    off == off' && mask == mask' && val == val' && (swHalf off || off == regOffset .caps)
  | .delay n, .delay n' => n == n'
  | _, _ => false

end Sys2Proof.Machine
end

