-- ==== Sys2Proof/Certificates/Slice0/Obligations.lean ====
section
/-! DEFINITION. What the provers are asked to prove of the model, each statement from the rules of spec/ named in its
docstring. -/

open Sys2Proof Sys2Proof.Machine

/-! ## Encoding -/

/-- Words of 95_test_vectors.md section 2 and of each row's format (R80, R81, R83). -/
def Obligations.DecodeReadsListedWords : Prop :=
  decode .adcCmd 0x00000021#32 = .ok (.adcRead 2) ∧
  decode .adcCmd 0x000000F1#32 = .ok (.adcRead 15) ∧
  decode .adcCmd 0x00000002#32 = .ok .adcReadall ∧
  decode .swCmd 0x00000001#32 = .ok .swRead ∧
  decode .swCmd 0x00000F02#32 = .ok (.swReadretry 15) ∧
  decode .swCmd 0x00000002#32 = .ok (.swReadretry 0) ∧
  (∀ v ∈ [0x00000000#32, 0x00000003#32, 0x00000012#32, 0x00000101#32, 0x0000000F#32],
    (decode .adcCmd v).toOption = none) ∧
  (∀ v ∈ [0x00000000#32, 0x00000101#32, 0x00000012#32, 0x00010002#32],
    (decode .swCmd v).toOption = none)

/-- No bit of an encoding is dropped, for every command with every operand its field admits (R80, R81, R89). -/
def Obligations.DecodeInvertsEncode : Prop :=
  ∀ i : Instr, i.wellFormed = true → decode (encode i).1 (encode i).2 = .ok i

/-- Decoding is strict: a word that decodes is the encoding of what it decodes to, so that every other word is ILLEGAL
(R80, R81, R83). -/
def Obligations.DecodedWordIsTheEncoding : Prop :=
  ∀ (r : CmdReg) (v : Word) (i : Instr), decode r v = .ok i → i.wellFormed = true ∧ encode i = (r, v)

/-- The lines of a host program and the accesses they stand for (R92, R93). -/
def Obligations.AssemblerExpandsLines : Prop :=
  (∀ p ch, ch ≤ 15 → assemble p (.cmd (.adcRead ch)) = some [.wr 0x04#6 4 ((BitVec.ofNat 32 ch <<< 4) ||| 0x1#32)]) ∧
  (∀ p ch, 15 < ch → assemble p (.cmd (.adcRead ch)) = none) ∧
  (∀ p, assemble p (.cmd .adcReadall) = some [.wr 0x04#6 4 0x2#32]) ∧
  (∀ p, assemble p (.cmd .swRead) = some [.wr 0x20#6 4 0x1#32]) ∧
  (∀ p n, n ≤ 255 → assemble p (.cmd (.swReadretry n)) = some [.wr 0x20#6 4 ((BitVec.ofNat 32 n <<< 8) ||| 0x2#32)]) ∧
  (∀ p n, 255 < n → assemble p (.cmd (.swReadretry n)) = none) ∧
  (∀ p off, assemble p (.rd off) = some [.rd off 4]) ∧
  (∀ p off v, assemble p (.wr off v) = some [.wr off 4 v]) ∧
  (∀ p off mask val, assemble p (.poll off mask val) = some [.poll off mask val]) ∧
  (∀ p n, assemble p (.delayUs n) = some [.delay n]) ∧
  (∀ p, assemble p .swReadretryDefault = assemble p (.cmd (.swReadretry p.retryDefaultAttempts.toNat))) ∧
  assemble Params.default .swReadretryDefault = some [.wr 0x20#6 4 0x00000F02#32] ∧
  (∀ p d, assemble p (.swSetdelay d) = some [.wr 0x34#6 4 d]) ∧
  (∀ p, assemble p .adcClroverrun = some [.wr 0x08#6 4 0x4#32]) ∧
  (∀ p, assemble p .swClroverrun = some [.wr 0x24#6 4 0x4#32]) ∧
  (∀ p, assemble p .adcWait = some [.poll 0x08#6 0x1#32 0x0#32]) ∧
  (∀ p, assemble p .swWait = some [.poll 0x24#6 0x1#32 0x0#32]) ∧
  (∀ p ch ops, assemble p (.cmd (.adcRead ch)) = some ops →
    assemble p (.adcReadChannel ch) = some (ops ++ [.poll 0x08#6 0x1#32 0x0#32, .rd 0x08#6 4, .rd 0x0C#6 4])) ∧
  (∀ p, assemble p .adcReadAllChannels =
    some [.wr 0x04#6 4 0x2#32, .poll 0x08#6 0x1#32 0x0#32, .rd 0x08#6 4, .rd 0x10#6 4]) ∧
  (∀ p, assemble p .swReadOnce =
    some [.wr 0x20#6 4 0x1#32, .poll 0x24#6 0x1#32 0x0#32, .rd 0x24#6 4, .rd 0x30#6 4]) ∧
  (∀ p n d ops, assemble p (.cmd (.swReadretry n)) = some ops →
    assemble p (.swReadRetry n d) =
      some (.wr 0x34#6 4 d :: ops ++ [.poll 0x24#6 0x1#32 0x0#32, .rd 0x24#6 4, .rd 0x30#6 4])) ∧
  (∀ p ch, 15 < ch → assemble p (.adcReadChannel ch) = none) ∧
  (∀ p n d, 255 < n → assemble p (.swReadRetry n d) = none)

/-! ## The step -/

/-- The host's write of a word that decodes runs exactly that command (R62, R66, R110, R140). -/
def Obligations.StepRunsDecodedCommand : Prop :=
  ∀ (s : State) (r : CmdReg) (v : Word) (i : Instr) (ts : List Turn) (hs : List HostOp),
    s.params.Legal → s.rstN = true → s.turns = .host :: ts → s.host = .wr (cmdOffset r) 4 v :: hs →
    decode r v = .ok i →
    step s = exec i { s with turns := ts, host := hs }

/-- The model's own placing of a word (log 5, log 7): the very next step runs what the table's decoder reads from it. -/
def Obligations.FetchedWordRunsAsItsCommand : Prop :=
  ∀ (s : State) (nbits w : Nat) (i : Instr), s.params.Legal → decodeTableWord nbits w = some i →
    step (s.withFetchWord nbits w) = exec i { s with rstN := true }

/-- k tick turns are k ticks of both engines, each on its own input (R8, R121, R152, R215). What they do to the host's
list is the model's choice (log 3): each takes one tick from the delay standing first (R92), and nothing from a later
one. -/
def Obligations.TicksRunBothEngines : Prop :=
  ∀ (s : State) (din line : Nat → Level) (k : Nat) (rest : List Turn),
    s.params.Legal → s.rstN = true → s.turns = tickTurns din line 0 k ++ rest →
    Host.Core.run Sys2Proof.core k s = .next { s with
      adc := adcAfter s.params din k s.adc
      sw := swAfter s.params line k s.sw
      host := hostAfter k s.host
      turns := rest }

/-- The only stops of the machine, and exactly when they come: parameters outside R9 (I9), and the host's turn at an
access that is not 4 bytes wide and word-aligned (R68, log 15). That the refusal comes while `rst_n` is low too, where
R230 says that accesses are ignored, is the model's reading (log 8). -/
def Obligations.StopsOnlyAtUndefinedAccess : Prop :=
  ∀ (s : State) (r : Refusal), step s = .refused r ↔
    (¬ s.params.Legal ∧ r = .illegalParameters) ∨
    (s.params.Legal ∧ r = .narrowOrMisaligned ∧ (nextTurn s).1 = .host ∧
      ∃ op rest, s.host = op :: rest ∧ op.undefinedAccess = true)

/-- No step writes the parameters (R9), and the pull-up request stays 1 (R23). -/
def Obligations.StepKeepsParametersAndPullUp : Prop :=
  ∀ s t : State, step s = .next t → t.params = s.params ∧ (s.sw.puEn = true → t.sw.puEn = true)

/-! ## The register window -/

/-- R61: each register's read value, and that a read changes nothing but what the host has read. -/
def Obligations.HostReadReturnsRegister : Prop :=
  (∀ s : State,
    memRead 0x00#6 s = capsWord s.params ∧ memRead 0x04#6 s = 0#32 ∧ memRead 0x08#6 s = s.adc.status.word ∧
    memRead 0x0C#6 s = s.adc.result.word ∧ memRead 0x10#6 s = s.adc.all.word ∧ memRead 0x14#6 s = 0#32 ∧
    memRead 0x18#6 s = 0#32 ∧ memRead 0x1C#6 s = 0#32 ∧ memRead 0x20#6 s = 0#32 ∧
    memRead 0x24#6 s = s.sw.status.word ∧ memRead 0x28#6 s = s.sw.frame0.word ∧
    memRead 0x2C#6 s = s.sw.frame1.word ∧ memRead 0x30#6 s = s.sw.reading.word ∧
    memRead 0x34#6 s = s.sw.retryDelay ∧ memRead 0x38#6 s = 0#32 ∧ memRead 0x3C#6 s = 0#32) ∧
  (∀ (s : State) (off : Offset) (ts : List Turn) (hs : List HostOp),
    s.params.Legal → s.rstN = true → off.toNat % 4 = 0 → s.turns = .host :: ts → s.host = .rd off 4 :: hs →
    step s = .next { s with lastRead := memRead off s, turns := ts, host := hs } ∧
    ∀ off', memRead off' { s with lastRead := memRead off s, turns := ts, host := hs } = memRead off' s)

/-- The fields of every register word, every reserved field 0 (R27, R28, R29, R31 to R34, R36), and the number of every
result code (R88). -/
def Obligations.RegisterWordsHoldTheirFields : Prop :=
  ∀ s : State,
    ((memRead 0x08#6 s).getLsbD 0 = s.adc.status.busy ∧ (memRead 0x08#6 s).getLsbD 1 = s.adc.status.done ∧
      (memRead 0x08#6 s).getLsbD 2 = s.adc.status.overrun ∧ (memRead 0x08#6 s).getLsbD 3 = false ∧
      (memRead 0x08#6 s).extractLsb' 4 4 = s.adc.status.err.code ∧
      (memRead 0x08#6 s).extractLsb' 8 4 = s.adc.status.op ∧ (memRead 0x08#6 s).extractLsb' 12 20 = 0#20) ∧
    ((memRead 0x0C#6 s).extractLsb' 0 8 = s.adc.result.sample ∧
      (memRead 0x0C#6 s).extractLsb' 8 2 = s.adc.result.channel ∧
      (memRead 0x0C#6 s).extractLsb' 10 21 = 0#21 ∧ (memRead 0x0C#6 s).getLsbD 31 = s.adc.result.valid) ∧
    (∀ c : BitVec 2, (memRead 0x10#6 s).extractLsb' (8 * c.toNat) 8 = s.adc.all.get c) ∧
    ((memRead 0x24#6 s).getLsbD 0 = s.sw.status.busy ∧ (memRead 0x24#6 s).getLsbD 1 = s.sw.status.done ∧
      (memRead 0x24#6 s).getLsbD 2 = s.sw.status.overrun ∧ (memRead 0x24#6 s).getLsbD 3 = false ∧
      (memRead 0x24#6 s).extractLsb' 4 4 = s.sw.status.err.code ∧
      (memRead 0x24#6 s).extractLsb' 8 4 = s.sw.status.op ∧
      (memRead 0x24#6 s).extractLsb' 12 4 = s.sw.status.lastErr.code ∧
      (memRead 0x24#6 s).extractLsb' 16 8 = s.sw.status.attempts ∧ (memRead 0x24#6 s).extractLsb' 24 8 = 0#8) ∧
    ((memRead 0x28#6 s).extractLsb' 0 8 = s.sw.frame0.humInt ∧
      (memRead 0x28#6 s).extractLsb' 8 8 = s.sw.frame0.humFrac ∧
      (memRead 0x28#6 s).extractLsb' 16 8 = s.sw.frame0.tempInt ∧
      (memRead 0x28#6 s).extractLsb' 24 8 = s.sw.frame0.tempFrac) ∧
    ((memRead 0x2C#6 s).extractLsb' 0 8 = s.sw.frame1.checksum ∧
      (memRead 0x2C#6 s).getLsbD 8 = s.sw.frame1.csumOk ∧ (memRead 0x2C#6 s).extractLsb' 9 22 = 0#22 ∧
      (memRead 0x2C#6 s).getLsbD 31 = s.sw.frame1.full) ∧
    ((memRead 0x30#6 s).extractLsb' 0 8 = s.sw.reading.humidity ∧
      (memRead 0x30#6 s).extractLsb' 8 8 = s.sw.reading.temperature ∧
      (memRead 0x30#6 s).extractLsb' 16 15 = 0#15 ∧ (memRead 0x30#6 s).getLsbD 31 = s.sw.reading.valid) ∧
    (ErrCode.code .ok = 0#4 ∧ ErrCode.code .invalidChannel = 1#4 ∧ ErrCode.code .noResponse = 2#4 ∧
      ErrCode.code .truncated = 3#4 ∧ ErrCode.code .checksumError = 4#4 ∧ ErrCode.code .outOfRange = 5#4 ∧
      ErrCode.code .sensorUnavailable = 6#4 ∧ ErrCode.code .illegalCommand = 7#4)

/-- R25: the fields of CAPS, its value with the default parameters, and that writes to it are ignored. -/
def Obligations.CapsReadsTheParameters : Prop :=
  (∀ s : State, s.params.Legal →
    ((memRead 0x00#6 s).extractLsb' 0 3).toNat = s.params.adcChannels ∧
    (memRead 0x00#6 s).getLsbD 3 = false ∧
    ((memRead 0x00#6 s).extractLsb' 4 2).toNat =
      (match s.params.tempEncoding with | .twosComplement => 0 | .unsigned => 1 | .signMagnitude => 2) ∧
    (memRead 0x00#6 s).extractLsb' 6 2 = 0#2 ∧
    ((memRead 0x00#6 s).extractLsb' 8 8).toNat = s.params.tAdcPhase ∧
    ((memRead 0x00#6 s).extractLsb' 16 8).toNat = s.params.tBitThreshold ∧
    ((memRead 0x00#6 s).extractLsb' 24 8).toNat = s.params.tWaitTimeout) ∧
  capsWord Params.default = 0x64320204#32 ∧
  (∀ (s : State) (v : Word) (ts : List Turn) (hs : List HostOp),
    s.params.Legal → s.turns = .host :: ts → s.host = .wr 0x00#6 4 v :: hs →
    step s = .next { s with turns := ts, host := hs })

/-- A write to a read-only register or a reserved offset has no effect (R36, R37, R62). -/
def Obligations.WriteElsewhereIsIgnored : Prop :=
  ∀ (s : State) (off : Offset) (v : Word) (ts : List Turn) (hs : List HostOp),
    s.params.Legal → off.toNat % 4 = 0 →
    off ≠ 0x04#6 → off ≠ 0x08#6 → off ≠ 0x20#6 → off ≠ 0x24#6 → off ≠ 0x34#6 →
    s.turns = .host :: ts → s.host = .wr off 4 v :: hs →
    step s = .next { s with turns := ts, host := hs }

/-- R64: the write sets the register whatever the engine does, nothing else of the block changes (the latched delay of
a running command included), and it reads back as written. -/
def Obligations.RetryDelayWriteSetsOnlyTheRegister : Prop :=
  ∀ (s : State) (v : Word) (ts : List Turn) (hs : List HostOp),
    s.params.Legal → s.rstN = true → s.turns = .host :: ts → s.host = .wr 0x34#6 4 v :: hs →
    step s = .next { s with turns := ts, host := hs, sw := { s.sw with retryDelay := v } } ∧
    memRead 0x34#6 { s with turns := ts, host := hs, sw := { s.sw with retryDelay := v } } = v

/-- R65: only bit 2 of the written value counts, and only OVERRUN changes. -/
def Obligations.StatusWriteClearsOverrunOnly : Prop :=
  ∀ (s : State) (v : Word) (ts : List Turn) (hs : List HostOp),
    s.params.Legal → s.rstN = true → s.turns = .host :: ts →
    (s.host = .wr 0x08#6 4 v :: hs →
      step s = .next { s with
        turns := ts, host := hs
        adc := { s.adc with status := { s.adc.status with overrun := s.adc.status.overrun && !v.getLsbD 2 } } }) ∧
    (s.host = .wr 0x24#6 4 v :: hs →
      step s = .next { s with
        turns := ts, host := hs
        sw := { s.sw with status := { s.sw.status with overrun := s.sw.status.overrun && !v.getLsbD 2 } } })

/-- R66: a command write while BUSY sets OVERRUN and changes nothing else, whatever the word; while BUSY = 0 the word is
accepted, and runs as the command it decodes to. -/
def Obligations.CommandWriteWhileBusyIsRejected : Prop :=
  ∀ (s : State) (v : Word) (ts : List Turn) (hs : List HostOp),
    s.params.Legal → s.rstN = true → s.turns = .host :: ts →
    (s.host = .wr 0x04#6 4 v :: hs →
      (s.adc.status.busy = true → step s = .next { s with
        turns := ts, host := hs
        adc := { s.adc with status := { s.adc.status with overrun := true } } }) ∧
      (s.adc.status.busy = false → ∃ t, step s = .next t ∧ t.adc.status.op = v.extractLsb' 0 4 ∧
        t.adc.status.overrun = s.adc.status.overrun ∧
        ∀ i, decode .adcCmd v = .ok i → exec i { s with turns := ts, host := hs } = .next t)) ∧
    (s.host = .wr 0x20#6 4 v :: hs →
      (s.sw.status.busy = true → step s = .next { s with
        turns := ts, host := hs
        sw := { s.sw with status := { s.sw.status with overrun := true } } }) ∧
      (s.sw.status.busy = false → ∃ t, step s = .next t ∧ t.sw.status.op = v.extractLsb' 0 4 ∧
        t.sw.status.overrun = s.sw.status.overrun ∧
        ∀ i, decode .swCmd v = .ok i → exec i { s with turns := ts, host := hs } = .next t))

/-- R203: an ILLEGAL word at an idle engine completes in its acceptance; no pin changes, and no register but the status
and what the acceptance clears. -/
def Obligations.IllegalWordCompletesAtOnce : Prop :=
  ∀ (s : State) (v : Word) (ts : List Turn) (hs : List HostOp) (e : DecodeError),
    s.params.Legal → s.rstN = true → s.turns = .host :: ts →
    (s.host = .wr 0x04#6 4 v :: hs → s.adc.status.busy = false → decode .adcCmd v = .error e →
      step s = .next { s with
        turns := ts, host := hs
        adc := { s.adc with
          status := ⟨false, true, s.adc.status.overrun, .illegalCommand, v.extractLsb' 0 4⟩
          result := { s.adc.result with valid := false }
          phase := .idle, cnt := 0 } }) ∧
    (s.host = .wr 0x20#6 4 v :: hs → s.sw.status.busy = false → decode .swCmd v = .error e →
      step s = .next { s with
        turns := ts, host := hs
        sw := { s.sw with
          status := ⟨false, true, s.sw.status.overrun, .illegalCommand, v.extractLsb' 0 4, .ok, 0#8⟩
          reading := ⟨0#8, 0#8, false⟩
          phase := .idle, cnt := 0#32 } })

/-- A read of the status right after an accepted command write sees BUSY = 1 or DONE = 1 (R71). -/
def Obligations.StatusAfterCommandWriteIsBusyOrDone : Prop :=
  ∀ (s : State) (v : Word) (ts : List Turn) (hs : List HostOp),
    s.params.Legal → s.rstN = true → s.turns = .host :: ts →
    (s.host = .wr 0x04#6 4 v :: hs → s.adc.status.busy = false →
      ∃ t, step s = .next t ∧
        ((memRead 0x08#6 t).getLsbD 0 = true ∨ (memRead 0x08#6 t).getLsbD 1 = true)) ∧
    (s.host = .wr 0x20#6 4 v :: hs → s.sw.status.busy = false →
      ∃ t, step s = .next t ∧
        ((memRead 0x24#6 t).getLsbD 0 = true ∨ (memRead 0x24#6 t).getLsbD 1 = true))

/-- A poll repeats its read until the masked value matches, and a delay keeps the host from acting until its ticks have
passed, and no longer (R92, R93). The form by turns is the model's choice (log 3): one read of a poll to a host turn, a
delay that each tick makes one less, and a host turn that takes off a delay which has run out. -/
def Obligations.PollAndDelayHoldTheHost : Prop :=
  (∀ (s : State) (off : Offset) (mask val : Word) (ts : List Turn) (hs : List HostOp),
    s.params.Legal → s.rstN = true → off.toNat % 4 = 0 → s.turns = .host :: ts →
    s.host = .poll off mask val :: hs →
    (memRead off s &&& mask = val → step s = .next { s with lastRead := memRead off s, turns := ts, host := hs }) ∧
    (memRead off s &&& mask ≠ val → step s = .next { s with lastRead := memRead off s, turns := ts })) ∧
  (∀ (s : State) (n k : Nat) (din line : Nat → Level) (rest : List Turn) (hs : List HostOp),
    s.params.Legal → s.rstN = true → k < n → s.host = .delay n :: hs →
    s.turns = tickTurns din line 0 k ++ .host :: rest →
    Host.Core.run Sys2Proof.core (k + 1) s = .next { s with
      adc := adcAfter s.params din k s.adc
      sw := swAfter s.params line k s.sw
      host := .delay (n - k) :: hs
      turns := rest }) ∧
  (∀ (s : State) (n k : Nat) (din line : Nat → Level) (rest : List Turn) (hs : List HostOp),
    s.params.Legal → s.rstN = true → n ≤ k → s.host = .delay n :: hs →
    s.turns = tickTurns din line 0 k ++ .host :: rest →
    Host.Core.run Sys2Proof.core (k + 1) s = .next { s with
      adc := adcAfter s.params din k s.adc
      sw := swAfter s.params line k s.sw
      host := hs
      turns := rest })

/-! ## Reset -/

/-- R48: every piece of state after `rst_n` is asserted and released. -/
def Obligations.ResetGivesEveryResetValue : Prop :=
  ∀ (s : State) (ts : List Turn), s.params.Legal → s.turns = .reset false :: .reset true :: ts →
    ∃ t, Host.Core.run Sys2Proof.core 2 s = .next t ∧
      memRead 0x00#6 t = capsWord s.params ∧ memRead 0x08#6 t = 0#32 ∧ memRead 0x0C#6 t = 0#32 ∧
      memRead 0x10#6 t = 0#32 ∧ memRead 0x24#6 t = 0#32 ∧ memRead 0x28#6 t = 0#32 ∧ memRead 0x2C#6 t = 0#32 ∧
      memRead 0x30#6 t = 0#32 ∧ memRead 0x34#6 t = s.params.retryDelayReset ∧
      (t.adc.status.busy = false ∧ t.adc.status.done = false ∧ t.adc.status.overrun = false ∧
        t.adc.status.err = .ok ∧ t.adc.status.op = 0#4) ∧
      (t.sw.status.busy = false ∧ t.sw.status.done = false ∧ t.sw.status.overrun = false ∧
        t.sw.status.err = .ok ∧ t.sw.status.op = 0#4 ∧ t.sw.status.lastErr = .ok ∧ t.sw.status.attempts = 0#8) ∧
      (t.adc.phase = .idle ∧ t.adc.cnt = 0 ∧ t.adc.cycle = 0 ∧ t.adc.cmd = 0#5 ∧ t.adc.shift = 0#8 ∧
        t.adc.ch = 0#2 ∧ t.adc.op = .readChannel) ∧
      (t.sw.phase = .idle ∧ t.sw.cnt = 0#32 ∧ t.sw.bit = 0 ∧ t.sw.frame = 0#40 ∧ t.sw.rtRetry = false ∧
        t.sw.rtMax = 0#8 ∧ t.sw.rtDelay = 0#32) ∧
      (t.adc.csN = true ∧ t.adc.clk = false ∧ t.adc.dout = false ∧ t.adc.doutOe = false) ∧
      (t.sw.oe = false ∧ t.sw.out = true ∧ t.sw.puEn = true)

/-- R230: assertion puts the block at its reset values at once; while `rst_n` is low every turn leaves them there, the
host's writes are ignored and its reads return 0; and they are there at the release. -/
def Obligations.ResetHoldsTheBlock : Prop :=
  (∀ (s t : State) (ts : List Turn), s.turns = .reset false :: ts → step s = .next t →
    t.rstN = false ∧ t.adc = AdcEngine.atReset ∧ t.sw = SwEngine.atReset s.params ∧
    t.adc.status.done = false ∧ t.adc.status.err = .ok ∧ t.sw.status.done = false ∧ t.sw.status.err = .ok ∧
    t.adc.csN = true ∧ t.adc.clk = false ∧ t.adc.doutOe = false ∧ t.sw.oe = false) ∧
  (∀ s t : State, s.rstN = false → s.adc = AdcEngine.atReset → s.sw = SwEngine.atReset s.params →
    step s = .next t → t.adc = AdcEngine.atReset ∧ t.sw = SwEngine.atReset s.params) ∧
  (∀ (s : State) (off : Offset) (v : Word) (ts : List Turn) (hs : List HostOp),
    s.params.Legal → s.rstN = false → off.toNat % 4 = 0 → s.turns = .host :: ts →
    (s.host = .rd off 4 :: hs → step s = .next { s with lastRead := 0#32, turns := ts, host := hs }) ∧
    (s.host = .wr off 4 v :: hs → step s = .next { s with turns := ts, host := hs }))

/-! ## The commands -/

/-- READ_CHANNEL of a valid channel at an idle engine starts its transaction (R110, R111, R114, R84). -/
def Obligations.ReadChannelStartsTransaction : Prop :=
  ∀ (ch : Nat) (s : State), s.adc.status.busy = false → ch < s.params.adcChannels →
    exec (.adcRead ch) s = .next { s with
      adc := { s.adc with
        status := ⟨true, false, s.adc.status.overrun, .ok, 0x1#4⟩
        result := { s.adc.result with valid := false }
        op := .readChannel
        ch := BitVec.ofNat 2 ch
        cmd := 0b11#2 ++ BitVec.ofNat 2 ch ++ BitVec.ofBool s.params.adcCmdPad
        shift := 0#8, cycle := 0
        csN := false, clk := false, doutOe := true, dout := true
        phase := .setup, cnt := 0 } }

/-- R204: an invalid channel completes in the acceptance and touches no pin. -/
def Obligations.InvalidChannelCompletesAtOnce : Prop :=
  ∀ (ch : Nat) (s : State), s.adc.status.busy = false → s.params.adcChannels ≤ ch →
    exec (.adcRead ch) s = .next { s with
      adc := { s.adc with
        status := ⟨false, true, s.adc.status.overrun, .invalidChannel, 0x1#4⟩
        result := { s.adc.result with valid := false }
        phase := .idle, cnt := 0 } }

/-- READ_ALL at an idle engine clears ADC_ALL and starts with channel 0 (R110, R112, R114). -/
def Obligations.ReadAllStartsAtChannelZero : Prop :=
  ∀ s : State, s.adc.status.busy = false →
    exec .adcReadall s = .next { s with
      adc := { s.adc with
        status := ⟨true, false, s.adc.status.overrun, .ok, 0x2#4⟩
        result := { s.adc.result with valid := false }
        all := ⟨0#8, 0#8, 0#8, 0#8⟩
        op := .readAll
        ch := 0#2
        cmd := 0b1100#4 ++ BitVec.ofBool s.params.adcCmdPad
        shift := 0#8, cycle := 0
        csN := false, clk := false, doutOe := true, dout := true
        phase := .setup, cnt := 0 } }

/-- READ at an idle engine starts its one attempt (R140, R141, R142). -/
def Obligations.ReadStartsOneAttempt : Prop :=
  ∀ s : State, s.sw.status.busy = false →
    exec .swRead s = .next { s with
      sw := { s.sw with
        status := ⟨true, false, s.sw.status.overrun, .ok, 0x1#4, .ok, 1#8⟩
        frame0 := ⟨0#8, 0#8, 0#8, 0#8⟩, frame1 := ⟨0#8, false, false⟩, reading := ⟨0#8, 0#8, false⟩
        rtRetry := false, rtMax := 1#8, rtDelay := 0#32
        frame := 0#40, bit := 0
        oe := true, out := false
        phase := .startLow, cnt := 0#32 } }

/-- READ_RETRY with a budget of 1..255 at an idle engine latches the delay and starts its first attempt (R140, R142,
R181, R182). -/
def Obligations.ReadRetryStartsFirstAttempt : Prop :=
  ∀ (n : Nat) (s : State), s.sw.status.busy = false → 1 ≤ n → n ≤ 255 →
    exec (.swReadretry n) s = .next { s with
      sw := { s.sw with
        status := ⟨true, false, s.sw.status.overrun, .ok, 0x2#4, .ok, 1#8⟩
        frame0 := ⟨0#8, 0#8, 0#8, 0#8⟩, frame1 := ⟨0#8, false, false⟩, reading := ⟨0#8, 0#8, false⟩
        rtRetry := true, rtMax := BitVec.ofNat 8 n, rtDelay := s.sw.retryDelay
        frame := 0#40, bit := 0
        oe := true, out := false
        phase := .startLow, cnt := 0#32 } }

/-- R183: a zero budget completes in the acceptance; no attempt, no pin change, the frame registers as they were. -/
def Obligations.ZeroBudgetCompletesAtOnce : Prop :=
  ∀ s : State, s.sw.status.busy = false →
    exec (.swReadretry 0) s = .next { s with
      sw := { s.sw with
        status := ⟨false, true, s.sw.status.overrun, .sensorUnavailable, 0x2#4, .ok, 0#8⟩
        reading := ⟨0#8, 0#8, false⟩
        rtRetry := true, rtMax := 0#8, rtDelay := s.sw.retryDelay
        phase := .idle, cnt := 0#32 } }

/-- What the two ADC commands leave unchanged, for every operand, busy or not (R49, R66, R110 to R112): the single-wire
half, the outside's data, every register but ADC_STATUS, ADC_RESULT's VALID and, for READ_ALL, ADC_ALL; a rejected
command all but OVERRUN; a command that completes at once every pin. -/
def Obligations.AdcCommandsFrame : Prop :=
  ∀ (i : Instr) (s t : State), (i = .adcReadall ∨ ∃ ch, i = .adcRead ch) → exec i s = .next t →
    t.sw = s.sw ∧ t.params = s.params ∧ t.rstN = s.rstN ∧ t.lastRead = s.lastRead ∧ t.host = s.host ∧
    t.turns = s.turns ∧ t.draws = s.draws ∧
    (s.adc.status.busy = true →
      t.adc = { s.adc with status := { s.adc.status with overrun := true } }) ∧
    (s.adc.status.busy = false → t.adc.status.overrun = s.adc.status.overrun) ∧
    t.adc.result.sample = s.adc.result.sample ∧ t.adc.result.channel = s.adc.result.channel ∧
    (i ≠ .adcReadall → t.adc.all = s.adc.all) ∧
    (t.adc.status.busy = false → t.adc.pins = s.adc.pins ∧ t.adc.shift = s.adc.shift ∧ t.adc.cycle = s.adc.cycle ∧
      t.adc.cmd = s.adc.cmd ∧ t.adc.ch = s.adc.ch ∧ t.adc.op = s.adc.op) ∧
    (∀ off : Offset, off ≠ 0x08#6 → off ≠ 0x0C#6 → (i = .adcReadall → off ≠ 0x10#6) →
      memRead off t = memRead off s)

/-- What the two single-wire commands leave unchanged, for every operand, busy or not (R49, R66, R140 to R142, R182). -/
def Obligations.SingleWireCommandsFrame : Prop :=
  ∀ (i : Instr) (s t : State), (i = .swRead ∨ ∃ n, i = .swReadretry n) → exec i s = .next t →
    t.adc = s.adc ∧ t.params = s.params ∧ t.rstN = s.rstN ∧ t.lastRead = s.lastRead ∧ t.host = s.host ∧
    t.turns = s.turns ∧ t.draws = s.draws ∧
    (s.sw.status.busy = true → t.sw = { s.sw with status := { s.sw.status with overrun := true } }) ∧
    (s.sw.status.busy = false → t.sw.status.overrun = s.sw.status.overrun) ∧
    t.sw.retryDelay = s.sw.retryDelay ∧ t.sw.puEn = s.sw.puEn ∧
    (t.sw.status.busy = false → t.sw.frame0 = s.sw.frame0 ∧ t.sw.frame1 = s.sw.frame1 ∧ t.sw.oe = s.sw.oe ∧
      t.sw.out = s.sw.out ∧ t.sw.bit = s.sw.bit ∧ t.sw.frame = s.sw.frame) ∧
    (∀ off : Offset, off ≠ 0x24#6 → off ≠ 0x28#6 → off ≠ 0x2C#6 → off ≠ 0x30#6 →
      memRead off t = memRead off s)

/-! ## The ADC engine -/

/-- A phase holds its outputs for exactly P_T_ADC_PHASE ticks and ends at the last of them (R113, R121). -/
def Obligations.AdcPhaseLastsItsTicks : Prop :=
  ∀ (p : Params) (din : Nat → Level) (a : AdcEngine), p.Legal → a.phase ≠ .idle → a.cnt = 0 →
    (∀ n, n < p.tAdcPhase → adcAfter p din n a = { a with cnt := n }) ∧
    adcAfter p din p.tAdcPhase a = adcPhaseEnd p (din p.tAdcPhase) a

/-- The pins of one transaction at every tick (R122; the command bits in wire order, R84). -/
def Obligations.AdcPinTimeline : Prop :=
  ∀ (p : Params) (c : BitVec 2) (a : AdcEngine) (din : Nat → Level) (T : Nat), p.Legal → T = p.tAdcPhase →
    (∀ n, n < T → (adcAfter p din n (startTransaction p c a)).pins = ⟨false, false, true, true⟩) ∧
    (∀ k n, k < 14 → T + 2 * k * T ≤ n → n < 2 * T + 2 * k * T →
      (adcAfter p din n (startTransaction p c a)).pins = ⟨false, false, commandLevel p c k, decide (k ≤ 4)⟩) ∧
    (∀ k n, k < 14 → 2 * T + 2 * k * T ≤ n → n < 3 * T + 2 * k * T →
      (adcAfter p din n (startTransaction p c a)).pins = ⟨false, true, commandLevel p c k, decide (k ≤ 4)⟩) ∧
    (∀ n, 29 * T ≤ n → n < 30 * T →
      (adcAfter p din n (startTransaction p c a)).pins = ⟨false, false, false, false⟩) ∧
    (∀ n, 30 * T ≤ n → n < 31 * T → (adcAfter p din n (startTransaction p c a)).pins = AdcPins.idle)

/-- R128: a valid READ_CHANNEL makes one chip-select window with 14 clock pulses, a READ_ALL one for each channel, at
the ticks R122 gives: `adc_cs_n` falls at the acceptance and at the start of each later transaction, and rises at its
tick 30T; after the last transaction no pin changes. An invalid channel and an ILLEGAL word change no pin at all. -/
def Obligations.AdcTransactionHasFourteenPulses : Prop :=
  ∀ (s : State) (din : Nat → Level), s.params.Legal → AdcInv s.params s.adc → s.adc.status.busy = false →
    (∀ (i : Instr) (N T : Nat), T = s.params.tAdcPhase →
      (i = .adcReadall ∧ N = s.params.adcChannels) ∨ (N = 1 ∧ ∃ ch, i = .adcRead ch ∧ ch < s.params.adcChannels) →
      ∃ t, exec i s = .next t ∧ (s.adc.csN = true ∧ t.adc.csN = false) ∧ (s.adc.clk = false ∧ t.adc.clk = false) ∧
        (∀ n, n < N * (31 * T) →
          (((adcAfter s.params din n t.adc).clk = false ∧ (adcAfter s.params din (n + 1) t.adc).clk = true) ↔
            ∃ c k, c < N ∧ k < 14 ∧ n + 1 = c * (31 * T) + 2 * T + 2 * k * T) ∧
          (((adcAfter s.params din n t.adc).csN = false ∧ (adcAfter s.params din (n + 1) t.adc).csN = true) ↔
            ∃ c, c < N ∧ n + 1 = c * (31 * T) + 30 * T) ∧
          (((adcAfter s.params din n t.adc).csN = true ∧ (adcAfter s.params din (n + 1) t.adc).csN = false) ↔
            ∃ c, 1 ≤ c ∧ c < N ∧ n + 1 = c * (31 * T))) ∧
        (∀ n, N * (31 * T) ≤ n → (adcAfter s.params din n t.adc).pins = AdcPins.idle)) ∧
    (∀ ch n, s.params.adcChannels ≤ ch →
      ∃ t, exec (.adcRead ch) s = .next t ∧ (adcAfter s.params din n t.adc).pins = s.adc.pins) ∧
    (∀ v e n, decode .adcCmd v = .error e →
      ∃ t, memWrite 0x04#6 v s = .next t ∧ (adcAfter s.params din n t.adc).pins = s.adc.pins)

/-- READ_CHANNEL from its acceptance to its completion: exactly 31T ticks, BUSY until then, the eight levels at the
sample ticks as SAMPLE, most significant first, and the pins idle (R111, R117, R119, R122, R125, R250). -/
def Obligations.ReadChannelDeliversTheSample : Prop :=
  ∀ (s : State) (ch : Nat) (din : Nat → Level),
    s.params.Legal → s.adc.status.busy = false → ch < s.params.adcChannels →
    ∃ t a, exec (.adcRead ch) s = .next t ∧ a = adcAfter s.params din (transactionTicks s.params) t.adc ∧
      (∀ n, n < transactionTicks s.params → (adcAfter s.params din n t.adc).status.busy = true) ∧
      a.status = ⟨false, true, s.adc.status.overrun, .ok, 0x1#4⟩ ∧
      a.result.valid = true ∧ a.result.channel = BitVec.ofNat 2 ch ∧
      (∀ k, 6 ≤ k → k ≤ 13 → a.result.sample.getLsbD (13 - k) = din (sampleTick s.params k)) ∧
      a.all = s.adc.all ∧ a.phase = .idle ∧ a.pins = AdcPins.idle

/-- A byte presented MSB first in the eight data cycles, one level for the whole of each cycle, is the SAMPLE, at either
sample edge and whatever the other levels (R94, R117, R119). -/
def Obligations.PresentedByteIsTheSample : Prop :=
  ∀ (s : State) (ch : Nat) (din : Nat → Level) (b : Byte),
    s.params.Legal → s.adc.status.busy = false → ch < s.params.adcChannels → PresentsByte s.params din b →
    ∃ t a, exec (.adcRead ch) s = .next t ∧ a = adcAfter s.params din (transactionTicks s.params) t.adc ∧
      a.result = ⟨b, BitVec.ofNat 2 ch, true⟩ ∧
      a.result.word = 0x80000000#32 ||| (BitVec.ofNat 32 ch <<< 8) ||| b.setWidth 32

/-- READ_ALL from its acceptance to its completion: exactly N × 31T ticks, BUSY until then, each channel's byte from its
own transaction, in ascending order (R112, R117, R118, R120, R124, R250). -/
def Obligations.ReadAllSamplesEveryChannel : Prop :=
  ∀ (s : State) (din : Nat → Level), s.params.Legal → s.adc.status.busy = false →
    ∃ t a, exec .adcReadall s = .next t ∧
      a = adcAfter s.params din (s.params.adcChannels * transactionTicks s.params) t.adc ∧
      (∀ n, n < s.params.adcChannels * transactionTicks s.params →
        (adcAfter s.params din n t.adc).status.busy = true) ∧
      a.status = ⟨false, true, s.adc.status.overrun, .ok, 0x2#4⟩ ∧
      (∀ c : BitVec 2, c.toNat < s.params.adcChannels → ∀ k, 6 ≤ k → k ≤ 13 →
        (a.all.get c).getLsbD (13 - k) = din (transactionTicks s.params * c.toNat + sampleTick s.params k)) ∧
      (∀ c : BitVec 2, s.params.adcChannels ≤ c.toNat → a.all.get c = 0#8) ∧
      a.result = { s.adc.result with valid := false } ∧ a.phase = .idle ∧ a.pins = AdcPins.idle

/-- Two READ_CHANNELs of a channel against the same levels at the sample ticks give the same SAMPLE, whatever the
engines held before and whatever the other levels (R127, C6; the null bit is never sampled, R117). -/
def Obligations.SampleDependsOnSampleTicksOnly : Prop :=
  ∀ (s s' t t' : State) (ch : Nat) (din din' : Nat → Level),
    s.params.Legal → s'.params = s.params → s.adc.status.busy = false → s'.adc.status.busy = false →
    ch < s.params.adcChannels → (∀ k, 6 ≤ k → k ≤ 13 → din (sampleTick s.params k) = din' (sampleTick s.params k)) →
    exec (.adcRead ch) s = .next t → exec (.adcRead ch) s' = .next t' →
    (adcAfter s.params din (transactionTicks s.params) t.adc).result =
      (adcAfter s.params din' (transactionTicks s.params) t'.adc).result

/-! ## The single-wire engine -/

/-- The start condition: the line low for P_T_START_LOW ticks, high for P_T_RELEASE, then released, whatever the line
reads meanwhile (R142, R143, R144, R162). -/
def Obligations.StartConditionTimeline : Prop :=
  ∀ (p : Params) (w : SwEngine) (line : Nat → Level), p.Legal →
    (∀ n, n < p.tStartLow → (swAfter p line n (startAttempt w)).oe = true ∧
      (swAfter p line n (startAttempt w)).out = false) ∧
    (∀ n, p.tStartLow ≤ n → n < p.tStartLow + p.tRelease → (swAfter p line n (startAttempt w)).oe = true ∧
      (swAfter p line n (startAttempt w)).out = true) ∧
    swAfter p line (p.tStartLow + p.tRelease) (startAttempt w) =
      { startAttempt w with phase := .ack0, cnt := 0#32, oe := false, out := true }

/-- A bounded wait: it examines the samples 1 to TO, succeeds at the first that equals its level, and ends the attempt at
TO if none does (R146; the phases of R147 and R148). -/
def Obligations.BoundedWaitEndsInTime : Prop :=
  ∀ (p : Params) (w : SwEngine) (line : Nat → Level) (phase next : SwPhase) (level : Level) (kind : ErrCode),
    p.Legal →
    (phase, level, next, kind) ∈
      [(SwPhase.ack0, false, SwPhase.ack1, ErrCode.noResponse), (.ack1, true, .ack2, .noResponse),
       (.ack2, false, .bitH, .noResponse), (.bitH, true, .bitL, .truncated)] →
    w.phase = phase → w.cnt = 0#32 →
    (∀ n, n < p.tWaitTimeout → (∀ i, 1 ≤ i → i ≤ n → line i ≠ level) →
      swAfter p line n w = { w with cnt := BitVec.ofNat 32 n }) ∧
    (∀ m, 1 ≤ m → m ≤ p.tWaitTimeout → (∀ i, 1 ≤ i → i < m → line i ≠ level) → line m = level →
      swAfter p line m w = { w with phase := next }) ∧
    ((∀ i, 1 ≤ i → i ≤ p.tWaitTimeout → line i ≠ level) →
      swAfter p line p.tWaitTimeout w = attemptEnd kind { w with cnt := BitVec.ofNat 32 p.tWaitTimeout })

/-- A data bit's high pulse of d ticks is measured as d and classified as 1 iff d is above the threshold, so that a pulse
of exactly the threshold is a 0; one that outlasts the bound is TRUNCATED (R148, R149, R150, R151). -/
def Obligations.HighPulseIsMeasuredAndClassified : Prop :=
  ∀ (p : Params) (w v : SwEngine) (line : Nat → Level) (d : Nat), p.Legal → w.phase = .bitL → w.cnt = 0#32 →
    1 ≤ d → d ≤ p.tWaitTimeout → (∀ i, 1 ≤ i → i < d → line i = true) →
    v = { w with frame := shiftIn40 w.frame (decide (d > p.tBitThreshold)), bit := w.bit + 1 } →
    (line d = false →
      swAfter p line d w = if w.bit = 39 then frameComplete p v else { v with phase := .bitH }) ∧
    (d = p.tWaitTimeout → line d = true →
      swAfter p line d w = attemptEnd .truncated { w with cnt := BitVec.ofNat 32 d })

/-- R150: after 40 bits, arrival bit i is at `st.sw_frame[39-i]`, and so in byte i div 8 at bit 7 - i mod 8 (R86). -/
def Obligations.FrameHoldsBitsInArrivalOrder : Prop :=
  ∀ (f : BitVec 40) (bits : List Level), bits.length = 40 →
    (∀ i, i < 40 → bits[i]? = some ((bits.foldl shiftIn40 f).getLsbD (39 - i))) ∧
    (∀ k j, k < 5 → j < 8 → bits[8 * k + j]? = some ((frameByte (bits.foldl shiftIn40 f) k).getLsbD (7 - j)))

/-- R154: the unsigned 8-bit sum of the four data bytes, carries out of bit 7 discarded. -/
def Obligations.ChecksumIsTheSumModulo256 : Prop :=
  ∀ b0 b1 b2 b3 : Byte,
    (checksum b0 b1 b2 b3).toNat = (b0.toNat + b1.toNat + b2.toNat + b3.toNat) % 256 ∧
    checksum b0 b1 b2 b3 = b0 + b1 + b2 + b3

/-- R90: the three readings of the temp_int byte. -/
def Obligations.TemperatureDecodesByEncoding : Prop :=
  ∀ b : Byte,
    (b.toNat < 128 → tempDecode .twosComplement b = b.toNat) ∧
    (128 ≤ b.toNat → tempDecode .twosComplement b = (b.toNat : Int) - 256) ∧
    tempDecode .unsigned b = b.toNat ∧
    (b.getLsbD 7 = false → tempDecode .signMagnitude b = b.toNat) ∧
    (b.getLsbD 7 = true → tempDecode .signMagnitude b = -((b.toNat : Int) - 128)) ∧
    temperatureByte (tempDecode .twosComplement b) = b

/-- The completion of a frame, under either command: the frame registers whatever the checksum; the checksum before the
range, whose bounds are all inclusive; a Reading only for a frame that passes both; and the end of the attempt with what
was found (R153, R155, R157, R159, R160). For a READ that end is the command's (R184). -/
def Obligations.FrameCompletionValidatesTheFrame : Prop :=
  ∀ (p : Params) (w : SwEngine) (b0 b1 b2 b3 b4 : Byte), w.frame = b0 ++ b1 ++ b2 ++ b3 ++ b4 →
    (checksum b0 b1 b2 b3 ≠ b4 →
      frameComplete p w = attemptEnd .checksumError { w with frame0 := ⟨b0, b1, b2, b3⟩, frame1 := ⟨b4, false, true⟩ }) ∧
    (checksum b0 b1 b2 b3 = b4 →
      ¬ ((b0.toNat : Int) ≤ p.humMax ∧ p.tempMin ≤ tempDecode p.tempEncoding b2 ∧
        tempDecode p.tempEncoding b2 ≤ p.tempMax) →
      frameComplete p w = attemptEnd .outOfRange { w with frame0 := ⟨b0, b1, b2, b3⟩, frame1 := ⟨b4, true, true⟩ }) ∧
    (checksum b0 b1 b2 b3 = b4 →
      (b0.toNat : Int) ≤ p.humMax → p.tempMin ≤ tempDecode p.tempEncoding b2 →
      tempDecode p.tempEncoding b2 ≤ p.tempMax →
      frameComplete p w = attemptEnd .ok { w with
        frame0 := ⟨b0, b1, b2, b3⟩, frame1 := ⟨b4, true, true⟩
        reading := ⟨b0, temperatureByte (tempDecode p.tempEncoding b2), true⟩ }) ∧
    (w.rtRetry = false → w.reading = ⟨0#8, 0#8, false⟩ →
      frameComplete p w = { w with
        frame0 := ⟨b0, b1, b2, b3⟩
        frame1 := ⟨b4, decide (checksum b0 b1 b2 b3 = b4), true⟩
        reading := frameReading p b0 b1 b2 b3 b4
        status := { w.status with
          busy := false, done := true
          err := frameKind p b0 b1 b2 b3 b4, lastErr := frameKind p b0 b1 b2 b3 b4 }
        phase := .idle, cnt := 0#32 })

/-- R184: what the end of an attempt decides. -/
def Obligations.AttemptEndDecides : Prop :=
  ∀ (kind : ErrCode) (w : SwEngine),
    (kind = .ok → attemptEnd kind w = { w with
      status := { w.status with lastErr := .ok, busy := false, done := true, err := .ok }
      phase := .idle, cnt := 0#32 }) ∧
    (kind ≠ .ok → w.rtRetry = false → attemptEnd kind w = { w with
      status := { w.status with lastErr := kind, busy := false, done := true, err := kind }
      phase := .idle, cnt := 0#32 }) ∧
    (kind ≠ .ok → w.rtRetry = true → w.rtMax.toNat ≤ w.status.attempts.toNat → attemptEnd kind w = { w with
      status := { w.status with lastErr := kind, busy := false, done := true, err := .sensorUnavailable }
      phase := .idle, cnt := 0#32 }) ∧
    (kind ≠ .ok → w.rtRetry = true → w.status.attempts.toNat < w.rtMax.toNat → w.rtDelay = 0#32 →
      attemptEnd kind w = startAttempt { w with status := { w.status with lastErr := kind } }) ∧
    (kind ≠ .ok → w.rtRetry = true → w.status.attempts.toNat < w.rtMax.toNat → w.rtDelay ≠ 0#32 →
      attemptEnd kind w = { w with
        status := { w.status with lastErr := kind }, phase := .delay, cnt := 0#32 })

/-- The delay between attempts lasts exactly the latched number of ticks, with the line as it was (R185). -/
def Obligations.RetryDelayLastsItsTicks : Prop :=
  ∀ (p : Params) (w : SwEngine) (line : Nat → Level), w.phase = .delay → w.cnt = 0#32 → w.rtDelay ≠ 0#32 →
    (∀ n, n < w.rtDelay.toNat → swAfter p line n w = { w with cnt := BitVec.ofNat 32 n }) ∧
    swAfter p line w.rtDelay.toNat w = startAttempt w

/-- The delay a READ_RETRY uses is the one latched at its acceptance, READ latches 0, and nothing but a reset changes the
latch while the command runs (R181, R248). -/
def Obligations.DelayIsLatchedAtAcceptance : Prop :=
  (∀ (n : Nat) (s t : State), s.sw.status.busy = false → exec (.swReadretry n) s = .next t →
    t.sw.rtDelay = s.sw.retryDelay) ∧
  (∀ s t : State, s.sw.status.busy = false → exec .swRead s = .next t → t.sw.rtDelay = 0#32) ∧
  (∀ s t : State, step s = .next t → s.sw.status.busy = true →
    t.sw.rtDelay = s.sw.rtDelay ∨ ∃ l, (nextTurn s).1 = .reset l)

/-- READ against an answered line, from its acceptance to its completion: the registers hold the bytes that the pulse
lengths carry, and the command ends at the falling edge that ends the last pulse (R141, R146 to R160, R163). -/
def Obligations.ReadDecodesTheAnsweredFrame : Prop :=
  ∀ (s : State) (line : Nat → Level) (latency ackLow ackHigh : Nat) (bits : List Pulse) (b0 b1 b2 b3 b4 : Byte)
    (n : Nat),
    s.params.Legal → s.sw.status.busy = false →
    1 ≤ latency → latency ≤ s.params.tWaitTimeout → 1 ≤ ackLow → ackLow ≤ s.params.tWaitTimeout →
    1 ≤ ackHigh → ackHigh ≤ s.params.tWaitTimeout →
    bits.length = 40 → (∀ b ∈ bits, b.Bounded s.params) →
    CarriesByte s.params bits 0 b0 → CarriesByte s.params bits 1 b1 → CarriesByte s.params bits 2 b2 →
    CarriesByte s.params bits 3 b3 → CarriesByte s.params bits 4 b4 →
    (∀ (i : Nat) (x : Level), (answer latency ackLow ackHigh bits)[i]? = some x →
      line (s.params.tStartLow + s.params.tRelease + 1 + i) = x) →
    n = s.params.tStartLow + s.params.tRelease + latency + ackLow + ackHigh +
      (bits.map (fun b => b.low + b.high)).sum →
    ∃ t w, exec .swRead s = .next t ∧ w = swAfter s.params line n t.sw ∧
      (∀ m, m < n → (swAfter s.params line m t.sw).status.busy = true) ∧
      w.status = ⟨false, true, s.sw.status.overrun, frameKind s.params b0 b1 b2 b3 b4, 0x1#4,
        frameKind s.params b0 b1 b2 b3 b4, 1#8⟩ ∧
      w.frame0 = ⟨b0, b1, b2, b3⟩ ∧ w.frame1 = ⟨b4, decide (checksum b0 b1 b2 b3 = b4), true⟩ ∧
      w.reading = frameReading s.params b0 b1 b2 b3 b4 ∧
      w.oe = false ∧ w.out = true

/-- READ ends within `Ts + Tr + 83 × TO` ticks whatever the line does (R163, R250). -/
def Obligations.ReadEndsInBoundedTime : Prop :=
  ∀ (s : State) (line : Nat → Level), s.params.Legal → s.sw.status.busy = false →
    ∃ t n, exec .swRead s = .next t ∧ n ≤ attemptBound s.params ∧
      (swAfter s.params line n t.sw).status.busy = false ∧
      (swAfter s.params line n t.sw).status.done = true ∧ (swAfter s.params line n t.sw).phase = .idle

/-- READ against a line that does not fall ends with NO_RESPONSE exactly P_T_WAIT_TIMEOUT ticks after the end of RELEASE
(R147, R163, R253). -/
def Obligations.SilentReadGivesNoResponse : Prop :=
  ∀ (s : State) (line : Nat → Level), s.params.Legal → s.sw.status.busy = false →
    (∀ i, s.params.tStartLow + s.params.tRelease < i → i ≤ silentAttempt s.params → line i = true) →
    ∃ t w, exec .swRead s = .next t ∧ w = swAfter s.params line (silentAttempt s.params) t.sw ∧
      (∀ m, m < silentAttempt s.params → (swAfter s.params line m t.sw).status.busy = true) ∧
      w.status = ⟨false, true, s.sw.status.overrun, .noResponse, 0x1#4, .noResponse, 1#8⟩ ∧
      w.reading = ⟨0#8, 0#8, false⟩ ∧ w.frame1.full = false ∧ w.oe = false ∧ w.out = true

/-! ## The retry state machine -/

/-- READ_RETRY with a budget n of 1..255 ends within `n × (Ts + Tr + 83 × TO) + (n - 1) × D` ticks whatever the line does,
with OK and a Reading or with SENSOR_UNAVAILABLE after exactly n attempts (R182, R188, R189, R190, R250). -/
def Obligations.ReadRetryEndsInBoundedTime : Prop :=
  ∀ (s : State) (n : Nat) (line : Nat → Level), s.params.Legal → s.sw.status.busy = false → 1 ≤ n → n ≤ 255 →
    ∃ t m w, exec (.swReadretry n) s = .next t ∧
      m ≤ n * attemptBound s.params + (n - 1) * s.sw.retryDelay.toNat ∧ w = swAfter s.params line m t.sw ∧
      w.status.busy = false ∧ w.status.done = true ∧
      ((w.status.err = .ok ∧ w.reading.valid = true ∧ 1 ≤ w.status.attempts.toNat ∧ w.status.attempts.toNat ≤ n) ∨
       (w.status.err = .sensorUnavailable ∧ w.reading.valid = false ∧ w.status.attempts.toNat = n))

/-- R188: a READ_RETRY makes exactly as many attempts as it needs. Each attempt goes as the attempt of a READ against the
levels that come from its start on, and the next starts the latched delay after its end. If k is the number of the first
that succeeds, the command ends with it, OK, with ATTEMPTS k and the frame and the Reading of that attempt; if all n fail,
it ends with the n-th, SENSOR_UNAVAILABLE, with ATTEMPTS n and no Reading. -/
def Obligations.ReadRetryEndsAtItsFirstSuccess : Prop :=
  ∀ (s : State) (n k : Nat) (line : Nat → Level) (start dur : Nat → Nat) (kind : Nat → ErrCode),
    s.params.Legal → s.sw.status.busy = false → 1 ≤ k → k ≤ n → n ≤ 255 →
    start 1 = 0 → (∀ j, 1 ≤ j → j < k → start (j + 1) = start j + dur j + s.sw.retryDelay.toNat) →
    (∀ j, 1 ≤ j → j ≤ k → AttemptEnds s.params (fun i => line (start j + i)) (dur j) (kind j)) →
    (∀ j, 1 ≤ j → j < k → kind j ≠ .ok) → (kind k = .ok ∨ k = n) →
    ∃ t w v, exec (.swReadretry n) s = .next t ∧ w = swAfter s.params line (start k + dur k) t.sw ∧
      v = swAfter s.params (fun i => line (start k + i)) (dur k) (freshAttempt s.params) ∧
      (∀ m, m < start k + dur k → (swAfter s.params line m t.sw).status.busy = true) ∧
      (∀ j, 1 ≤ j → j ≤ k → (swAfter s.params line (start j) t.sw).status.attempts = BitVec.ofNat 8 j) ∧
      w.status = ⟨false, true, s.sw.status.overrun, if kind k = .ok then .ok else .sensorUnavailable, 0x2#4, kind k,
        BitVec.ofNat 8 k⟩ ∧
      w.frame0 = v.frame0 ∧ w.frame1 = v.frame1 ∧ w.reading = v.reading ∧
      (w.reading.valid = true ↔ kind k = .ok)

/-- READ_RETRY against an always silent line: n attempts, n - 1 delays, and SENSOR_UNAVAILABLE after exactly
`n × (Ts + Tr + TO) + (n - 1) × D` ticks (R184, R185, R189). -/
def Obligations.SilentReadRetryExhaustsItsBudget : Prop :=
  ∀ (s : State) (n m : Nat), s.params.Legal → s.sw.status.busy = false → 1 ≤ n → n ≤ 255 →
    m = n * silentAttempt s.params + (n - 1) * s.sw.retryDelay.toNat →
    ∃ t w, exec (.swReadretry n) s = .next t ∧ w = swAfter s.params (fun _ => true) m t.sw ∧
      (∀ k, k < m → (swAfter s.params (fun _ => true) k t.sw).status.busy = true) ∧
      w.status = ⟨false, true, s.sw.status.overrun, .sensorUnavailable, 0x2#4, .noResponse, BitVec.ofNat 8 n⟩ ∧
      w.reading = ⟨0#8, 0#8, false⟩ ∧ w.oe = false ∧ w.out = true

/-! ## The whole machine -/

/-- The invariant holds right after reset. -/
def Obligations.ResetMeetsTheInvariant : Prop := Inv State.reset

/-- Every step keeps the invariant: idle pin levels, BUSY exactly while a phase runs, counters below their bounds,
VALID only with a validated result, attempts within the budget, the reset values while `rst_n` is low (R27 to R34, R40,
R41, R123, R161, R190, R191, R230, R242). -/
def Obligations.StepKeepsTheInvariant : Prop :=
  ∀ s t : State, Inv s → step s = .next t → Inv t

/-- R160: no step of any state leaves a nonzero SW_READING but the one it found, or the one of a frame that passes
checksum and range, and that one with its command completed OK. -/
def Obligations.NoCorruptedReadingSurfaces : Prop :=
  ∀ s t : State, step s = .next t → t.sw.reading ≠ ⟨0#8, 0#8, false⟩ →
    t.sw.reading = s.sw.reading ∨
    (checksum t.sw.frame0.humInt t.sw.frame0.humFrac t.sw.frame0.tempInt t.sw.frame0.tempFrac
        = t.sw.frame1.checksum ∧
      (0 ≤ (t.sw.frame0.humInt.toNat : Int) ∧ (t.sw.frame0.humInt.toNat : Int) ≤ s.params.humMax ∧
        s.params.tempMin ≤ tempDecode s.params.tempEncoding t.sw.frame0.tempInt ∧
        tempDecode s.params.tempEncoding t.sw.frame0.tempInt ≤ s.params.tempMax) ∧
      t.sw.reading.humidity = t.sw.frame0.humInt ∧
      (t.sw.reading.temperature.toNat : Int) = tempDecode s.params.tempEncoding t.sw.frame0.tempInt % 256 ∧
      t.sw.reading.valid = true ∧ t.sw.status.done = true ∧ t.sw.status.err = .ok)

/-- R207: OVERRUN is set only by a command write to a busy engine, and cleared only by a write of 1 to its bit or by
reset. -/
def Obligations.OverrunChangesByItsRulesOnly : Prop :=
  ∀ s t : State, step s = .next t →
    (s.adc.status.overrun = false → t.adc.status.overrun = true →
      (nextTurn s).1 = .host ∧ s.adc.status.busy = true ∧ ∃ v rest, s.host = .wr 0x04#6 4 v :: rest) ∧
    (s.adc.status.overrun = true → t.adc.status.overrun = false →
      (∃ l, (nextTurn s).1 = .reset l) ∨
      ((nextTurn s).1 = .host ∧ ∃ v rest, s.host = .wr 0x08#6 4 v :: rest ∧ v.getLsbD 2 = true)) ∧
    (s.sw.status.overrun = false → t.sw.status.overrun = true →
      (nextTurn s).1 = .host ∧ s.sw.status.busy = true ∧ ∃ v rest, s.host = .wr 0x20#6 4 v :: rest) ∧
    (s.sw.status.overrun = true → t.sw.status.overrun = false →
      (∃ l, (nextTurn s).1 = .reset l) ∨
      ((nextTurn s).1 = .host ∧ ∃ v rest, s.host = .wr 0x24#6 4 v :: rest ∧ v.getLsbD 2 = true))

/-- BUSY falls only by a completion, at a tick, or by reset: a host access never ends a running command (R66, R205,
R219). -/
def Obligations.BusyFallsOnlyByCompletion : Prop :=
  ∀ s t : State, step s = .next t →
    (s.adc.status.busy = true → t.adc.status.busy = false →
      (∃ l, (nextTurn s).1 = .reset l) ∨
      ((∃ a b, (nextTurn s).1 = .tick a b) ∧ t.adc.status.done = true ∧ t.adc.phase = .idle ∧ t.adc.cnt = 0)) ∧
    (s.sw.status.busy = true → t.sw.status.busy = false →
      (∃ l, (nextTurn s).1 = .reset l) ∨
      ((∃ a b, (nextTurn s).1 = .tick a b) ∧ t.sw.status.done = true ∧ t.sw.phase = .idle ∧ t.sw.cnt = 0#32))

/-- R214: through any number of host turns without a tick a busy engine stays as it is: BUSY, its phase, its counters and
its pins; only OVERRUN and SW_RETRY_DELAY may be written. -/
def Obligations.WithoutTicksABusyEngineStays : Prop :=
  ∀ (s t : State) (k : Nat) (rest : List Turn), s.turns = List.replicate k .host ++ rest →
    Host.Core.run Sys2Proof.core k s = .next t →
    (s.adc.status.busy = true →
      t.adc = { s.adc with status := { s.adc.status with overrun := t.adc.status.overrun } }) ∧
    (s.sw.status.busy = true →
      t.sw = { s.sw with
        status := { s.sw.status with overrun := t.sw.status.overrun }
        retryDelay := t.sw.retryDelay })

/-- The ADC engine's half of the engines' independence: through any run, it is the same whatever the single-wire engine
holds, whatever `sw_in` does, and whatever the host writes to the single-wire half of the window or reads (R43, R121,
R210, R215). The host's two lists may hold any poll of the ADC half. -/
def Obligations.AdcRunIgnoresTheSingleWireSide : Prop :=
  ∀ (s s' t t' : State) (k : Nat),
    s'.params = s.params → s'.adc = s.adc → s'.rstN = s.rstN →
    k ≤ s.turns.length →
    List.Forall₂ (fun a b => Turn.adcAgree a b = true) s.turns s'.turns →
    List.Forall₂ (fun a b => HostOp.adcAgree a b = true) s.host s'.host →
    Host.Core.run Sys2Proof.core k s = .next t → Host.Core.run Sys2Proof.core k s' = .next t' →
    t'.adc = t.adc

/-- The single-wire engine's half: through any run, it is the same whatever the ADC engine holds, whatever `adc_din` does,
and whatever the host writes to the ADC half of the window or reads (R43, R152, R210, R215). The host's two lists may
hold any poll of the single-wire half or of CAPS. -/
def Obligations.SingleWireRunIgnoresTheAdcSide : Prop :=
  ∀ (s s' t t' : State) (k : Nat),
    s'.params = s.params → s'.sw = s.sw → s'.rstN = s.rstN →
    k ≤ s.turns.length →
    List.Forall₂ (fun a b => Turn.swAgree a b = true) s.turns s'.turns →
    List.Forall₂ (fun a b => HostOp.swAgree a b = true) s.host s'.host →
    Host.Core.run Sys2Proof.core k s = .next t → Host.Core.run Sys2Proof.core k s' = .next t' →
    t'.sw = t.sw
end

