-- ==== Sys2Proof/Laws/Decode.lean ====
section
/-! SUPPORT. Small facts about the decoder: when each register's word is accepted, and that byte lanes are lossless. -/

namespace Sys2Proof

/-- The lanes of a word put together give the word back (20_memory.md R63). -/
@[simp] theorem wordOfLanes_lanes (v : Word) :
    wordOfLanes (v.extractLsb' 0 8) (v.extractLsb' 8 8) (v.extractLsb' 16 8) (v.extractLsb' 24 8) = v := by
  unfold wordOfLanes
  ext i hi
  simp only [BitVec.getElem_append, BitVec.getElem_extractLsb']
  split
  · simp [BitVec.getLsbD_eq_getElem hi]
  · split
    · rw [show 8 + (i - 8) = i by omega]; simp [BitVec.getLsbD_eq_getElem hi]
    · split
      · rw [show 16 + (i - 8 - 8) = i by omega]; simp [BitVec.getLsbD_eq_getElem hi]
      · rw [show 24 + (i - 8 - 8 - 8) = i by omega]; simp [BitVec.getLsbD_eq_getElem hi]

/-- Decoding the lanes of a word is decoding the word. -/
@[simp] theorem decodeBytes_lanes (r : CmdReg) (v : Word) : decodeBytes r (lanes v) = decode r v := by
  simp [decodeBytes, lanes]

/-- A channel field is 0..15 (30_encoding.md R89). -/
theorem chField_le (v : Word) : chField v ≤ 15 := by
  have := (v.extractLsb' 4 4).isLt
  unfold chField; omega

/-- A budget field is 0..255 (R89). -/
theorem nField_le (v : Word) : nField v ≤ 255 := by
  have := (v.extractLsb' 8 8).isLt
  unfold nField; omega

/-- What ADC_CMD's decoder accepts (R80). -/
theorem decode_adcCmd_ok {v : Word} {i : Instr} (h : decode .adcCmd v = .ok i) :
    (opField v = 0x1#4 ∧ v.extractLsb' 8 24 = 0#24 ∧ i = .adcRead (chField v)) ∨
    (v = 0x00000002#32 ∧ i = .adcReadall) := by
  simp only [decode, decodeAdc] at h
  split at h
  · split at h <;> simp_all
  · split at h
    · split at h <;> simp_all
    · simp at h

/-- What SW_CMD's decoder accepts (R81). -/
theorem decode_swCmd_ok {v : Word} {i : Instr} (h : decode .swCmd v = .ok i) :
    (v = 0x00000001#32 ∧ i = .swRead) ∨
    (opField v = 0x2#4 ∧ v.extractLsb' 4 4 = 0#4 ∧ v.extractLsb' 16 16 = 0#16 ∧ i = .swReadretry (nField v)) := by
  simp only [decode, decodeSw] at h
  split at h
  · split at h <;> simp_all
  · split at h
    · split at h <;> simp_all
    · simp at h

end Sys2Proof
end

