-- ==== Sys2Proof/Laws/State.lean ====
section
/-! SUPPORT. What each shared operation does to each field of the state, one lemma per field, so that no proof unfolds
a record update. -/

namespace Sys2Proof.Machine

/-! ## Completion -/

@[simp] theorem completeAdc_status (kind : ErrCode) (a : AdcEngine) :
    (completeAdc kind a).status = { a.status with busy := false, done := true, err := kind } := rfl

@[simp] theorem completeAdc_result (kind : ErrCode) (a : AdcEngine) :
    (completeAdc kind a).result = a.result := rfl

@[simp] theorem completeAdc_all (kind : ErrCode) (a : AdcEngine) :
    (completeAdc kind a).all = a.all := rfl

@[simp] theorem completeAdc_phase (kind : ErrCode) (a : AdcEngine) :
    (completeAdc kind a).phase = .idle := rfl

@[simp] theorem completeAdc_cnt (kind : ErrCode) (a : AdcEngine) :
    (completeAdc kind a).cnt = 0 := rfl

@[simp] theorem completeAdc_cycle (kind : ErrCode) (a : AdcEngine) :
    (completeAdc kind a).cycle = a.cycle := rfl

@[simp] theorem completeAdc_cmd (kind : ErrCode) (a : AdcEngine) :
    (completeAdc kind a).cmd = a.cmd := rfl

@[simp] theorem completeAdc_shift (kind : ErrCode) (a : AdcEngine) :
    (completeAdc kind a).shift = a.shift := rfl

@[simp] theorem completeAdc_ch (kind : ErrCode) (a : AdcEngine) :
    (completeAdc kind a).ch = a.ch := rfl

@[simp] theorem completeAdc_op (kind : ErrCode) (a : AdcEngine) :
    (completeAdc kind a).op = a.op := rfl

@[simp] theorem completeAdc_csN (kind : ErrCode) (a : AdcEngine) :
    (completeAdc kind a).csN = a.csN := rfl

@[simp] theorem completeAdc_clk (kind : ErrCode) (a : AdcEngine) :
    (completeAdc kind a).clk = a.clk := rfl

@[simp] theorem completeAdc_dout (kind : ErrCode) (a : AdcEngine) :
    (completeAdc kind a).dout = a.dout := rfl

@[simp] theorem completeAdc_doutOe (kind : ErrCode) (a : AdcEngine) :
    (completeAdc kind a).doutOe = a.doutOe := rfl

@[simp] theorem completeSw_status (kind : ErrCode) (w : SwEngine) :
    (completeSw kind w).status = { w.status with busy := false, done := true, err := kind } := rfl

@[simp] theorem completeSw_frame0 (kind : ErrCode) (w : SwEngine) :
    (completeSw kind w).frame0 = w.frame0 := rfl

@[simp] theorem completeSw_frame1 (kind : ErrCode) (w : SwEngine) :
    (completeSw kind w).frame1 = w.frame1 := rfl

@[simp] theorem completeSw_reading (kind : ErrCode) (w : SwEngine) :
    (completeSw kind w).reading = w.reading := rfl

@[simp] theorem completeSw_retryDelay (kind : ErrCode) (w : SwEngine) :
    (completeSw kind w).retryDelay = w.retryDelay := rfl

@[simp] theorem completeSw_phase (kind : ErrCode) (w : SwEngine) :
    (completeSw kind w).phase = .idle := rfl

@[simp] theorem completeSw_cnt (kind : ErrCode) (w : SwEngine) :
    (completeSw kind w).cnt = 0#32 := rfl

@[simp] theorem completeSw_bit (kind : ErrCode) (w : SwEngine) :
    (completeSw kind w).bit = w.bit := rfl

@[simp] theorem completeSw_frame (kind : ErrCode) (w : SwEngine) :
    (completeSw kind w).frame = w.frame := rfl

@[simp] theorem completeSw_rtRetry (kind : ErrCode) (w : SwEngine) :
    (completeSw kind w).rtRetry = w.rtRetry := rfl

@[simp] theorem completeSw_rtMax (kind : ErrCode) (w : SwEngine) :
    (completeSw kind w).rtMax = w.rtMax := rfl

@[simp] theorem completeSw_rtDelay (kind : ErrCode) (w : SwEngine) :
    (completeSw kind w).rtDelay = w.rtDelay := rfl

@[simp] theorem completeSw_oe (kind : ErrCode) (w : SwEngine) :
    (completeSw kind w).oe = w.oe := rfl

@[simp] theorem completeSw_out (kind : ErrCode) (w : SwEngine) :
    (completeSw kind w).out = w.out := rfl

@[simp] theorem completeSw_puEn (kind : ErrCode) (w : SwEngine) :
    (completeSw kind w).puEn = w.puEn := rfl

/-! ## Acceptance -/

@[simp] theorem adcAccept_status (op : BitVec 4) (a : AdcEngine) :
    (adcAccept op a).status = { a.status with op := op, done := false, err := .ok } := rfl

@[simp] theorem adcAccept_result (op : BitVec 4) (a : AdcEngine) :
    (adcAccept op a).result = { a.result with valid := false } := rfl

@[simp] theorem adcAccept_all (op : BitVec 4) (a : AdcEngine) :
    (adcAccept op a).all = a.all := rfl

@[simp] theorem adcAccept_phase (op : BitVec 4) (a : AdcEngine) :
    (adcAccept op a).phase = a.phase := rfl

@[simp] theorem adcAccept_cnt (op : BitVec 4) (a : AdcEngine) :
    (adcAccept op a).cnt = a.cnt := rfl

@[simp] theorem adcAccept_cycle (op : BitVec 4) (a : AdcEngine) :
    (adcAccept op a).cycle = a.cycle := rfl

@[simp] theorem adcAccept_cmd (op : BitVec 4) (a : AdcEngine) :
    (adcAccept op a).cmd = a.cmd := rfl

@[simp] theorem adcAccept_shift (op : BitVec 4) (a : AdcEngine) :
    (adcAccept op a).shift = a.shift := rfl

@[simp] theorem adcAccept_ch (op : BitVec 4) (a : AdcEngine) :
    (adcAccept op a).ch = a.ch := rfl

@[simp] theorem adcAccept_op (op : BitVec 4) (a : AdcEngine) :
    (adcAccept op a).op = a.op := rfl

@[simp] theorem adcAccept_csN (op : BitVec 4) (a : AdcEngine) :
    (adcAccept op a).csN = a.csN := rfl

@[simp] theorem adcAccept_clk (op : BitVec 4) (a : AdcEngine) :
    (adcAccept op a).clk = a.clk := rfl

@[simp] theorem adcAccept_dout (op : BitVec 4) (a : AdcEngine) :
    (adcAccept op a).dout = a.dout := rfl

@[simp] theorem adcAccept_doutOe (op : BitVec 4) (a : AdcEngine) :
    (adcAccept op a).doutOe = a.doutOe := rfl

@[simp] theorem swAccept_status (op : BitVec 4) (w : SwEngine) :
    (swAccept op w).status = { w.status with op := op, done := false, err := .ok, lastErr := .ok, attempts := 0#8 } := rfl

@[simp] theorem swAccept_frame0 (op : BitVec 4) (w : SwEngine) :
    (swAccept op w).frame0 = w.frame0 := rfl

@[simp] theorem swAccept_frame1 (op : BitVec 4) (w : SwEngine) :
    (swAccept op w).frame1 = w.frame1 := rfl

@[simp] theorem swAccept_reading (op : BitVec 4) (w : SwEngine) :
    (swAccept op w).reading = .zero := rfl

@[simp] theorem swAccept_retryDelay (op : BitVec 4) (w : SwEngine) :
    (swAccept op w).retryDelay = w.retryDelay := rfl

@[simp] theorem swAccept_phase (op : BitVec 4) (w : SwEngine) :
    (swAccept op w).phase = w.phase := rfl

@[simp] theorem swAccept_cnt (op : BitVec 4) (w : SwEngine) :
    (swAccept op w).cnt = w.cnt := rfl

@[simp] theorem swAccept_bit (op : BitVec 4) (w : SwEngine) :
    (swAccept op w).bit = w.bit := rfl

@[simp] theorem swAccept_frame (op : BitVec 4) (w : SwEngine) :
    (swAccept op w).frame = w.frame := rfl

@[simp] theorem swAccept_rtRetry (op : BitVec 4) (w : SwEngine) :
    (swAccept op w).rtRetry = w.rtRetry := rfl

@[simp] theorem swAccept_rtMax (op : BitVec 4) (w : SwEngine) :
    (swAccept op w).rtMax = w.rtMax := rfl

@[simp] theorem swAccept_rtDelay (op : BitVec 4) (w : SwEngine) :
    (swAccept op w).rtDelay = w.rtDelay := rfl

@[simp] theorem swAccept_oe (op : BitVec 4) (w : SwEngine) :
    (swAccept op w).oe = w.oe := rfl

@[simp] theorem swAccept_out (op : BitVec 4) (w : SwEngine) :
    (swAccept op w).out = w.out := rfl

@[simp] theorem swAccept_puEn (op : BitVec 4) (w : SwEngine) :
    (swAccept op w).puEn = w.puEn := rfl

/-! ## The ADC transaction -/

@[simp] theorem startTransaction_status (p : Params) (c : BitVec 2) (a : AdcEngine) :
    (startTransaction p c a).status = a.status := rfl

@[simp] theorem startTransaction_result (p : Params) (c : BitVec 2) (a : AdcEngine) :
    (startTransaction p c a).result = a.result := rfl

@[simp] theorem startTransaction_all (p : Params) (c : BitVec 2) (a : AdcEngine) :
    (startTransaction p c a).all = a.all := rfl

@[simp] theorem startTransaction_phase (p : Params) (c : BitVec 2) (a : AdcEngine) :
    (startTransaction p c a).phase = .setup := rfl

@[simp] theorem startTransaction_cnt (p : Params) (c : BitVec 2) (a : AdcEngine) :
    (startTransaction p c a).cnt = 0 := rfl

@[simp] theorem startTransaction_cycle (p : Params) (c : BitVec 2) (a : AdcEngine) :
    (startTransaction p c a).cycle = 0 := rfl

@[simp] theorem startTransaction_cmd (p : Params) (c : BitVec 2) (a : AdcEngine) :
    (startTransaction p c a).cmd = adcCommandBits p c := rfl

@[simp] theorem startTransaction_shift (p : Params) (c : BitVec 2) (a : AdcEngine) :
    (startTransaction p c a).shift = 0#8 := rfl

@[simp] theorem startTransaction_ch (p : Params) (c : BitVec 2) (a : AdcEngine) :
    (startTransaction p c a).ch = c := rfl

@[simp] theorem startTransaction_op (p : Params) (c : BitVec 2) (a : AdcEngine) :
    (startTransaction p c a).op = a.op := rfl

@[simp] theorem startTransaction_csN (p : Params) (c : BitVec 2) (a : AdcEngine) :
    (startTransaction p c a).csN = false := rfl

@[simp] theorem startTransaction_clk (p : Params) (c : BitVec 2) (a : AdcEngine) :
    (startTransaction p c a).clk = false := rfl

@[simp] theorem startTransaction_dout (p : Params) (c : BitVec 2) (a : AdcEngine) :
    (startTransaction p c a).dout = (adcCommandBits p c).getLsbD 4 := rfl

@[simp] theorem startTransaction_doutOe (p : Params) (c : BitVec 2) (a : AdcEngine) :
    (startTransaction p c a).doutOe = true := rfl

@[simp] theorem enterLow_status (k : Nat) (a : AdcEngine) :
    (enterLow k a).status = a.status := rfl

@[simp] theorem enterLow_result (k : Nat) (a : AdcEngine) :
    (enterLow k a).result = a.result := rfl

@[simp] theorem enterLow_all (k : Nat) (a : AdcEngine) :
    (enterLow k a).all = a.all := rfl

@[simp] theorem enterLow_phase (k : Nat) (a : AdcEngine) :
    (enterLow k a).phase = .low := rfl

@[simp] theorem enterLow_cnt (k : Nat) (a : AdcEngine) :
    (enterLow k a).cnt = a.cnt := rfl

@[simp] theorem enterLow_cycle (k : Nat) (a : AdcEngine) :
    (enterLow k a).cycle = k := rfl

@[simp] theorem enterLow_cmd (k : Nat) (a : AdcEngine) :
    (enterLow k a).cmd = a.cmd := rfl

@[simp] theorem enterLow_shift (k : Nat) (a : AdcEngine) :
    (enterLow k a).shift = a.shift := rfl

@[simp] theorem enterLow_ch (k : Nat) (a : AdcEngine) :
    (enterLow k a).ch = a.ch := rfl

@[simp] theorem enterLow_op (k : Nat) (a : AdcEngine) :
    (enterLow k a).op = a.op := rfl

@[simp] theorem enterLow_csN (k : Nat) (a : AdcEngine) :
    (enterLow k a).csN = a.csN := rfl

@[simp] theorem enterLow_clk (k : Nat) (a : AdcEngine) :
    (enterLow k a).clk = false := rfl

@[simp] theorem enterLow_dout (k : Nat) (a : AdcEngine) :
    (enterLow k a).dout = if k ≤ 4 then a.cmd.getLsbD (4 - k) else if k = 5 then false else a.dout := rfl

@[simp] theorem enterLow_doutOe (k : Nat) (a : AdcEngine) :
    (enterLow k a).doutOe = if k ≤ 4 then true else if k = 5 then false else a.doutOe := rfl

/-! ## The single-wire attempt -/

@[simp] theorem startAttempt_status (w : SwEngine) :
    (startAttempt w).status = { w.status with attempts := w.status.attempts + 1#8 } := rfl

@[simp] theorem startAttempt_frame0 (w : SwEngine) :
    (startAttempt w).frame0 = .zero := rfl

@[simp] theorem startAttempt_frame1 (w : SwEngine) :
    (startAttempt w).frame1 = .zero := rfl

@[simp] theorem startAttempt_reading (w : SwEngine) :
    (startAttempt w).reading = w.reading := rfl

@[simp] theorem startAttempt_retryDelay (w : SwEngine) :
    (startAttempt w).retryDelay = w.retryDelay := rfl

@[simp] theorem startAttempt_phase (w : SwEngine) :
    (startAttempt w).phase = .startLow := rfl

@[simp] theorem startAttempt_cnt (w : SwEngine) :
    (startAttempt w).cnt = 0#32 := rfl

@[simp] theorem startAttempt_bit (w : SwEngine) :
    (startAttempt w).bit = 0 := rfl

@[simp] theorem startAttempt_frame (w : SwEngine) :
    (startAttempt w).frame = 0#40 := rfl

@[simp] theorem startAttempt_rtRetry (w : SwEngine) :
    (startAttempt w).rtRetry = w.rtRetry := rfl

@[simp] theorem startAttempt_rtMax (w : SwEngine) :
    (startAttempt w).rtMax = w.rtMax := rfl

@[simp] theorem startAttempt_rtDelay (w : SwEngine) :
    (startAttempt w).rtDelay = w.rtDelay := rfl

@[simp] theorem startAttempt_oe (w : SwEngine) :
    (startAttempt w).oe = true := rfl

@[simp] theorem startAttempt_out (w : SwEngine) :
    (startAttempt w).out = false := rfl

@[simp] theorem startAttempt_puEn (w : SwEngine) :
    (startAttempt w).puEn = w.puEn := rfl

/-! ## The turns -/

@[simp] theorem resetBlock_adc (s : State) :
    (resetBlock s).adc = AdcEngine.atReset := rfl

@[simp] theorem resetBlock_sw (s : State) :
    (resetBlock s).sw = SwEngine.atReset s.params := rfl

@[simp] theorem resetBlock_params (s : State) :
    (resetBlock s).params = s.params := rfl

@[simp] theorem resetBlock_rstN (s : State) :
    (resetBlock s).rstN = s.rstN := rfl

@[simp] theorem resetBlock_lastRead (s : State) :
    (resetBlock s).lastRead = s.lastRead := rfl

@[simp] theorem resetBlock_host (s : State) :
    (resetBlock s).host = s.host := rfl

@[simp] theorem resetBlock_turns (s : State) :
    (resetBlock s).turns = s.turns := rfl

@[simp] theorem resetBlock_draws (s : State) :
    (resetBlock s).draws = s.draws := rfl

@[simp] theorem tickTurn_params (a b : Level) (s : State) : (tickTurn a b s).params = s.params := by
  unfold tickTurn; split <;> rfl

@[simp] theorem tickTurn_rstN (a b : Level) (s : State) : (tickTurn a b s).rstN = s.rstN := by
  unfold tickTurn; split <;> rfl

@[simp] theorem tickTurn_lastRead (a b : Level) (s : State) : (tickTurn a b s).lastRead = s.lastRead := by
  unfold tickTurn; split <;> rfl

@[simp] theorem tickTurn_turns (a b : Level) (s : State) : (tickTurn a b s).turns = s.turns := by
  unfold tickTurn; split <;> rfl

@[simp] theorem tickTurn_draws (a b : Level) (s : State) : (tickTurn a b s).draws = s.draws := by
  unfold tickTurn; split <;> rfl

@[simp] theorem illegalWrite_params (r : CmdReg) (v : Word) (s : State) :
    (illegalWrite r v s).params = s.params := by
  cases r <;> rfl

@[simp] theorem illegalWrite_rstN (r : CmdReg) (v : Word) (s : State) :
    (illegalWrite r v s).rstN = s.rstN := by
  cases r <;> rfl

@[simp] theorem illegalWrite_lastRead (r : CmdReg) (v : Word) (s : State) :
    (illegalWrite r v s).lastRead = s.lastRead := by
  cases r <;> rfl

@[simp] theorem illegalWrite_host (r : CmdReg) (v : Word) (s : State) :
    (illegalWrite r v s).host = s.host := by
  cases r <;> rfl

@[simp] theorem illegalWrite_turns (r : CmdReg) (v : Word) (s : State) :
    (illegalWrite r v s).turns = s.turns := by
  cases r <;> rfl

@[simp] theorem illegalWrite_draws (r : CmdReg) (v : Word) (s : State) :
    (illegalWrite r v s).draws = s.draws := by
  cases r <;> rfl

@[simp] theorem resetTurn_params (l : Level) (s : State) : (resetTurn l s).params = s.params := by
  unfold resetTurn; split <;> rfl

@[simp] theorem resetTurn_lastRead (l : Level) (s : State) : (resetTurn l s).lastRead = s.lastRead := by
  unfold resetTurn; split <;> rfl

@[simp] theorem resetTurn_host (l : Level) (s : State) : (resetTurn l s).host = s.host := by
  unfold resetTurn; split <;> rfl

@[simp] theorem resetTurn_turns (l : Level) (s : State) : (resetTurn l s).turns = s.turns := by
  unfold resetTurn; split <;> rfl

@[simp] theorem resetTurn_draws (l : Level) (s : State) : (resetTurn l s).draws = s.draws := by
  unfold resetTurn; split <;> rfl

end Sys2Proof.Machine
end

