-- ==== Sys2Proof/Laws/Ops.lean ====
section
/-! SUPPORT. For each shared operation, what it can do, said once; and small facts about the value computations. -/

namespace Sys2Proof.Machine

/-! ## Parameters -/

/-- The ranges of R9, for arithmetic. -/
theorem legal_ranges {p : Params} (h : p.Legal) :
    (1 ≤ p.adcChannels ∧ p.adcChannels ≤ 4) ∧ (2 ≤ p.tAdcPhase ∧ p.tAdcPhase ≤ 255) ∧
    (18000 ≤ p.tStartLow ∧ p.tStartLow < 2 ^ 32) ∧ (20 ≤ p.tRelease ∧ p.tRelease ≤ 40) ∧
    (2 ≤ p.tWaitTimeout ∧ p.tWaitTimeout ≤ 255) ∧
    (1 ≤ p.tBitThreshold ∧ p.tBitThreshold ≤ 254 ∧ p.tBitThreshold < p.tWaitTimeout) :=
  of_decide_eq_true h

/-! ## Command writes (20_memory.md R66) -/

theorem adcCommandWrite_busy {a : AdcEngine} (h : a.status.busy = true) (op : BitVec 4)
    (run : AdcEngine → AdcEngine) :
    adcCommandWrite op run a = { a with status := { a.status with overrun := true } } := by
  simp [adcCommandWrite, h]

theorem adcCommandWrite_idle {a : AdcEngine} (h : a.status.busy = false) (op : BitVec 4)
    (run : AdcEngine → AdcEngine) : adcCommandWrite op run a = run (adcAccept op a) := by
  simp [adcCommandWrite, h]

theorem swCommandWrite_busy {w : SwEngine} (h : w.status.busy = true) (op : BitVec 4)
    (run : SwEngine → SwEngine) :
    swCommandWrite op run w = { w with status := { w.status with overrun := true } } := by
  simp [swCommandWrite, h]

theorem swCommandWrite_idle {w : SwEngine} (h : w.status.busy = false) (op : BitVec 4)
    (run : SwEngine → SwEngine) : swCommandWrite op run w = run (swAccept op w) := by
  simp [swCommandWrite, h]

/-! ## The commands once accepted -/

theorem runReadChannel_valid {p : Params} {ch : Nat} (h : ch < p.adcChannels) (a : AdcEngine) :
    runReadChannel p ch a = startTransaction p (BitVec.ofNat 2 ch)
      { a with op := .readChannel, status := { a.status with busy := true } } := by
  simp [runReadChannel, channelValid, h]

theorem runReadChannel_invalid {p : Params} {ch : Nat} (h : p.adcChannels ≤ ch) (a : AdcEngine) :
    runReadChannel p ch a = completeAdc .invalidChannel a := by
  simp [runReadChannel, channelValid, Nat.not_lt.mpr h]

theorem runReadRetry_zero (w : SwEngine) :
    runReadRetry 0 w =
      completeSw .sensorUnavailable { w with rtRetry := true, rtMax := 0#8, rtDelay := w.retryDelay } := rfl

theorem runReadRetry_pos {n : Nat} (h : n ≠ 0) (w : SwEngine) :
    runReadRetry n w = startAttempt
      { w with
        rtRetry := true, rtMax := BitVec.ofNat 8 n, rtDelay := w.retryDelay
        status := { w.status with busy := true } } := by
  simp [runReadRetry, h]

/-! ## The ADC engine -/

/-- A sample touches nothing but the shift register. -/
theorem sampleAt_cases (p : Params) (e : SampleEdge) (din : Level) (a : AdcEngine) :
    sampleAt p e din a = a ∨
    (p.adcSampleEdge = e ∧ 6 ≤ a.cycle ∧ sampleAt p e din a = { a with shift := shiftIn8 a.shift din }) := by
  unfold sampleAt
  split
  · exact .inr ⟨‹_ ∧ _›.1, ‹_ ∧ _›.2, rfl⟩
  · exact .inl rfl

theorem sampleAt_eq (p : Params) (e : SampleEdge) (din : Level) (a : AdcEngine) :
    sampleAt p e din a = { a with shift := (sampleAt p e din a).shift } := by
  obtain h | ⟨-, -, h⟩ := sampleAt_cases p e din a <;> rw [h]

@[simp] theorem adcTick_idle {p : Params} {din : Level} {a : AdcEngine} (h : a.phase = .idle) :
    adcTick p din a = a := by simp [adcTick, h]

theorem adcTick_inside {p : Params} {din : Level} {a : AdcEngine} (h : a.phase ≠ .idle)
    (hc : a.cnt + 1 < p.tAdcPhase) : adcTick p din a = { a with cnt := a.cnt + 1 } := by
  simp [adcTick, h, hc]

theorem adcTick_last {p : Params} {din : Level} {a : AdcEngine} (h : a.phase ≠ .idle)
    (hc : p.tAdcPhase ≤ a.cnt + 1) : adcTick p din a = adcPhaseEnd p din { a with cnt := 0 } := by
  simp [adcTick, h, Nat.not_lt.mpr hc]

/-- Everything a tick can do to the ADC engine (40_adc.md R121). -/
theorem adcTick_cases (p : Params) (din : Level) (a : AdcEngine) :
    (a.phase = .idle ∧ adcTick p din a = a) ∨
    (a.phase ≠ .idle ∧ a.cnt + 1 < p.tAdcPhase ∧ adcTick p din a = { a with cnt := a.cnt + 1 }) ∨
    (a.phase ≠ .idle ∧ p.tAdcPhase ≤ a.cnt + 1 ∧ adcTick p din a = adcPhaseEnd p din { a with cnt := 0 }) := by
  by_cases h : a.phase = .idle
  · exact .inl ⟨h, adcTick_idle h⟩
  · rcases Nat.lt_or_ge (a.cnt + 1) p.tAdcPhase with hc | hc
    · exact .inr (.inl ⟨h, hc, adcTick_inside h hc⟩)
    · exact .inr (.inr ⟨h, hc, adcTick_last h hc⟩)

/-- Reading back one field of ADC_ALL (R29, R124). -/
theorem AdcAll.get_set (a : AdcAll) (c d : BitVec 2) (v : Byte) :
    (a.set c v).get d = if d = c then v else a.get d := by
  have hc : c = 0#2 ∨ c = 1#2 ∨ c = 2#2 ∨ c = 3#2 := by revert c; decide
  have hd : d = 0#2 ∨ d = 1#2 ∨ d = 2#2 ∨ d = 3#2 := by revert d; decide
  rcases hc with rfl | rfl | rfl | rfl <;> rcases hd with rfl | rfl | rfl | rfl <;> rfl

/-! ## The single-wire engine -/

/-- Everything the end of an attempt can do (42_retry.md R184). -/
theorem attemptEnd_cases (kind : ErrCode) (w : SwEngine) :
    let v := { w with status := { w.status with lastErr := kind } }
    (kind = .ok ∧ attemptEnd kind w = completeSw .ok v) ∨
    (kind ≠ .ok ∧ w.rtRetry = false ∧ attemptEnd kind w = completeSw kind v) ∨
    (kind ≠ .ok ∧ w.rtRetry = true ∧ w.rtMax.toNat ≤ w.status.attempts.toNat ∧
      attemptEnd kind w = completeSw .sensorUnavailable v) ∨
    (kind ≠ .ok ∧ w.rtRetry = true ∧ w.status.attempts.toNat < w.rtMax.toNat ∧ w.rtDelay = 0#32 ∧
      attemptEnd kind w = startAttempt v) ∨
    (kind ≠ .ok ∧ w.rtRetry = true ∧ w.status.attempts.toNat < w.rtMax.toNat ∧ w.rtDelay ≠ 0#32 ∧
      attemptEnd kind w = { v with phase := .delay, cnt := 0#32 }) := by
  unfold attemptEnd
  by_cases h1 : kind = .ok
  · simp [h1]
  · by_cases h2 : w.rtRetry = false
    · simp [h1, h2]
    · rcases Nat.lt_or_ge w.status.attempts.toNat w.rtMax.toNat with h3 | h3
      · by_cases h4 : w.rtDelay = 0#32
        · simp [h1, h2, h3, h4]
        · simp [h1, h2, h3, h4]
      · simp [h1, h2, h3]

/-- Fields the end of an attempt never writes. -/
theorem attemptEnd_keeps (kind : ErrCode) (w : SwEngine) :
    (attemptEnd kind w).retryDelay = w.retryDelay ∧ (attemptEnd kind w).rtRetry = w.rtRetry ∧
    (attemptEnd kind w).rtMax = w.rtMax ∧ (attemptEnd kind w).rtDelay = w.rtDelay ∧
    (attemptEnd kind w).puEn = w.puEn ∧ (attemptEnd kind w).reading = w.reading ∧
    (attemptEnd kind w).status.overrun = w.status.overrun ∧ (attemptEnd kind w).status.op = w.status.op := by
  obtain ⟨-, h⟩ | ⟨-, -, h⟩ | ⟨-, -, -, h⟩ | ⟨-, -, -, -, h⟩ | ⟨-, -, -, -, h⟩ := attemptEnd_cases kind w <;>
    simp [h]

/-- Everything one tick of a bounded wait can do (41_single_wire.md R146). -/
theorem waitStep_cases (p : Params) (level : Level) (next : SwPhase) (fail : ErrCode) (swIn : Level)
    (w : SwEngine) :
    (swIn = level ∧ waitStep p level next fail swIn w = { w with cnt := 0#32, phase := next }) ∨
    (swIn ≠ level ∧ (w.cnt + 1#32).toNat = p.tWaitTimeout ∧
      waitStep p level next fail swIn w = attemptEnd fail { w with cnt := w.cnt + 1#32 }) ∨
    (swIn ≠ level ∧ (w.cnt + 1#32).toNat ≠ p.tWaitTimeout ∧
      waitStep p level next fail swIn w = { w with cnt := w.cnt + 1#32 }) := by
  unfold waitStep
  by_cases h : swIn = level
  · simp [h]
  · by_cases hc : (w.cnt + 1#32).toNat = p.tWaitTimeout
    · exact .inr (.inl ⟨h, hc, by simp only [h, hc, if_true, if_false]⟩)
    · exact .inr (.inr ⟨h, hc, by simp only [h, hc, if_false]⟩)

/-- Everything the completion of a frame can do (R153 to R160). -/
theorem frameComplete_cases (p : Params) (w : SwEngine) :
    let f0 : SwFrame0 := ⟨frameByte w.frame 0, frameByte w.frame 1, frameByte w.frame 2, frameByte w.frame 3⟩
    let sum := checksum f0.humInt f0.humFrac f0.tempInt f0.tempFrac
    let t := tempDecode p.tempEncoding f0.tempInt
    (sum ≠ frameByte w.frame 4 ∧ frameComplete p w =
      attemptEnd .checksumError { w with frame0 := f0, frame1 := ⟨frameByte w.frame 4, false, true⟩ }) ∨
    (sum = frameByte w.frame 4 ∧ inRange p f0.humInt t = false ∧ frameComplete p w =
      attemptEnd .outOfRange { w with frame0 := f0, frame1 := ⟨frameByte w.frame 4, true, true⟩ }) ∨
    (sum = frameByte w.frame 4 ∧ inRange p f0.humInt t = true ∧ frameComplete p w =
      attemptEnd .ok { w with
        frame0 := f0, frame1 := ⟨frameByte w.frame 4, true, true⟩
        reading := ⟨f0.humInt, temperatureByte t, true⟩ }) := by
  intro f0 sum t
  by_cases h : sum = frameByte w.frame 4
  · cases hr : inRange p f0.humInt t
    · exact .inr (.inl ⟨h, rfl, by simp [frameComplete, f0, sum, t] at h hr ⊢; simp [h, hr]⟩)
    · exact .inr (.inr ⟨h, rfl, by simp [frameComplete, f0, sum, t] at h hr ⊢; simp [h, hr]⟩)
  · exact .inl ⟨h, by simp [frameComplete, f0, sum] at h ⊢; simp [h]⟩

/-- The engine when a data bit's high pulse ends (R149, R150): the classified bit is in. -/
def bitReceived (p : Params) (w : SwEngine) : SwEngine :=
  { w with
    cnt := 0#32
    frame := shiftIn40 w.frame (classify p (w.cnt + 1#32).toNat)
    bit := w.bit + 1 }

/-- Everything one tick of BIT_L can do (R148 to R152). -/
theorem bitLowStep_cases (p : Params) (swIn : Level) (w : SwEngine) :
    (swIn = false ∧ w.bit + 1 = 40 ∧ bitLowStep p swIn w = frameComplete p (bitReceived p w)) ∨
    (swIn = false ∧ w.bit + 1 ≠ 40 ∧ bitLowStep p swIn w = { bitReceived p w with phase := .bitH }) ∨
    (swIn = true ∧ (w.cnt + 1#32).toNat = p.tWaitTimeout ∧
      bitLowStep p swIn w = attemptEnd .truncated { w with cnt := w.cnt + 1#32 }) ∨
    (swIn = true ∧ (w.cnt + 1#32).toNat ≠ p.tWaitTimeout ∧
      bitLowStep p swIn w = { w with cnt := w.cnt + 1#32 }) := by
  cases swIn
  · by_cases h : w.bit + 1 = 40
    · exact .inl ⟨rfl, h, by simp only [bitLowStep, bitReceived, h, if_true]⟩
    · exact .inr (.inl ⟨rfl, h, by simp only [bitLowStep, bitReceived, h, if_true, if_false]⟩)
  · by_cases hc : (w.cnt + 1#32).toNat = p.tWaitTimeout
    · exact .inr (.inr (.inl ⟨rfl, hc, by
        simp only [bitLowStep, hc, Bool.true_eq_false, if_true, if_false]⟩))
    · exact .inr (.inr (.inr ⟨rfl, hc, by simp only [bitLowStep, hc, Bool.true_eq_false, if_false]⟩))

/-- Everything one tick of DELAY can do (42_retry.md R185). -/
theorem retryDelayTick_cases (w : SwEngine) :
    (w.cnt + 1#32 = w.rtDelay ∧ retryDelayTick w = startAttempt { w with cnt := 0#32 }) ∨
    (w.cnt + 1#32 ≠ w.rtDelay ∧ retryDelayTick w = { w with cnt := w.cnt + 1#32 }) := by
  by_cases h : w.cnt + 1#32 = w.rtDelay
  · exact .inl ⟨h, by simp only [retryDelayTick, h, if_true]⟩
  · exact .inr ⟨h, by simp only [retryDelayTick, h, if_false]⟩

/-- Everything one tick of START_LOW can do (R143). -/
theorem startLowStep_cases (p : Params) (w : SwEngine) :
    ((w.cnt + 1#32).toNat = p.tStartLow ∧
      startLowStep p w = { w with cnt := 0#32, out := true, phase := .release }) ∨
    ((w.cnt + 1#32).toNat ≠ p.tStartLow ∧ startLowStep p w = { w with cnt := w.cnt + 1#32 }) := by
  by_cases h : (w.cnt + 1#32).toNat = p.tStartLow
  · exact .inl ⟨h, by simp only [startLowStep, h, if_true]⟩
  · exact .inr ⟨h, by simp only [startLowStep, h, if_false]⟩

/-- Everything one tick of RELEASE can do (R144). -/
theorem releaseStep_cases (p : Params) (w : SwEngine) :
    ((w.cnt + 1#32).toNat = p.tRelease ∧
      releaseStep p w = { w with cnt := 0#32, oe := false, phase := .ack0 }) ∨
    ((w.cnt + 1#32).toNat ≠ p.tRelease ∧ releaseStep p w = { w with cnt := w.cnt + 1#32 }) := by
  by_cases h : (w.cnt + 1#32).toNat = p.tRelease
  · exact .inl ⟨h, by simp only [releaseStep, h, if_true]⟩
  · exact .inr ⟨h, by simp only [releaseStep, h, if_false]⟩

/-- Counting on does not wrap below a 32-bit bound (00_scope.md R10). -/
theorem cnt_succ_toNat {c : BitVec 32} {b : Nat} (h : c.toNat < b) (hb : b < 2 ^ 32) :
    (c + 1#32).toNat = c.toNat + 1 := by
  rw [BitVec.toNat_add, BitVec.toNat_ofNat]; omega

end Sys2Proof.Machine
end

