-- ==== Sys2Proof/Laws/PerInstr.lean ====
section
/-! SUPPORT. Facts stated for each command by itself. Family TableRow: the encoded word is a word of the command's row of
spec/opcode_table.json. -/

namespace Sys2Proof.Laws.TableRow

/-- The `mask` of a command's row. -/
def rowMask : Instr → Word
  | .adcRead _ => 0xFFFFFF0F#32
  | .adcReadall => 0xFFFFFFFF#32
  | .swRead => 0xFFFFFFFF#32
  | .swReadretry _ => 0xFFFF00FF#32

/-- The `match` of a command's row. -/
def rowMatch : Instr → Word
  | .adcRead _ => 0x00000001#32
  | .adcReadall => 0x00000002#32
  | .swRead => 0x00000001#32
  | .swReadretry _ => 0x00000002#32

/-- The `register` of a command's row. -/
def rowRegister : Instr → CmdReg
  | .adcRead _ => .adcCmd
  | .adcReadall => .adcCmd
  | .swRead => .swCmd
  | .swReadretry _ => .swCmd

/-- A well-formed command is encoded for its row's register, in a word that has the row's fixed bits. -/
def Statement (i : Instr) : Prop :=
  i.wellFormed = true → (encode i).1 = rowRegister i ∧ (encode i).2 &&& rowMask i = rowMatch i

theorem adcRead (ch : Nat) : Statement (.adcRead ch) := by
  refine fun _ => ⟨rfl, ?_⟩
  simp only [encode, rowMask, rowMatch]
  generalize BitVec.ofNat 4 ch = c
  revert c; decide

theorem adcReadall : Statement .adcReadall := fun _ => ⟨rfl, rfl⟩

theorem swRead : Statement .swRead := fun _ => ⟨rfl, rfl⟩

theorem swReadretry (n : Nat) : Statement (.swReadretry n) := by
  refine fun _ => ⟨rfl, ?_⟩
  simp only [encode, rowMask, rowMatch]
  generalize BitVec.ofNat 8 n = c
  revert c; decide

end Sys2Proof.Laws.TableRow
end

