-- ==== Sys2Proof/Laws/Step.lean ====
section
/-! SUPPORT. What a step, a turn and a bus write can do, said once: later proofs split these cases and never unfold the
step function. -/

namespace Sys2Proof.Machine

/-! ## The step -/

theorem step_legal {s : State} (h : s.params.Legal) : step s = takeTurn (nextTurn s).1 (nextTurn s).2 :=
  if_pos h

theorem step_illegal {s : State} (h : ¬ s.params.Legal) : step s = .refused .illegalParameters :=
  if_neg h

/-- A run whose first step answers a next state goes on from it. -/
theorem run_succ {k : Nat} {s t : State} (h : step s = .next t) :
    Host.Core.run Sys2Proof.core (k + 1) s = Host.Core.run Sys2Proof.core k t := by
  have h' : Sys2Proof.core.step s = .next t := h
  simp only [Host.Core.run, h']

/-- A run that answers a next state has a first step that does. -/
theorem run_succ_next {k : Nat} {s t : State} (h : Host.Core.run Sys2Proof.core (k + 1) s = .next t) :
    ∃ u, step s = .next u ∧ Host.Core.run Sys2Proof.core k u = .next t := by
  cases hs : step s with
  | next u => exact ⟨u, rfl, by rw [← run_succ hs]; exact h⟩
  | fault r => exact nomatch r
  | refused r =>
    have h' : Sys2Proof.core.step s = .refused r := hs
    simp [Host.Core.run, h'] at h

@[simp] theorem run_zero (s : State) : Host.Core.run Sys2Proof.core 0 s = .next s := rfl

/-- A step that answers a next state is a turn of a machine with legal parameters. -/
theorem step_next {s t : State} (h : step s = .next t) :
    s.params.Legal ∧ takeTurn (nextTurn s).1 (nextTurn s).2 = .next t := by
  by_cases hl : s.params.Legal
  · exact ⟨hl, by rw [← step_legal hl]; exact h⟩
  · rw [step_illegal hl] at h; simp at h

@[simp] theorem nextTurn_cons {s : State} {t : Turn} {ts : List Turn} (h : s.turns = t :: ts) :
    nextTurn s = (t, { s with turns := ts }) := by simp [nextTurn, h]

@[simp] theorem nextTurn_nil {s : State} (h : s.turns = []) :
    nextTurn s = (Config.freeTurn s.draws, { s with draws := s.draws + 1 }) := by simp [nextTurn, h]

/-- Taking a turn off touches nothing of the block. -/
theorem nextTurn_keeps (s : State) :
    (nextTurn s).2.params = s.params ∧ (nextTurn s).2.adc = s.adc ∧ (nextTurn s).2.sw = s.sw ∧
    (nextTurn s).2.rstN = s.rstN ∧ (nextTurn s).2.lastRead = s.lastRead ∧ (nextTurn s).2.host = s.host := by
  unfold nextTurn
  split <;> simp

/-! ## Commands -/

/-- A command acts on its own engine only. -/
theorem exec_cases (i : Instr) (s : State) :
    (∃ op run, exec i s = .next { s with adc := adcCommandWrite op run s.adc } ∧
      ((∃ ch, i = .adcRead ch ∧ op = 0x1#4 ∧ run = runReadChannel s.params ch) ∨
       (i = .adcReadall ∧ op = 0x2#4 ∧ run = runReadAll s.params))) ∨
    (∃ op run, exec i s = .next { s with sw := swCommandWrite op run s.sw } ∧
      ((i = .swRead ∧ op = 0x1#4 ∧ run = runRead) ∨
       (∃ n, i = .swReadretry n ∧ op = 0x2#4 ∧ run = runReadRetry n))) := by
  cases i with
  | adcRead ch => exact .inl ⟨_, _, rfl, .inl ⟨ch, rfl, rfl, rfl⟩⟩
  | adcReadall => exact .inl ⟨_, _, rfl, .inr ⟨rfl, rfl, rfl⟩⟩
  | swRead => exact .inr ⟨_, _, rfl, .inl ⟨rfl, rfl, rfl⟩⟩
  | swReadretry n => exact .inr ⟨_, _, rfl, .inr ⟨n, rfl, rfl, rfl⟩⟩

/-! ## The bus -/

theorem commandWrite_ok {r : CmdReg} {v : Word} {i : Instr} (h : decode r v = .ok i) (s : State) :
    commandWrite r v s = exec i s := by simp [commandWrite, h]

theorem commandWrite_error {r : CmdReg} {v : Word} {e : DecodeError} (h : decode r v = .error e) (s : State) :
    commandWrite r v s = .next (illegalWrite r v s) := by simp [commandWrite, h]

@[simp] theorem regAt_regOffset (r : Reg) : regAt (regOffset r) = some r := by cases r <;> rfl

/-- A register stands at its own offset and nowhere else. -/
theorem regAt_some {off : Offset} {r : Reg} (h : regAt off = some r) : off = regOffset r := by
  revert h; revert off; cases r <;> decide

@[simp] theorem memWrite_cmdOffset (r : CmdReg) (v : Word) (s : State) :
    memWrite (cmdOffset r) v s = commandWrite r v s := by cases r <;> rfl

@[simp] theorem accessDefined_cmdOffset (r : CmdReg) : accessDefined (cmdOffset r) 4 = true := by
  cases r <;> rfl

/-- Everything a write to the window can do (20_memory.md R62). -/
theorem memWrite_cases (off : Offset) (v : Word) (s : State) :
    (∃ r i, off = cmdOffset r ∧ decode r v = .ok i ∧ memWrite off v s = exec i s) ∨
    (∃ r e, off = cmdOffset r ∧ decode r v = .error e ∧ memWrite off v s = .next (illegalWrite r v s)) ∨
    (off = regOffset .adcStatus ∧ memWrite off v s = .next { s with adc := w1cAdc v s.adc }) ∨
    (off = regOffset .swStatus ∧ memWrite off v s = .next { s with sw := w1cSw v s.sw }) ∨
    (off = regOffset .swRetryDelay ∧ memWrite off v s = .next { s with sw := { s.sw with retryDelay := v } }) ∨
    (off ≠ cmdOffset .adcCmd ∧ off ≠ cmdOffset .swCmd ∧ off ≠ regOffset .adcStatus ∧
      off ≠ regOffset .swStatus ∧ off ≠ regOffset .swRetryDelay ∧ memWrite off v s = .next s) := by
  cases hr : regAt off with
  | none =>
    refine .inr (.inr (.inr (.inr (.inr ⟨?_, ?_, ?_, ?_, ?_, by simp [memWrite, hr]⟩))))
    all_goals rintro rfl; simp [regAt, cmdOffset, regOffset] at hr
  | some r =>
    obtain rfl := regAt_some hr
    have cmd : ∀ c : CmdReg, regOffset r = cmdOffset c →
        (∃ c i, regOffset r = cmdOffset c ∧ decode c v = .ok i ∧ memWrite (regOffset r) v s = exec i s) ∨
        (∃ c e, regOffset r = cmdOffset c ∧ decode c v = .error e ∧
          memWrite (regOffset r) v s = .next (illegalWrite c v s)) := by
      intro c hc
      rw [hc]
      cases hd : decode c v with
      | ok i => exact .inl ⟨c, i, rfl, hd, by simp [commandWrite_ok hd]⟩
      | error e => exact .inr ⟨c, e, rfl, hd, by simp [commandWrite_error hd]⟩
    cases r with
    | adcCmd => exact (cmd .adcCmd rfl).elim .inl (fun h => .inr (.inl h))
    | swCmd => exact (cmd .swCmd rfl).elim .inl (fun h => .inr (.inl h))
    | adcStatus => exact .inr (.inr (.inl ⟨rfl, rfl⟩))
    | swStatus => exact .inr (.inr (.inr (.inl ⟨rfl, rfl⟩)))
    | swRetryDelay => exact .inr (.inr (.inr (.inr (.inl ⟨rfl, rfl⟩))))
    | caps => exact .inr (.inr (.inr (.inr (.inr (by refine ⟨?_, ?_, ?_, ?_, ?_, rfl⟩ <;> decide)))))
    | adcResult => exact .inr (.inr (.inr (.inr (.inr (by refine ⟨?_, ?_, ?_, ?_, ?_, rfl⟩ <;> decide)))))
    | adcAll => exact .inr (.inr (.inr (.inr (.inr (by refine ⟨?_, ?_, ?_, ?_, ?_, rfl⟩ <;> decide)))))
    | swFrame0 => exact .inr (.inr (.inr (.inr (.inr (by refine ⟨?_, ?_, ?_, ?_, ?_, rfl⟩ <;> decide)))))
    | swFrame1 => exact .inr (.inr (.inr (.inr (.inr (by refine ⟨?_, ?_, ?_, ?_, ?_, rfl⟩ <;> decide)))))
    | swReading => exact .inr (.inr (.inr (.inr (.inr (by refine ⟨?_, ?_, ?_, ?_, ?_, rfl⟩ <;> decide)))))

/-! ## The host's turn -/

/-- Everything the host's turn can do when it answers a next state. -/
theorem hostTurn_next {s t : State} (h : hostTurn s = .next t) :
    (∃ off v rest, s.host = .wr off 4 v :: rest ∧ accessDefined off 4 = true ∧ s.rstN = true ∧
      memWrite off v { s with host := rest } = .next t) ∨
    (∃ l ops, t = { s with lastRead := l, host := ops }) := by
  unfold hostTurn at h
  split at h
  · exact .inr ⟨s.lastRead, s.host, by simpa using h.symm⟩
  · split at h
    · exact .inr ⟨_, _, by simpa using h.symm⟩
    · simp at h
  · rename_i off bytes v rest hh
    split at h
    · rename_i ha
      have hb : bytes = 4 := by simp [accessDefined] at ha; exact ha.1
      subst hb
      unfold busWrite at h
      split at h
      · rename_i hr; exact .inl ⟨off, v, rest, hh, ha, hr, h⟩
      · exact .inr ⟨s.lastRead, rest, by simpa using h.symm⟩
    · simp at h
  · split at h
    · split at h
      · exact .inr ⟨_, _, by simpa using h.symm⟩
      · exact .inr ⟨_, s.host, by simpa using h.symm⟩
    · simp at h
  · exact .inr ⟨s.lastRead, _, by simpa using h.symm⟩
  · exact .inr ⟨s.lastRead, s.host, by simpa using h.symm⟩

end Sys2Proof.Machine
end

