-- ==== Sys2Proof/Laws/Timeline.lean ====
section
/-! SUPPORT. The single-wire engine over many ticks: runs put end to end, runs that see the same levels, and a phase that
only counts. -/

namespace Sys2Proof.Machine

/-- m + n ticks are m ticks and then n, on the levels that come after them. -/
theorem swAfter_add (p : Params) (line : Nat → Level) (m n : Nat) (w : SwEngine) :
    swAfter p line (m + n) w = swAfter p (fun i => line (m + i)) n (swAfter p line m w) := by
  induction n with
  | zero => rfl
  | succ n ih => rw [← Nat.add_assoc, swAfter, ih, swAfter, Nat.add_assoc]

/-- Only the levels at the ticks that pass matter. -/
theorem swAfter_congr (p : Params) {line line' : Nat → Level} {n : Nat}
    (h : ∀ i, 1 ≤ i → i ≤ n → line i = line' i) (w : SwEngine) : swAfter p line n w = swAfter p line' n w := by
  induction n with
  | zero => rfl
  | succ n ih =>
    rw [swAfter, swAfter, ih fun i h1 h2 => h i h1 (by omega), h (n + 1) (by omega) (by omega)]

/-- A phase that only counts, tick after tick, below a bound. -/
theorem swAfter_counts {p : Params} {w : SwEngine} {b : Nat} {line : Nat → Level} (h0 : w.cnt = 0#32)
    (step : ∀ n, n + 1 < b → swTick p (line (n + 1)) { w with cnt := BitVec.ofNat 32 n } =
      { w with cnt := BitVec.ofNat 32 (n + 1) }) :
    ∀ n, n < b → swAfter p line n w = { w with cnt := BitVec.ofNat 32 n } := by
  intro n hn
  induction n with
  | zero => simp [swAfter, ← h0]
  | succ n ih => rw [swAfter, ih (by omega), step n hn]

/-- Counting on below a 32-bit bound. -/
theorem counted_toNat {n b : Nat} (hn : n + 1 < b) (hb : b ≤ 2 ^ 32) :
    (BitVec.ofNat 32 n + 1#32).toNat = n + 1 ∧ BitVec.ofNat 32 n + 1#32 = BitVec.ofNat 32 (n + 1) := by
  have h : BitVec.ofNat 32 n + 1#32 = BitVec.ofNat 32 (n + 1) := by rw [BitVec.ofNat_add]
  exact ⟨by rw [h, BitVec.toNat_ofNat]; omega, h⟩

/-- START_LOW as one run (41_single_wire.md R143). -/
theorem swAfter_startLow {p : Params} {w : SwEngine} (line : Nat → Level) (hl : p.Legal)
    (hp : w.phase = .startLow) (h0 : w.cnt = 0#32) :
    (∀ n, n < p.tStartLow → swAfter p line n w = { w with cnt := BitVec.ofNat 32 n }) ∧
    swAfter p line p.tStartLow w = { w with out := true, phase := .release } := by
  obtain ⟨-, -, ⟨h1, h2⟩, -⟩ := legal_ranges hl
  have inside : ∀ n, n < p.tStartLow → swAfter p line n w = { w with cnt := BitVec.ofNat 32 n } := by
    refine swAfter_counts h0 fun n hn => ?_
    obtain ⟨e1, e2⟩ := counted_toNat hn h2.le
    simp only [swTick, hp, startLowStep, e1, hn.ne, if_false]
    simp only [e2]
  refine ⟨inside, ?_⟩
  obtain ⟨k, hk⟩ : ∃ k, p.tStartLow = k + 1 := ⟨p.tStartLow - 1, by omega⟩
  have hn : (BitVec.ofNat 32 k + 1#32).toNat = p.tStartLow := by
    rw [BitVec.toNat_add, BitVec.toNat_ofNat, BitVec.toNat_ofNat]; omega
  rw [hk, swAfter, inside k (by omega)]
  simp only [swTick, hp, startLowStep, hn, if_true]
  simp only [← h0]

/-- RELEASE as one run (R144). -/
theorem swAfter_release {p : Params} {w : SwEngine} (line : Nat → Level) (hl : p.Legal)
    (hp : w.phase = .release) (h0 : w.cnt = 0#32) :
    (∀ n, n < p.tRelease → swAfter p line n w = { w with cnt := BitVec.ofNat 32 n }) ∧
    swAfter p line p.tRelease w = { w with oe := false, phase := .ack0 } := by
  obtain ⟨-, -, -, ⟨h1, h2⟩, -⟩ := legal_ranges hl
  have inside : ∀ n, n < p.tRelease → swAfter p line n w = { w with cnt := BitVec.ofNat 32 n } := by
    refine swAfter_counts h0 fun n hn => ?_
    obtain ⟨e1, e2⟩ := counted_toNat hn (by omega)
    simp only [swTick, hp, releaseStep, e1, hn.ne, if_false]
    simp only [e2]
  refine ⟨inside, ?_⟩
  obtain ⟨k, hk⟩ : ∃ k, p.tRelease = k + 1 := ⟨p.tRelease - 1, by omega⟩
  have hn : (BitVec.ofNat 32 k + 1#32).toNat = p.tRelease := by
    rw [BitVec.toNat_add, BitVec.toNat_ofNat, BitVec.toNat_ofNat]; omega
  rw [hk, swAfter, inside k (by omega)]
  simp only [swTick, hp, releaseStep, hn, if_true]
  simp only [← h0]

end Sys2Proof.Machine
end

