-- ==== Sys2Proof/Tests/Slice0.lean ====
section
/-! SUPPORT. Tests of single steps on small states, expected values from 95_test_vectors.md or counted by hand from the
rule named; and, for each obligation with hypotheses, a witness: concrete values that meet all of them together. -/

namespace Sys2Proof.Tests

open Sys2Proof Sys2Proof.Machine

/-! ## Helpers -/

/-- The next state of an outcome, and the reset state where there is none. -/
def got : Result → State
  | .next t => t
  | .fault _ => State.reset
  | .refused _ => State.reset

/-- The state whose next turn is the host's, with that operation. -/
def hostDoes (op : HostOp) (s : State) : State := { s with turns := [.host], host := [op] }

/-- The state whose next turn is a tick with those levels. -/
def ticks (din line : Level) (s : State) : State := { s with turns := [.tick din line], host := [] }

/-- A READ_CHANNEL of channel 2 running. -/
def adcBusy : State := got (exec (.adcRead 2) State.reset)

/-- A READ running. -/
def swBusy : State := got (exec .swRead State.reset)

/-- A READ whose 39 bits are in and whose last pulse ends at the next tick that reads 0: the frame will be
32 00 19 00 4B (vector S1), all 0 in the last bit's place. -/
def lastBit : State :=
  { swBusy with sw := { swBusy.sw with
      phase := .bitL, oe := false, out := true, bit := 39, cnt := 69#32, frame := 0x190 <<< 28 ||| 0x00C8025#40 } }

/-- An ADC engine at the last tick of its transaction, its byte assembled. -/
def lastGap : State :=
  { adcBusy with adc := { adcBusy.adc with
      phase := .gap, cnt := 1, cycle := 13, shift := 0xA5#8, csN := true, dout := false, doutOe := false } }

/-! ## WellFormed refuses what has no encoding (R89, R92) -/

theorem test_wellFormed_refuses_channel_16 : (Instr.adcRead 16).wellFormed = false := by decide

theorem test_wellFormed_refuses_budget_256 : (Instr.swReadretry 256).wellFormed = false := by decide

/-! ## Decoding of words written out bit by bit from the formats of R80 and R81 -/

/-- reserved [31:8] = 0, CH [7:4] = 1101, OP [3:0] = 0001. -/
theorem test_decode_adcRead :
    decode .adcCmd 0b00000000000000000000000011010001#32 = .ok (.adcRead 13) := by decide

theorem test_decode_adcReadall :
    decode .adcCmd 0b00000000000000000000000000000010#32 = .ok .adcReadall := by decide

theorem test_decode_swRead :
    decode .swCmd 0b00000000000000000000000000000001#32 = .ok .swRead := by decide

/-- reserved [31:16] = 0, N [15:8] = 10100011, [7:4] = 0, OP [3:0] = 0010. -/
theorem test_decode_swReadretry :
    decode .swCmd 0b00000000000000001010001100000010#32 = .ok (.swReadretry 163) := by decide

/-- Vectors E1 to E5: the ILLEGAL words of ADC_CMD, each by its reason. -/
theorem test_decode_adc_illegal :
    decode .adcCmd 0x00000000#32 = .error (.illegalOp 0#4) ∧ decode .adcCmd 0x00000003#32 = .error (.illegalOp 3#4) ∧
    decode .adcCmd 0x00000012#32 = .error .reservedBits ∧ decode .adcCmd 0x00000101#32 = .error .reservedBits ∧
    decode .adcCmd 0x0000000F#32 = .error (.illegalOp 15#4) := by decide

/-- Vectors E6 to E9. -/
theorem test_decode_sw_illegal :
    decode .swCmd 0x00000000#32 = .error (.illegalOp 0#4) ∧ decode .swCmd 0x00000101#32 = .error .reservedBits ∧
    decode .swCmd 0x00000012#32 = .error .reservedBits ∧ decode .swCmd 0x00010002#32 = .error .reservedBits := by
  decide

/-- A table word is read as log 5 says, and only a word of 32 bits at most is one. -/
theorem test_decodeTableWord :
    decodeTableWord 32 0x21 = some (.adcRead 2) ∧ decodeTableWord 32 0x2 = some .adcReadall ∧
    decodeTableWord 32 0x1 = some .swRead ∧ decodeTableWord 32 0xF02 = some (.swReadretry 15) ∧
    decodeTableWord 32 0x3 = none ∧ decodeTableWord 40 0x1 = none := by decide

/-! ## One step each -/

/-- Vector E18's first access: BUSY, OP 1. -/
theorem test_adcRead_busy : memRead 0x08#6 (got (step (State.reset.withFetchWord 32 0x31))) = 0x00000101#32 := by
  decide

/-- Vector A5: INVALID_CHANNEL in the access, no pin changed. -/
theorem test_adcRead_invalid :
    memRead 0x08#6 (got (step (State.reset.withFetchWord 32 0x51))) = 0x00000112#32 ∧
    (got (step (State.reset.withFetchWord 32 0x51))).adc.pins = AdcPins.idle := by decide

/-- Vector A11: VALID clears at the acceptance of a READ_ALL, SAMPLE and CHANNEL stay. -/
theorem test_adcReadall_clears_valid :
    memRead 0x0C#6 (got (step (State.withFetchWord
      { State.reset with adc := { State.reset.adc with result := ⟨0xA5#8, 2#2, true⟩ } } 32 0x2))) = 0x000002A5#32 := by
  decide

/-- R142 by hand: the line driven low, ATTEMPTS 1, BUSY, OP 1. -/
theorem test_swRead_starts :
    memRead 0x24#6 (got (step (State.reset.withFetchWord 32 0x1))) = 0x00010101#32 ∧
    (got (step (State.reset.withFetchWord 32 0x1))).sw.oe = true ∧
    (got (step (State.reset.withFetchWord 32 0x1))).sw.out = false := by decide

/-- R183 by hand (the zero budget; the word 2 is READ_RETRY 0 at SW_CMD): DONE, ERR 6, OP 2, ATTEMPTS 0. -/
theorem test_swReadretry_zero :
    memRead 0x24#6 (got (step (hostDoes (.wr 0x20#6 4 0x2#32) State.reset))) = 0x00000262#32 := by decide

/-- R182 by hand: a budget of 3 and the delay latched from SW_RETRY_DELAY. -/
theorem test_swReadretry_latches :
    (got (step (State.reset.withFetchWord 32 0x302))).sw.rtMax = 3#8 ∧
    (got (step (State.reset.withFetchWord 32 0x302))).sw.rtDelay = 0x001E8480#32 := by decide

/-- Vectors E2 and E9 by a bus write. -/
theorem test_illegal_word :
    memRead 0x08#6 (got (step (hostDoes (.wr 0x04#6 4 0x3#32) State.reset))) = 0x00000372#32 ∧
    memRead 0x24#6 (got (step (hostDoes (.wr 0x20#6 4 0x10002#32) State.reset))) = 0x00000272#32 := by decide

/-- Vector E18: a command written to a busy engine: BUSY, OVERRUN, OP 1. -/
theorem test_overrun : memRead 0x08#6 (got (step (hostDoes (.wr 0x04#6 4 0x31#32) adcBusy))) = 0x00000105#32 := by
  decide

/-- Vectors E11 and E12: what the bus returns. -/
theorem test_bus_read :
    (got (step (hostDoes (.rd 0x00#6 4) State.reset))).lastRead = 0x64320204#32 ∧
    (got (step (hostDoes (.rd 0x34#6 4) State.reset))).lastRead = 0x001E8480#32 := by decide

/-- Vector E19: a 16-bit and a misaligned access are refused. -/
theorem test_narrow_refused :
    step (hostDoes (.rd 0x08#6 2) State.reset) = .refused .narrowOrMisaligned ∧
    step (hostDoes (.wr 0x06#6 4 0#32) State.reset) = .refused .narrowOrMisaligned := ⟨rfl, rfl⟩

/-- Program P1's last tick: ADC_RESULT with VALID, channel 2, sample 0xA5. -/
theorem test_transaction_end :
    memRead 0x0C#6 (got (step (ticks false false lastGap))) = 0x800002A5#32 ∧
    memRead 0x08#6 (got (step (ticks false false lastGap))) = 0x00000102#32 := by decide

/-- Vector S1's last tick: a high pulse of 70 ticks is a 1. -/
theorem test_frame_completes :
    memRead 0x30#6 (got (step (ticks false false lastBit))) = 0x80001932#32 ∧
    memRead 0x2C#6 (got (step (ticks false false lastBit))) = 0x8000014B#32 ∧
    memRead 0x24#6 (got (step (ticks false false lastBit))) = 0x00010102#32 := by decide

/-- R90 and vector S13 by hand: 0xA8 is -40 with a sign bit, -88 in two's complement, and 0xD8 is -40 as a byte. -/
theorem test_temperature :
    tempDecode .signMagnitude 0xA8#8 = -40 ∧ tempDecode .twosComplement 0xA8#8 = -88 ∧
    temperatureByte (-40) = 0xD8#8 := by decide

/-- R154 and vector S2: 0x3FC mod 256. -/
theorem test_checksum_wraps : checksum 0xFF#8 0xFF#8 0xFF#8 0xFF#8 = 0xFC#8 := by decide

/-! ## Witnesses: encoding -/

theorem witness_DecodeInvertsEncode :
    (Instr.adcRead 15).wellFormed = true ∧ Instr.adcReadall.wellFormed = true ∧ Instr.swRead.wellFormed = true ∧
    (Instr.swReadretry 255).wellFormed = true := by decide

theorem witness_DecodedWordIsTheEncoding : decode .swCmd 0x0000FF02#32 = .ok (.swReadretry 255) := by decide

/-- One line for each clause, at the ends of the operands' ranges. -/
theorem witness_AssemblerExpandsLines :
    (15 : Nat) ≤ 15 ∧ 15 < 16 ∧ (255 : Nat) ≤ 255 ∧ 255 < 256 ∧
    (∃ ops, assemble Params.default (.cmd (.adcRead 15)) = some ops) ∧
    ∃ ops, assemble Params.default (.cmd (.swReadretry 255)) = some ops :=
  ⟨by decide, by decide, by decide, by decide, ⟨_, rfl⟩, ⟨_, rfl⟩⟩

/-! ## Witnesses: the step -/

theorem witness_StepRunsDecodedCommand :
    let s := hostDoes (.wr (cmdOffset .swCmd) 4 0x302#32) State.reset
    s.params.Legal ∧ s.rstN = true ∧ s.turns = .host :: [] ∧ s.host = .wr (cmdOffset .swCmd) 4 0x302#32 :: [] ∧
    decode .swCmd 0x302#32 = .ok (.swReadretry 3) := by decide

theorem witness_FetchedWordRunsAsItsCommand :
    State.reset.params.Legal ∧ decodeTableWord 32 0x21 = some (.adcRead 2) := by decide

/-- A state with two ticks written in it. -/
def twoTicks (s : State) : State :=
  { s with turns := tickTurns (fun t => decide (t = 1)) (fun t => decide (t = 2)) 0 2 ++ [.host] }

theorem witness_TicksRunBothEngines :
    (twoTicks adcBusy).params.Legal ∧ (twoTicks adcBusy).rstN = true ∧
    (twoTicks adcBusy).turns =
      tickTurns (fun t => decide (t = 1)) (fun t => decide (t = 2)) 0 2 ++ [.host] := by decide

/-- Each kind of stop, and a step that does not stop. -/
theorem witness_StopsOnlyAtUndefinedAccess :
    step { State.reset with params := { Params.default with adcChannels := 0 } } = .refused .illegalParameters ∧
    step (hostDoes (.poll 0x09#6 1#32 0#32) State.reset) = .refused .narrowOrMisaligned ∧
    step (hostDoes (.delay 1) State.reset) = .next (got (step (hostDoes (.delay 1) State.reset))) := ⟨rfl, rfl, rfl⟩

theorem witness_StepKeepsParametersAndPullUp :
    step (ticks true true swBusy) = .next (got (step (ticks true true swBusy))) ∧
    (ticks true true swBusy).sw.puEn = true := ⟨rfl, rfl⟩

/-! ## Witnesses: the register window -/

/-- The highest offset a read can have. -/
theorem witness_HostReadReturnsRegister :
    let s := hostDoes (.rd 0x3C#6 4) swBusy
    s.params.Legal ∧ s.rstN = true ∧ (0x3C#6).toNat % 4 = 0 ∧ s.turns = .host :: [] ∧
    s.host = .rd 0x3C#6 4 :: [] := by decide

theorem witness_CapsReadsTheParameters :
    let s := hostDoes (.wr 0x00#6 4 0#32) State.reset
    s.params.Legal ∧ s.turns = .host :: [] ∧ s.host = .wr 0x00#6 4 0#32 :: [] := by decide

/-- A read-only register and the last reserved offset. -/
theorem witness_WriteElsewhereIsIgnored :
    (∀ off ∈ ([0x30#6, 0x3C#6] : List Offset), off.toNat % 4 = 0 ∧ off ≠ 0x04#6 ∧ off ≠ 0x08#6 ∧ off ≠ 0x20#6 ∧ off ≠ 0x24#6 ∧
      off ≠ 0x34#6 ∧ (hostDoes (.wr off 4 1#32) State.reset).host = .wr off 4 1#32 :: [] ∧
      (hostDoes (.wr off 4 1#32) State.reset).turns = .host :: []) ∧
    State.reset.params.Legal := by decide

theorem witness_RetryDelayWriteSetsOnlyTheRegister :
    let s := hostDoes (.wr 0x34#6 4 0xFFFFFFFF#32) swBusy
    s.params.Legal ∧ s.rstN = true ∧ s.turns = .host :: [] ∧ s.host = .wr 0x34#6 4 0xFFFFFFFF#32 :: [] := by decide

/-- Vector E16: one state for each status register. -/
theorem witness_StatusWriteClearsOverrunOnly :
    ∀ off ∈ [0x08#6, 0x24#6],
      let s := hostDoes (.wr off 4 0xFFFFFFFF#32) adcBusy
      s.params.Legal ∧ s.rstN = true ∧ s.turns = .host :: [] ∧ s.host = .wr off 4 0xFFFFFFFF#32 :: [] := by decide

/-- Both engines, busy and idle; the decoded case with its word. -/
theorem witness_CommandWriteWhileBusyIsRejected :
    (∀ s0 ∈ [State.reset, adcBusy],
      let s := hostDoes (.wr 0x04#6 4 0x1#32) s0
      s.params.Legal ∧ s.rstN = true ∧ s.turns = .host :: [] ∧ s.host = .wr 0x04#6 4 0x1#32 :: []) ∧
    (∀ s0 ∈ [State.reset, swBusy],
      let s := hostDoes (.wr 0x20#6 4 0x1#32) s0
      s.params.Legal ∧ s.rstN = true ∧ s.turns = .host :: [] ∧ s.host = .wr 0x20#6 4 0x1#32 :: []) ∧
    State.reset.adc.status.busy = false ∧ adcBusy.adc.status.busy = true ∧
    State.reset.sw.status.busy = false ∧ swBusy.sw.status.busy = true ∧
    decode .adcCmd 0x1#32 = .ok (.adcRead 0) ∧ decode .swCmd 0x1#32 = .ok .swRead := by decide

theorem witness_IllegalWordCompletesAtOnce :
    (let s := hostDoes (.wr 0x04#6 4 0x12#32) swBusy
     s.params.Legal ∧ s.rstN = true ∧ s.turns = .host :: [] ∧ s.host = .wr 0x04#6 4 0x12#32 :: [] ∧
     s.adc.status.busy = false ∧ decode .adcCmd 0x12#32 = .error .reservedBits) ∧
    (let s := hostDoes (.wr 0x20#6 4 0x10002#32) adcBusy
     s.params.Legal ∧ s.rstN = true ∧ s.turns = .host :: [] ∧ s.host = .wr 0x20#6 4 0x10002#32 :: [] ∧
     s.sw.status.busy = false ∧ decode .swCmd 0x10002#32 = .error .reservedBits) := by decide

theorem witness_StatusAfterCommandWriteIsBusyOrDone :
    (let s := hostDoes (.wr 0x04#6 4 0xF1#32) State.reset
     s.params.Legal ∧ s.rstN = true ∧ s.turns = .host :: [] ∧ s.host = .wr 0x04#6 4 0xF1#32 :: [] ∧
     s.adc.status.busy = false) ∧
    (let s := hostDoes (.wr 0x20#6 4 0x2#32) State.reset
     s.params.Legal ∧ s.rstN = true ∧ s.turns = .host :: [] ∧ s.host = .wr 0x20#6 4 0x2#32 :: [] ∧
     s.sw.status.busy = false) := by decide

/-- A poll that matches (idle), one that does not (busy), a delay that has not run out, and one that just has. -/
theorem witness_PollAndDelayHoldTheHost :
    (∀ s0 ∈ [State.reset, adcBusy],
      let s := hostDoes (.poll 0x08#6 1#32 0#32) s0
      s.params.Legal ∧ s.rstN = true ∧ (0x08#6).toNat % 4 = 0 ∧ s.turns = .host :: [] ∧
      s.host = .poll 0x08#6 1#32 0#32 :: []) ∧
    memRead 0x08#6 State.reset &&& 1#32 = 0#32 ∧ memRead 0x08#6 adcBusy &&& 1#32 ≠ 0#32 ∧
    (∀ n ∈ [3, 2],
     let s : State := { State.reset with
       host := [.delay n], turns := tickTurns (fun _ => true) (fun _ => true) 0 2 ++ [.host] }
     s.params.Legal ∧ s.rstN = true ∧ (2 < n ∨ n ≤ 2) ∧ s.host = .delay n :: [] ∧
     s.turns = tickTurns (fun _ => true) (fun _ => true) 0 2 ++ .host :: []) := by decide

/-! ## Witnesses: reset -/

theorem witness_ResetGivesEveryResetValue :
    ({ adcBusy with turns := [.reset false, .reset true] } : State).params.Legal ∧
    ({ adcBusy with turns := [.reset false, .reset true] } : State).turns = .reset false :: .reset true :: [] := by
  decide

/-- A block held in reset. -/
def held (s : State) : State := { resetBlock s with rstN := false }

/-- An assertion; a tick, an access and a release during reset; a read and a write. -/
theorem witness_ResetHoldsTheBlock :
    (let s := { adcBusy with turns := [.reset false] }
     s.turns = .reset false :: [] ∧ step s = .next (got (step s))) ∧
    (∀ t : Turn, let s := { held adcBusy with turns := [t], host := [] }
     s.rstN = false ∧ s.adc = AdcEngine.atReset ∧ s.sw = SwEngine.atReset s.params ∧
     step s = .next (got (step s))) ∧
    (∀ op ∈ [HostOp.rd 0x3C#6 4, .wr 0x20#6 4 0x1#32],
     let s := hostDoes op (held adcBusy)
     s.params.Legal ∧ s.rstN = false ∧ (0x3C#6).toNat % 4 = 0 ∧ s.turns = .host :: [] ∧ s.host = op :: []) :=
  ⟨⟨rfl, rfl⟩, fun t => ⟨rfl, rfl, rfl, by cases t <;> rfl⟩, by decide⟩

/-! ## Witnesses: the commands -/

/-- The last valid channel. -/
theorem witness_ReadChannelStartsTransaction :
    State.reset.adc.status.busy = false ∧ 3 < State.reset.params.adcChannels := by decide

/-- The first invalid channel, with one channel and with four. -/
theorem witness_InvalidChannelCompletesAtOnce :
    State.reset.adc.status.busy = false ∧ State.reset.params.adcChannels ≤ 4 ∧
    ({ Params.default with adcChannels := 1 } : Params).adcChannels ≤ 1 := by decide

theorem witness_ReadAllStartsAtChannelZero : swBusy.adc.status.busy = false := by decide

theorem witness_ReadStartsOneAttempt : adcBusy.sw.status.busy = false := by decide

theorem witness_ReadRetryStartsFirstAttempt :
    State.reset.sw.status.busy = false ∧ 1 ≤ 1 ∧ 1 ≤ 255 ∧ 255 ≤ 255 := by decide

theorem witness_ZeroBudgetCompletesAtOnce : State.reset.sw.status.busy = false := by decide

/-- Busy, idle, and completing at once. -/
theorem witness_AdcCommandsFrame :
    (∀ s ∈ [State.reset, adcBusy], ∀ i ∈ [Instr.adcReadall, .adcRead 15],
      (i = .adcReadall ∨ i = .adcRead 15) ∧ exec i s = .next (got (exec i s))) ∧
    (got (exec (.adcRead 15) State.reset)).adc.status.busy = false := by
  refine ⟨?_, by decide⟩
  simp only [List.mem_cons, List.not_mem_nil, or_false]
  rintro s (rfl | rfl) i (rfl | rfl) <;> exact ⟨by decide, rfl⟩

theorem witness_SingleWireCommandsFrame :
    (∀ s ∈ [State.reset, swBusy], ∀ i ∈ [Instr.swRead, .swReadretry 0],
      (i = .swRead ∨ i = .swReadretry 0) ∧ exec i s = .next (got (exec i s))) ∧
    (got (exec (.swReadretry 0) State.reset)).sw.status.busy = false := by
  refine ⟨?_, by decide⟩
  simp only [List.mem_cons, List.not_mem_nil, or_false]
  rintro s (rfl | rfl) i (rfl | rfl) <;> exact ⟨by decide, rfl⟩

/-! ## Witnesses: the ADC engine -/

theorem witness_AdcPhaseLastsItsTicks :
    Params.default.Legal ∧ adcBusy.adc.phase ≠ .idle ∧ adcBusy.adc.cnt = 0 := by decide

/-- Both ends of the phase length, and a tick in each of the five stretches. -/
theorem witness_AdcPinTimeline :
    Params.default.Legal ∧ ({ Params.default with tAdcPhase := 255 } : Params).Legal ∧ 2 = Params.default.tAdcPhase ∧
    1 < 2 ∧ (13 < 14 ∧ 2 + 2 * 13 * 2 ≤ 55 ∧ 55 < 2 * 2 + 2 * 13 * 2) ∧
    (2 * 2 + 2 * 13 * 2 ≤ 57 ∧ 57 < 3 * 2 + 2 * 13 * 2) ∧ (29 * 2 ≤ 58 ∧ 58 < 30 * 2) ∧
    (30 * 2 ≤ 61 ∧ 61 < 31 * 2) := by decide

theorem reset_adcInv : AdcInv State.reset.params State.reset.adc := by constructor <;> decide

/-- The last valid channel and READ_ALL, a tick inside each and one at the end, an invalid channel, an ILLEGAL word. -/
theorem witness_AdcTransactionHasFourteenPulses :
    State.reset.params.Legal ∧ AdcInv State.reset.params State.reset.adc ∧ State.reset.adc.status.busy = false ∧
    2 = State.reset.params.tAdcPhase ∧ (3 < State.reset.params.adcChannels ∧ 61 < 1 * (31 * 2) ∧ 1 * (31 * 2) ≤ 62) ∧
    (4 = State.reset.params.adcChannels ∧ 247 < 4 * (31 * 2) ∧ 4 * (31 * 2) ≤ 248) ∧
    State.reset.params.adcChannels ≤ 4 ∧ decode .adcCmd 0x12#32 = .error .reservedBits :=
  ⟨by decide, reset_adcInv, by decide, by decide, by decide, by decide, by decide, by decide⟩

theorem witness_ReadChannelDeliversTheSample :
    State.reset.params.Legal ∧ State.reset.adc.status.busy = false ∧ 3 < State.reset.params.adcChannels := by decide

/-- The byte 0xFF by a line that is always 1, at either edge. -/
theorem witness_PresentedByteIsTheSample :
    State.reset.params.Legal ∧ ({ Params.default with adcSampleEdge := .falling } : Params).Legal ∧
    State.reset.adc.status.busy = false ∧ 3 < State.reset.params.adcChannels ∧
    PresentsByte State.reset.params (fun _ => true) 0xFF#8 := by
  refine ⟨by decide, by decide, by decide, by decide, ?_⟩
  intro k t h6 h13 _ _
  have all : ∀ j < 8, true = (0xFF#8).getLsbD j := by decide
  exact all _ (by omega)

/-- With two channels, so that both the clause of the sampled bytes and that of the unused ones apply. -/
theorem witness_ReadAllSamplesEveryChannel :
    let s := { State.reset with params := { Params.default with adcChannels := 2 } }
    s.params.Legal ∧ s.adc.status.busy = false ∧ (1#2).toNat < s.params.adcChannels ∧
    s.params.adcChannels ≤ (2#2).toNat := by decide

/-- Two idle states and two inputs that differ away from the sample ticks (tick 1 is none). -/
theorem witness_SampleDependsOnSampleTicksOnly :
    let din : Nat → Level := fun _ => true
    let din' : Nat → Level := fun t => decide (t ≠ 1)
    State.reset.params.Legal ∧ swBusy.params = State.reset.params ∧ State.reset.adc.status.busy = false ∧
    swBusy.adc.status.busy = false ∧ 2 < State.reset.params.adcChannels ∧
    (∀ k, 6 ≤ k → k ≤ 13 → din (sampleTick State.reset.params k) = din' (sampleTick State.reset.params k)) ∧
    exec (.adcRead 2) State.reset = .next (got (exec (.adcRead 2) State.reset)) ∧
    exec (.adcRead 2) swBusy = .next (got (exec (.adcRead 2) swBusy)) := by
  refine ⟨by decide, rfl, rfl, rfl, by decide, ?_, rfl, rfl⟩
  intro k _ _
  simp only [sampleTick, State.reset, Params.default]
  exact (decide_eq_true (by omega)).symm

/-! ## Witnesses: the single-wire engine -/

theorem witness_StartConditionTimeline :
    Params.default.Legal ∧ 17999 < Params.default.tStartLow ∧ Params.default.tStartLow ≤ 18000 ∧
    18029 < Params.default.tStartLow + Params.default.tRelease := by decide

/-- An engine that enters a phase. -/
def entering (phase : SwPhase) : SwEngine := { swBusy.sw with phase := phase, oe := false, out := true }

/-- Each wait: inside it, the match at its last sample, and its failure. -/
theorem witness_BoundedWaitEndsInTime :
    Params.default.Legal ∧
    (∀ q ∈ [(SwPhase.ack0, false, SwPhase.ack1, ErrCode.noResponse), (.ack1, true, .ack2, .noResponse),
        (.ack2, false, .bitH, .noResponse), (.bitH, true, .bitL, .truncated)],
      (entering q.1).phase = q.1 ∧ (entering q.1).cnt = 0#32 ∧
      (99 < Params.default.tWaitTimeout ∧ ∀ i, 1 ≤ i → i ≤ 99 → (fun t => (decide (t = 100) ^^ !q.2.1)) i ≠ q.2.1) ∧
      (1 ≤ 100 ∧ 100 ≤ Params.default.tWaitTimeout ∧
        (∀ i, 1 ≤ i → i < 100 → (fun t => (decide (t = 100) ^^ !q.2.1)) i ≠ q.2.1) ∧
        (fun t => (decide (t = 100) ^^ !q.2.1)) 100 = q.2.1) ∧
      (∀ i, 1 ≤ i → i ≤ Params.default.tWaitTimeout → (fun _ : Nat => !q.2.1) i ≠ q.2.1)) := by
  refine ⟨by decide, ?_⟩
  simp only [List.mem_cons, List.not_mem_nil, or_false]
  rintro q (rfl | rfl | rfl | rfl) <;>
    refine ⟨rfl, rfl, ⟨by decide, ?_⟩, ⟨by decide, by decide, ?_, by decide⟩, ?_⟩ <;>
    intro i _ _ <;> simp <;> omega

/-- A pulse of exactly the threshold, the last bit's, and one at the bound, ended there and outlasting it. -/
theorem witness_HighPulseIsMeasuredAndClassified :
    Params.default.Legal ∧ (entering .bitL).phase = .bitL ∧ (entering .bitL).cnt = 0#32 ∧
    (∀ d ∈ [50, 100], 1 ≤ d ∧ d ≤ Params.default.tWaitTimeout ∧
      (∀ i, 1 ≤ i → i < d → (fun t : Nat => decide (t ≠ d)) i = true) ∧ (fun t : Nat => decide (t ≠ d)) d = false) ∧
    (100 = Params.default.tWaitTimeout ∧ (fun _ : Nat => true) 100 = true) ∧
    ({ entering .bitL with bit := 39 } : SwEngine).bit = 39 := by
  refine ⟨by decide, rfl, rfl, ?_, by decide, rfl⟩
  intro d hd
  simp only [List.mem_cons, List.not_mem_nil, or_false] at hd
  rcases hd with rfl | rfl <;> refine ⟨by decide, by decide, ?_, by decide⟩ <;> intro i _ _ <;> simp <;> omega

theorem witness_FrameHoldsBitsInArrivalOrder : (List.replicate 40 true).length = 40 ∧ 39 < 40 ∧ 4 < 5 ∧ 7 < 8 := by
  decide

/-- The bytes at the clauses' boundaries. -/
theorem witness_TemperatureDecodesByEncoding :
    (0x7F#8).toNat < 128 ∧ 128 ≤ (0x80#8).toNat ∧ (0x7F#8).getLsbD 7 = false ∧ (0x80#8).getLsbD 7 = true := by decide

/-- A frame for each clause: vector S10 (checksum), S9 (81 degrees, one above the bound), S8 (80, on the bound), and S8's
under a READ_RETRY. -/
theorem witness_FrameCompletionValidatesTheFrame :
    (∃ b0 b1 b2 b3 b4 : Byte, 0x2D00170045#40 = b0 ++ b1 ++ b2 ++ b3 ++ b4 ∧ checksum b0 b1 b2 b3 ≠ b4) ∧
    (∃ b0 b1 b2 b3 b4 : Byte, 0x3200510083#40 = b0 ++ b1 ++ b2 ++ b3 ++ b4 ∧ checksum b0 b1 b2 b3 = b4 ∧
      ¬ ((b0.toNat : Int) ≤ Params.default.humMax ∧
        Params.default.tempMin ≤ tempDecode Params.default.tempEncoding b2 ∧
        tempDecode Params.default.tempEncoding b2 ≤ Params.default.tempMax)) ∧
    (∃ b0 b1 b2 b3 b4 : Byte, 0x3200500082#40 = b0 ++ b1 ++ b2 ++ b3 ++ b4 ∧ checksum b0 b1 b2 b3 = b4 ∧
      ((b0.toNat : Int) ≤ Params.default.humMax ∧
        Params.default.tempMin ≤ tempDecode Params.default.tempEncoding b2 ∧
        tempDecode Params.default.tempEncoding b2 ≤ Params.default.tempMax)) ∧
    (∀ retry ∈ [false, true],
      let w : SwEngine := { swBusy.sw with frame := 0x3200500082#40, rtRetry := retry }
      w.frame = 0x3200500082#40 ∧ w.rtRetry = retry ∧ w.reading = ⟨0#8, 0#8, false⟩) :=
  ⟨⟨0x2D#8, 0x00#8, 0x17#8, 0x00#8, 0x45#8, by decide⟩, ⟨0x32#8, 0x00#8, 0x51#8, 0x00#8, 0x83#8, by decide⟩,
    ⟨0x32#8, 0x00#8, 0x50#8, 0x00#8, 0x82#8, by decide⟩, by decide⟩

/-- One engine for each clause: an attempt of a READ, the last and an earlier attempt of a READ_RETRY, without and with
a delay. -/
theorem witness_AttemptEndDecides :
    ErrCode.truncated ≠ .ok ∧ swBusy.sw.rtRetry = false ∧
    (let w := { swBusy.sw with rtRetry := true, rtMax := 1#8 }
     w.rtRetry = true ∧ w.rtMax.toNat ≤ w.status.attempts.toNat) ∧
    (let w := { swBusy.sw with rtRetry := true, rtMax := 2#8 }
     w.rtRetry = true ∧ w.status.attempts.toNat < w.rtMax.toNat ∧ w.rtDelay = 0#32) ∧
    (let w := { swBusy.sw with rtRetry := true, rtMax := 2#8, rtDelay := 1#32 }
     w.rtRetry = true ∧ w.status.attempts.toNat < w.rtMax.toNat ∧ w.rtDelay ≠ 0#32) := by decide

theorem witness_RetryDelayLastsItsTicks :
    let w := { entering .delay with rtDelay := 1#32 }
    w.phase = .delay ∧ w.cnt = 0#32 ∧ w.rtDelay ≠ 0#32 ∧ 0 < w.rtDelay.toNat := by decide

theorem witness_DelayIsLatchedAtAcceptance :
    (State.reset.sw.status.busy = false ∧
      exec (.swReadretry 3) State.reset = .next (got (exec (.swReadretry 3) State.reset))) ∧
    exec .swRead State.reset = .next (got (exec .swRead State.reset)) ∧
    (step (ticks true true swBusy) = .next (got (step (ticks true true swBusy))) ∧
      (ticks true true swBusy).sw.status.busy = true) := ⟨⟨rfl, rfl⟩, rfl, rfl, rfl⟩

/-- The frame 00 00 00 00 00 with every pulse of the bits 50 low and 27 high, answered as `ANS(frame, 20)`. -/
def zeroBits : List Pulse := List.replicate 40 ⟨50, 27⟩

theorem zeroBits_high {q : Pulse} (h : q ∈ zeroBits) : q = ⟨50, 27⟩ := (List.mem_replicate.mp h).2

/-- The line that carries that answer. -/
def zeroLine (t : Nat) : Level := ((answer 20 80 80 zeroBits)[t - 18031]?).getD true

theorem witness_ReadDecodesTheAnsweredFrame :
    State.reset.params.Legal ∧ State.reset.sw.status.busy = false ∧
    (1 ≤ 20 ∧ 20 ≤ State.reset.params.tWaitTimeout) ∧ (1 ≤ 80 ∧ 80 ≤ State.reset.params.tWaitTimeout) ∧
    zeroBits.length = 40 ∧ (∀ b ∈ zeroBits, b.Bounded State.reset.params) ∧
    (∀ k, CarriesByte State.reset.params zeroBits k 0#8) ∧
    (∀ (i : Nat) (x : Level), (answer 20 80 80 zeroBits)[i]? = some x →
      zeroLine (State.reset.params.tStartLow + State.reset.params.tRelease + 1 + i) = x) ∧
    21290 = State.reset.params.tStartLow + State.reset.params.tRelease + 20 + 80 + 80 +
      (zeroBits.map (fun b => b.low + b.high)).sum := by
  refine ⟨by decide, rfl, by decide, by decide, rfl, ?_, ?_, ?_, by decide⟩
  · intro b hb; rw [zeroBits_high hb]; decide
  · intro k j _ q hq
    rw [zeroBits_high (List.mem_of_getElem? hq)]
    simp [State.reset, Params.default]
  · intro i x hx
    have hi : State.reset.params.tStartLow + State.reset.params.tRelease + 1 + i - 18031 = i := by
      simp only [State.reset, Params.default]; omega
    rw [zeroLine, hi, hx]; rfl

theorem witness_ReadEndsInBoundedTime : State.reset.params.Legal ∧ State.reset.sw.status.busy = false := by decide

theorem witness_SilentReadGivesNoResponse :
    State.reset.params.Legal ∧ State.reset.sw.status.busy = false ∧
    (∀ i, State.reset.params.tStartLow + State.reset.params.tRelease < i → i ≤ silentAttempt State.reset.params →
      (fun _ : Nat => true) i = true) := ⟨by decide, rfl, fun _ _ _ => rfl⟩

theorem witness_ReadRetryEndsInBoundedTime :
    State.reset.params.Legal ∧ State.reset.sw.status.busy = false ∧ 1 ≤ 1 ∧ 1 ≤ 255 ∧ 255 ≤ 255 := by decide

/-- The shortest timeout. -/
def quick : Params := { Params.default with tWaitTimeout := 2, tBitThreshold := 1 }

/-- The engine listening, right after the start condition of a fresh attempt. -/
def listening : SwEngine := { freshAttempt quick with out := true, oe := false, phase := .ack0 }

/-- An attempt, cut at the end of its start condition. -/
theorem fresh_listens (line : Nat → Level) (n : Nat) :
    swAfter quick line (18030 + n) (freshAttempt quick) =
      swAfter quick (fun i => line (18030 + i)) n listening := by
  have h1 := (swAfter_startLow line (by decide : quick.Legal)
    (rfl : (freshAttempt quick).phase = .startLow) rfl).2
  have h2 : swAfter quick line (quick.tStartLow + quick.tRelease) (freshAttempt quick) = listening := by
    rw [swAfter_add, h1, (swAfter_release _ (by decide) rfl rfl).2]; rfl
  have h3 : quick.tStartLow + quick.tRelease = 18030 := by decide
  rw [swAfter_add, ← h3, h2]

/-- Through its start condition an attempt is BUSY. -/
theorem fresh_busy (line : Nat → Level) {m : Nat} (hm : m < 18030) :
    (swAfter quick line m (freshAttempt quick)).status.busy = true := by
  have h := swAfter_startLow line (by decide : quick.Legal)
    (rfl : (freshAttempt quick).phase = .startLow) rfl
  rcases Nat.lt_or_ge m 18000 with h1 | h1
  · rw [h.1 m h1]; rfl
  · obtain ⟨j, rfl⟩ : ∃ j, m = quick.tStartLow + j := ⟨m - 18000, by simp [quick, Params.default]; omega⟩
    rw [swAfter_add, h.2, (swAfter_release _ (by decide : quick.Legal) rfl rfl).1 j
      (by simp [quick, Params.default] at hm ⊢; omega)]
    rfl

/-- An attempt's end, from what the engine does once it listens. -/
theorem fresh_ends {line : Nat → Level} (seen : Nat → Level) {e : Nat} {kind : ErrCode}
    (hl : ∀ i, 1 ≤ i → i ≤ e → line (18030 + i) = seen i)
    (hb : ∀ m, m < e → (swAfter quick seen m listening).status.busy = true)
    (he : (swAfter quick seen e listening).status.busy = false)
    (hk : (swAfter quick seen e listening).status.err = kind) :
    AttemptEnds quick line (18030 + e) kind := by
  have cut : ∀ n, n ≤ e → swAfter quick line (18030 + n) (freshAttempt quick) =
      swAfter quick seen n listening := fun n hn => by
    rw [fresh_listens]; exact swAfter_congr _ (fun i h1 h2 => hl i h1 (by omega)) _
  refine ⟨fun m hm => ?_, by rw [cut e le_rfl]; exact he, by rw [cut e le_rfl]; exact hk⟩
  rcases Nat.lt_or_ge m 18030 with h1 | h1
  · exact fresh_busy line h1
  · obtain ⟨j, rfl⟩ : ∃ j, m = 18030 + j := ⟨m - 18030, by omega⟩
    rw [cut j (by omega)]; exact hb j (by omega)

/-- The shortest answer: every pulse one tick long, so that every bit is a 0. -/
def shortAnswer (i : Nat) : Level := ((answer 1 1 1 (List.replicate 40 ⟨1, 1⟩))[i - 1]?).getD true

/-- The line of a sensor that is silent in the first attempt and answers in the second, which starts at 2018032. -/
def secondAnswers (t : Nat) : Level := if t ≤ 2018032 + 18030 then true else shortAnswer (t - (2018032 + 18030))

theorem silent_attempt : AttemptEnds quick (fun i => secondAnswers (0 + i)) 18032 .noResponse :=
  fresh_ends (e := 2) (fun _ => true)
    (fun i _ h => by simp only [secondAnswers]; rw [if_pos (by omega)]) (by decide) (by decide) (by decide)

theorem answered_attempt : AttemptEnds quick (fun i => secondAnswers (2018032 + i)) 18113 .ok :=
  fresh_ends (e := 83) shortAnswer
    (fun i h _ => by
      simp only [secondAnswers]; rw [if_neg (by omega), show 2018032 + (18030 + i) - (2018032 + 18030) = i by omega])
    (by decide +kernel) (by decide +kernel) (by decide +kernel)

/-- Two attempts of three: silence, the default delay, and an answer. -/
theorem witness_ReadRetryEndsAtItsFirstSuccess :
    let start : Nat → Nat := fun j => if j = 1 then 0 else 2018032
    let dur : Nat → Nat := fun j => if j = 1 then 18032 else 18113
    let kind : Nat → ErrCode := fun j => if j = 1 then .noResponse else .ok
    let s := { State.reset with params := quick }
    s.params.Legal ∧ s.sw.status.busy = false ∧ 1 ≤ 2 ∧ 2 ≤ 3 ∧ 3 ≤ 255 ∧ start 1 = 0 ∧
    (∀ j, 1 ≤ j → j < 2 → start (j + 1) = start j + dur j + s.sw.retryDelay.toNat) ∧
    (∀ j, 1 ≤ j → j ≤ 2 →
      AttemptEnds s.params (fun i => secondAnswers (start j + i)) (dur j) (kind j)) ∧
    (∀ j, 1 ≤ j → j < 2 → kind j ≠ .ok) ∧ (kind 2 = .ok ∨ 2 = 3) := by
  refine ⟨by decide, rfl, by decide, by decide, by decide, rfl, ?_, ?_, ?_, .inl rfl⟩
  · intro j h1 h2; obtain rfl : j = 1 := by omega
    decide
  · intro j h1 h2
    obtain rfl | rfl : j = 1 ∨ j = 2 := by omega
    · exact silent_attempt
    · exact answered_attempt
  · intro j h1 h2; obtain rfl : j = 1 := by omega
    decide

theorem witness_SilentReadRetryExhaustsItsBudget :
    State.reset.params.Legal ∧ State.reset.sw.status.busy = false ∧ 1 ≤ 3 ∧ 3 ≤ 255 ∧
    3 * 18130 + 2 * 2000000 =
      3 * silentAttempt State.reset.params + (3 - 1) * State.reset.sw.retryDelay.toNat := by decide

/-! ## Witnesses: the whole machine -/

/-- The invariant of a running machine: a READ_CHANNEL just accepted, and its next tick. -/
theorem witness_StepKeepsTheInvariant :
    Inv (ticks true true adcBusy) ∧ step (ticks true true adcBusy) = .next (got (step (ticks true true adcBusy))) := by
  refine ⟨⟨by decide, ?_, ?_, by decide⟩, rfl⟩
  · constructor <;> decide
  · constructor <;> decide

/-- The tick that completes vector S1's frame. -/
theorem witness_NoCorruptedReadingSurfaces :
    step (ticks true false lastBit) = .next (got (step (ticks true false lastBit))) ∧
    (got (step (ticks true false lastBit))).sw.reading ≠ ⟨0#8, 0#8, false⟩ := ⟨rfl, by decide⟩

/-- OVERRUN being set and being cleared, at each engine. -/
theorem witness_OverrunChangesByItsRulesOnly :
    (let s := hostDoes (.wr 0x04#6 4 0x1#32) adcBusy
     step s = .next (got (step s)) ∧ s.adc.status.overrun = false ∧ (got (step s)).adc.status.overrun = true ∧
     (let u := hostDoes (.wr 0x08#6 4 0x4#32) (got (step s))
      step u = .next (got (step u)) ∧ u.adc.status.overrun = true ∧ (got (step u)).adc.status.overrun = false)) ∧
    (let s := hostDoes (.wr 0x20#6 4 0x1#32) swBusy
     step s = .next (got (step s)) ∧ s.sw.status.overrun = false ∧ (got (step s)).sw.status.overrun = true ∧
     (let u := hostDoes (.wr 0x24#6 4 0x4#32) (got (step s))
      step u = .next (got (step u)) ∧ u.sw.status.overrun = true ∧ (got (step u)).sw.status.overrun = false)) :=
  ⟨⟨rfl, rfl, rfl, rfl, rfl, rfl⟩, rfl, rfl, rfl, rfl, rfl, rfl⟩

/-- A completion of each engine. -/
theorem witness_BusyFallsOnlyByCompletion :
    (step (ticks true true lastGap) = .next (got (step (ticks true true lastGap))) ∧
      (ticks true true lastGap).adc.status.busy = true ∧
      (got (step (ticks true true lastGap))).adc.status.busy = false) ∧
    (step (ticks true false lastBit) = .next (got (step (ticks true false lastBit))) ∧
      (ticks true false lastBit).sw.status.busy = true ∧
      (got (step (ticks true false lastBit))).sw.status.busy = false) := ⟨⟨rfl, rfl, rfl⟩, rfl, rfl, rfl⟩

/-- Both engines busy, and a host that writes a command and a delay. -/
def bothBusy : State :=
  { got (exec .swRead adcBusy) with
    turns := [.host, .host], host := [.wr 0x04#6 4 0x1#32, .wr 0x34#6 4 5#32] }

theorem witness_WithoutTicksABusyEngineStays :
    bothBusy.turns = List.replicate 2 .host ++ [] ∧
    (∃ t, Host.Core.run Sys2Proof.core 2 bothBusy = .next t) ∧
    bothBusy.adc.status.busy = true ∧ bothBusy.sw.status.busy = true := ⟨rfl, ⟨_, rfl⟩, rfl, rfl⟩

/-- Two machines that differ in the single-wire engine, in `sw_in` and in what the host does there, and poll the same ADC
register. -/
theorem witness_AdcRunIgnoresTheSingleWireSide :
    let s := { State.reset with
      turns := [.host, .tick true false, .host], host := [.wr 0x20#6 4 0x1#32, .poll 0x08#6 1#32 0#32] }
    let s' := { swBusy with
      turns := [.host, .tick true true, .host], host := [.wr 0x34#6 4 0x7#32, .poll 0x08#6 1#32 0#32] }
    s'.params = s.params ∧ s'.adc = s.adc ∧ s'.rstN = s.rstN ∧ 3 ≤ s.turns.length ∧
    List.Forall₂ (fun a b => Turn.adcAgree a b = true) s.turns s'.turns ∧
    List.Forall₂ (fun a b => HostOp.adcAgree a b = true) s.host s'.host ∧
    (∃ t, Host.Core.run Sys2Proof.core 3 s = .next t) ∧ ∃ t, Host.Core.run Sys2Proof.core 3 s' = .next t := by
  refine ⟨rfl, rfl, rfl, by decide, ?_, ?_, ⟨_, rfl⟩, ⟨_, rfl⟩⟩ <;> simp <;> decide

/-- Two machines that differ in the ADC engine, in `adc_din` and in what the host does there, and poll the same
single-wire register. -/
theorem witness_SingleWireRunIgnoresTheAdcSide :
    let s := { State.reset with
      turns := [.host, .tick true false, .host], host := [.wr 0x04#6 4 0x1#32, .poll 0x24#6 1#32 0#32] }
    let s' := { adcBusy with
      turns := [.host, .tick false false, .host], host := [.wr 0x08#6 4 0x4#32, .poll 0x24#6 1#32 0#32] }
    s'.params = s.params ∧ s'.sw = s.sw ∧ s'.rstN = s.rstN ∧ 3 ≤ s.turns.length ∧
    List.Forall₂ (fun a b => Turn.swAgree a b = true) s.turns s'.turns ∧
    List.Forall₂ (fun a b => HostOp.swAgree a b = true) s.host s'.host ∧
    (∃ t, Host.Core.run Sys2Proof.core 3 s = .next t) ∧ ∃ t, Host.Core.run Sys2Proof.core 3 s' = .next t := by
  refine ⟨rfl, rfl, rfl, by decide, ?_, ?_, ⟨_, rfl⟩, ⟨_, rfl⟩⟩ <;> simp <;> decide

end Sys2Proof.Tests
end

/-! PROOFS. Runs of tick turns, and what every step keeps (family 00_scope). -/

namespace Sys2Proof.Machine

/-! ## Runs of tick turns -/

/-- `k + n` steps are `k` steps and then `n`. -/
theorem run_add {k : Nat} (n : Nat) {s t : State} (h : Host.Core.run Sys2Proof.core k s = .next t) :
    Host.Core.run Sys2Proof.core (k + n) s = Host.Core.run Sys2Proof.core n t := by
  induction k generalizing s with
  | zero =>
    cases h
    rw [Nat.zero_add]
  | succ k ih =>
    obtain ⟨u, hu, hk⟩ := run_succ_next h
    rw [Nat.add_right_comm, run_succ hu, ih hk]

/-- A run made one step longer at its end. -/
theorem run_succ_last {k : Nat} {s t u : State} (h : Host.Core.run Sys2Proof.core k s = .next t)
    (hu : step t = .next u) : Host.Core.run Sys2Proof.core (k + 1) s = .next u := by
  rw [run_add 1 h, run_succ hu, run_zero]

/-- A tick turn with `rst_n` high is one tick of each engine and of the host's delay (R8, R215, log 3). -/
theorem step_tick {s : State} {adcDin swIn : Level} {ts : List Turn} (hl : s.params.Legal)
    (hr : s.rstN = true) (ht : s.turns = .tick adcDin swIn :: ts) :
    step s = .next { s with
      adc := adcTick s.params adcDin s.adc
      sw := swTick s.params swIn s.sw
      host := elapseDelay s.host
      turns := ts } := by
  rw [step_legal hl, nextTurn_cons ht]
  simp [takeTurn, tickTurn, hr]

/-- The last of `n + 1` tick turns is tick number `start + n + 1`. -/
theorem tickTurns_succ_last (din line : Nat → Level) (start n : Nat) :
    tickTurns din line start (n + 1) =
      tickTurns din line start n ++ [.tick (din (start + n + 1)) (line (start + n + 1))] := by
  induction n generalizing start with
  | zero => rfl
  | succ n ih =>
    rw [tickTurns, ih, tickTurns, List.cons_append, Nat.add_right_comm start 1 n, Nat.add_assoc start n 1]

/-- Settles O7, by induction on the number of ticks, the last one split off. -/
theorem ticksRunBothEngines : Obligations.TicksRunBothEngines := by
  unfold Obligations.TicksRunBothEngines
  intro s din line k rest hl hr ht
  induction k generalizing rest with
  | zero =>
    obtain rfl : s.turns = rest := ht
    rfl
  | succ k ih =>
    rw [tickTurns_succ_last, List.append_assoc, Nat.zero_add] at ht
    exact run_succ_last (ih _ ht) (step_tick hl hr rfl)

/-! ## The pull-up request

Only reset writes `sw_pu_en`, and it writes 1 (R23, R48). -/

@[simp] theorem attemptEnd_puEn (kind : ErrCode) (w : SwEngine) : (attemptEnd kind w).puEn = w.puEn := by
  obtain ⟨-, -, -, -, hpu, -⟩ := attemptEnd_keeps kind w
  exact hpu

@[simp] theorem waitStep_puEn (p : Params) (level : Level) (next : SwPhase) (fail : ErrCode) (swIn : Level)
    (w : SwEngine) : (waitStep p level next fail swIn w).puEn = w.puEn := by
  obtain ⟨-, h⟩ | ⟨-, -, h⟩ | ⟨-, -, h⟩ := waitStep_cases p level next fail swIn w <;> simp [h]

@[simp] theorem frameComplete_puEn (p : Params) (w : SwEngine) : (frameComplete p w).puEn = w.puEn := by
  obtain ⟨-, h⟩ | ⟨-, -, h⟩ | ⟨-, -, h⟩ := frameComplete_cases p w <;> simp [h]

@[simp] theorem bitLowStep_puEn (p : Params) (swIn : Level) (w : SwEngine) :
    (bitLowStep p swIn w).puEn = w.puEn := by
  obtain ⟨-, -, h⟩ | ⟨-, -, h⟩ | ⟨-, -, h⟩ | ⟨-, -, h⟩ := bitLowStep_cases p swIn w <;> simp [h, bitReceived]

@[simp] theorem retryDelayTick_puEn (w : SwEngine) : (retryDelayTick w).puEn = w.puEn := by
  obtain ⟨-, h⟩ | ⟨-, h⟩ := retryDelayTick_cases w <;> simp [h]

@[simp] theorem startLowStep_puEn (p : Params) (w : SwEngine) : (startLowStep p w).puEn = w.puEn := by
  obtain ⟨-, h⟩ | ⟨-, h⟩ := startLowStep_cases p w <;> simp [h]

@[simp] theorem releaseStep_puEn (p : Params) (w : SwEngine) : (releaseStep p w).puEn = w.puEn := by
  obtain ⟨-, h⟩ | ⟨-, h⟩ := releaseStep_cases p w <;> simp [h]

@[simp] theorem swTick_puEn (p : Params) (swIn : Level) (w : SwEngine) :
    (swTick p swIn w).puEn = w.puEn := by
  cases h : w.phase <;> simp [swTick, h]

@[simp] theorem runRead_puEn (w : SwEngine) : (runRead w).puEn = w.puEn := by
  simp [runRead]

@[simp] theorem runReadRetry_puEn (n : Nat) (w : SwEngine) : (runReadRetry n w).puEn = w.puEn := by
  by_cases h : n = 0
  · simp [h, runReadRetry_zero]
  · simp [runReadRetry_pos h]

/-- A write to SW_CMD keeps the pull-up request if the command's own effect does. -/
theorem swCommandWrite_puEn {run : SwEngine → SwEngine} (hrun : ∀ w, (run w).puEn = w.puEn) (op : BitVec 4)
    (w : SwEngine) : (swCommandWrite op run w).puEn = w.puEn := by
  cases h : w.status.busy
  · simp [swCommandWrite_idle h, hrun]
  · simp [swCommandWrite_busy h]

@[simp] theorem illegalWrite_puEn (r : CmdReg) (v : Word) (s : State) :
    (illegalWrite r v s).sw.puEn = s.sw.puEn := by
  cases r
  case adcCmd => rfl
  case swCmd => exact swCommandWrite_puEn (completeSw_puEn .illegalCommand) _ _

@[simp] theorem w1cSw_puEn (v : Word) (w : SwEngine) : (w1cSw v w).puEn = w.puEn := by
  unfold w1cSw
  split <;> rfl

/-! ## The parameters and the pull-up request over a step -/

/-- The parameters are the same (R9), and `sw_pu_en` stays 1 if it was (R23). -/
def KeepsParametersAndPullUp (s t : State) : Prop :=
  t.params = s.params ∧ (s.sw.puEn = true → t.sw.puEn = true)

/-- It is enough that neither is written. -/
theorem KeepsParametersAndPullUp.of_eq {s t : State} (hp : t.params = s.params)
    (hpu : t.sw.puEn = s.sw.puEn) : KeepsParametersAndPullUp s t :=
  ⟨hp, fun h => hpu.trans h⟩

theorem exec_keepsParametersAndPullUp {i : Instr} {s t : State} (h : exec i s = .next t) :
    KeepsParametersAndPullUp s t := by
  obtain ⟨op, run, he, -⟩ | ⟨op, run, he, hrun⟩ := exec_cases i s
  · cases he.symm.trans h
    exact .of_eq rfl rfl
  · cases he.symm.trans h
    obtain ⟨-, -, rfl⟩ | ⟨n, -, -, rfl⟩ := hrun
    · exact .of_eq rfl (swCommandWrite_puEn runRead_puEn op s.sw)
    · exact .of_eq rfl (swCommandWrite_puEn (runReadRetry_puEn n) op s.sw)

theorem memWrite_keepsParametersAndPullUp {off : Offset} {v : Word} {s t : State}
    (h : memWrite off v s = .next t) : KeepsParametersAndPullUp s t := by
  obtain ⟨r, i, -, -, hw⟩ | ⟨r, e, -, -, hw⟩ | ⟨-, hw⟩ | ⟨-, hw⟩ | ⟨-, hw⟩ | ⟨-, -, -, -, -, hw⟩ :=
    memWrite_cases off v s
  · exact exec_keepsParametersAndPullUp (hw.symm.trans h)
  all_goals cases hw.symm.trans h
  · exact .of_eq (illegalWrite_params r v s) (illegalWrite_puEn r v s)
  · exact .of_eq rfl rfl
  · exact .of_eq rfl (w1cSw_puEn v s.sw)
  · exact .of_eq rfl rfl
  · exact .of_eq rfl rfl

theorem hostTurn_keepsParametersAndPullUp {s t : State} (h : hostTurn s = .next t) :
    KeepsParametersAndPullUp s t := by
  obtain ⟨off, v, rest, -, -, -, hw⟩ | ⟨l, ops, rfl⟩ := hostTurn_next h
  · have hkeep := memWrite_keepsParametersAndPullUp hw
    exact hkeep
  · exact .of_eq rfl rfl

theorem tickTurn_keepsParametersAndPullUp (adcDin swIn : Level) (s : State) :
    KeepsParametersAndPullUp s (tickTurn adcDin swIn s) := by
  refine .of_eq (tickTurn_params adcDin swIn s) ?_
  cases h : s.rstN <;> simp [tickTurn, h]

/-- Reset is the one turn that writes `sw_pu_en`: it puts it at 1 (R48). -/
theorem resetTurn_keepsParametersAndPullUp (level : Level) (s : State) :
    KeepsParametersAndPullUp s (resetTurn level s) := by
  refine ⟨resetTurn_params level s, fun hpu => ?_⟩
  cases h : level && s.rstN
  · simp [resetTurn, h, SwEngine.atReset]
  · simpa [resetTurn, h] using hpu

theorem takeTurn_keepsParametersAndPullUp {turn : Turn} {s t : State} (h : takeTurn turn s = .next t) :
    KeepsParametersAndPullUp s t := by
  cases turn with
  | host => exact hostTurn_keepsParametersAndPullUp h
  | tick adcDin swIn =>
    cases h
    exact tickTurn_keepsParametersAndPullUp adcDin swIn s
  | reset level =>
    cases h
    exact resetTurn_keepsParametersAndPullUp level s

/-- Settles O9, by the three kinds of turn a step can be. -/
theorem stepKeepsParametersAndPullUp : Obligations.StepKeepsParametersAndPullUp := by
  unfold Obligations.StepKeepsParametersAndPullUp
  intro s t h
  obtain ⟨-, hturn⟩ := step_next h
  obtain ⟨hparams, -, hsw, -⟩ := nextTurn_keeps s
  rw [← hparams, ← hsw]
  exact takeTurn_keepsParametersAndPullUp hturn

end Sys2Proof.Machine

/-! PROOFS. What a write to the window does to each engine, as a function of the parameters and that engine alone. -/

namespace Sys2Proof.Machine

/-- The own effect of an accepted word at ADC_CMD (R83, R110). -/
def adcWordRun (p : Params) (v : Word) : AdcEngine → AdcEngine :=
  match decode .adcCmd v with
  | .ok (.adcRead ch) => runReadChannel p ch
  | .ok .adcReadall => runReadAll p
  | _ => completeAdc .illegalCommand

/-- The own effect of an accepted word at SW_CMD (R83, R140). -/
def swWordRun (v : Word) : SwEngine → SwEngine :=
  match decode .swCmd v with
  | .ok .swRead => runRead
  | .ok (.swReadretry n) => runReadRetry n
  | _ => completeSw .illegalCommand

/-- The ADC engine after a write to the window. -/
def adcWritten (p : Params) (off : Offset) (v : Word) (a : AdcEngine) : AdcEngine :=
  match regAt off with
  | some .adcCmd => adcCommandWrite (opField v) (adcWordRun p v) a
  | some .adcStatus => w1cAdc v a
  | _ => a

/-- The single-wire engine after a write to the window. -/
def swWritten (off : Offset) (v : Word) (w : SwEngine) : SwEngine :=
  match regAt off with
  | some .swCmd => swCommandWrite (opField v) (swWordRun v) w
  | some .swStatus => w1cSw v w
  | some .swRetryDelay => { w with retryDelay := v }
  | _ => w

/-- What the word at ADC_CMD can be: each command with its OP field, or an ILLEGAL word. -/
theorem adcWordRun_cases (p : Params) (v : Word) :
    (opField v = 0x1#4 ∧ decode .adcCmd v = .ok (.adcRead (chField v)) ∧
      adcWordRun p v = runReadChannel p (chField v)) ∨
    (opField v = 0x2#4 ∧ decode .adcCmd v = .ok .adcReadall ∧ adcWordRun p v = runReadAll p) ∨
    (∃ e, decode .adcCmd v = .error e ∧ adcWordRun p v = completeAdc .illegalCommand) := by
  cases hd : decode .adcCmd v with
  | error e => exact .inr (.inr ⟨e, rfl, by simp [adcWordRun, hd]⟩)
  | ok i =>
    obtain ⟨hop, -, rfl⟩ | ⟨rfl, rfl⟩ := decode_adcCmd_ok hd
    · exact .inl ⟨hop, rfl, by simp [adcWordRun, hd]⟩
    · exact .inr (.inl ⟨rfl, rfl, by simp [adcWordRun, hd]⟩)

/-- What the word at SW_CMD can be: each command with its OP field, or an ILLEGAL word. -/
theorem swWordRun_cases (v : Word) :
    (opField v = 0x1#4 ∧ decode .swCmd v = .ok .swRead ∧ swWordRun v = runRead) ∨
    (opField v = 0x2#4 ∧ decode .swCmd v = .ok (.swReadretry (nField v)) ∧
      swWordRun v = runReadRetry (nField v)) ∨
    (∃ e, decode .swCmd v = .error e ∧ swWordRun v = completeSw .illegalCommand) := by
  cases hd : decode .swCmd v with
  | error e => exact .inr (.inr ⟨e, rfl, by simp [swWordRun, hd]⟩)
  | ok i =>
    obtain ⟨rfl, rfl⟩ | ⟨hop, -, -, rfl⟩ := decode_swCmd_ok hd
    · exact .inl ⟨rfl, rfl, by simp [swWordRun, hd]⟩
    · exact .inr (.inl ⟨hop, rfl, by simp [swWordRun, hd]⟩)

theorem commandWrite_adcCmd (v : Word) (s : State) :
    commandWrite .adcCmd v s =
      .next { s with adc := adcCommandWrite (opField v) (adcWordRun s.params v) s.adc } := by
  obtain ⟨hop, hd, hrun⟩ | ⟨hop, hd, hrun⟩ | ⟨e, hd, hrun⟩ := adcWordRun_cases s.params v
  · rw [commandWrite_ok hd, hop, hrun]; rfl
  · rw [commandWrite_ok hd, hop, hrun]; rfl
  · rw [commandWrite_error hd, hrun]; rfl

theorem commandWrite_swCmd (v : Word) (s : State) :
    commandWrite .swCmd v s = .next { s with sw := swCommandWrite (opField v) (swWordRun v) s.sw } := by
  obtain ⟨hop, hd, hrun⟩ | ⟨hop, hd, hrun⟩ | ⟨e, hd, hrun⟩ := swWordRun_cases v
  · rw [commandWrite_ok hd, hop, hrun]; rfl
  · rw [commandWrite_ok hd, hop, hrun]; rfl
  · rw [commandWrite_error hd, hrun]; rfl

/-- A write to the window always has an effect the spec defines, on each engine by itself (R62). -/
theorem memWrite_eq (off : Offset) (v : Word) (s : State) :
    memWrite off v s =
      .next { s with adc := adcWritten s.params off v s.adc, sw := swWritten off v s.sw } := by
  cases hr : regAt off with
  | none => simp [memWrite, adcWritten, swWritten, hr]
  | some r =>
    cases r <;>
      simp [memWrite, writeReg, adcWritten, swWritten, hr, commandWrite_adcCmd, commandWrite_swCmd]

/-- Of the ADC half, only the command and the status register can be written (R62). -/
theorem adcWritten_elsewhere {off : Offset} (hc : off ≠ regOffset .adcCmd) (hs : off ≠ regOffset .adcStatus)
    (p : Params) (v : Word) (a : AdcEngine) : adcWritten p off v a = a := by
  unfold adcWritten
  split
  · exact absurd (regAt_some ‹_›) hc
  · exact absurd (regAt_some ‹_›) hs
  · rfl

/-- Of the single-wire half, only the command, the status and the delay register can be written (R62). -/
theorem swWritten_elsewhere {off : Offset} (hc : off ≠ regOffset .swCmd) (hs : off ≠ regOffset .swStatus)
    (hd : off ≠ regOffset .swRetryDelay) (v : Word) (w : SwEngine) : swWritten off v w = w := by
  unfold swWritten
  split
  · exact absurd (regAt_some ‹_›) hc
  · exact absurd (regAt_some ‹_›) hs
  · exact absurd (regAt_some ‹_›) hd
  · rfl

/-- A write to the single-wire half does not reach the ADC engine (R24). -/
theorem adcWritten_swHalf {off : Offset} (h : swHalf off = true) (p : Params) (v : Word) (a : AdcEngine) :
    adcWritten p off v a = a := by
  refine adcWritten_elsewhere ?_ ?_ p v a <;> rintro rfl <;> exact absurd h (by decide)

/-- A write to the ADC half does not reach the single-wire engine (R24). -/
theorem swWritten_adcHalf {off : Offset} (h : swHalf off = false) (v : Word) (w : SwEngine) :
    swWritten off v w = w := by
  refine swWritten_elsewhere ?_ ?_ ?_ v w <;> rintro rfl <;> exact absurd h (by decide)

end Sys2Proof.Machine

/-! PROOFS. Every step keeps the invariant of the ADC engine. -/

namespace Sys2Proof.Machine

@[simp] theorem AdcAll.get_zero (c : BitVec 2) : (⟨0#8, 0#8, 0#8, 0#8⟩ : AdcAll).get c = 0#8 := by
  unfold AdcAll.get
  split <;> rfl

namespace AdcInv

variable {p : Params} {a : AdcEngine}

/-- Between transactions, and in the GAP that ends one, the pins are idle (R118, R123). -/
theorem pins_idle (h : AdcInv p a) (hp : a.phase = .idle ∨ a.phase = .gap) : a.pins = AdcPins.idle := by
  have hcs : a.csN = true := by
    rw [← Bool.not_eq_false, h.select]
    rcases hp with hp | hp <;> simp [hp]
  have hclk : a.clk = false := by
    rw [← Bool.not_eq_true, h.clock]
    rcases hp with hp | hp <;> simp [hp]
  have hoe : a.doutOe = false := by
    rw [← Bool.not_eq_true, h.driven]
    rcases hp with hp | hp <;> simp [hp]
  simp [AdcEngine.pins, AdcPins.idle, hcs, hclk, hoe, h.released hoe]

theorem phase_of_idle (h : AdcInv p a) (hb : a.status.busy = false) : a.phase = .idle := by
  by_contra hp
  simp [h.busy_iff.mpr hp] at hb

theorem atReset (hl : p.Legal) : AdcInv p .atReset := by
  obtain ⟨-, ⟨hT, -⟩, -⟩ := legal_ranges hl
  constructor <;> simp [AdcEngine.atReset]
  omega

/-- OVERRUN is independent of all else (R207). -/
theorem overrun (h : AdcInv p a) (b : Bool) :
    AdcInv p { a with status := { a.status with overrun := b } } := { h with }

theorem counted (h : AdcInv p a) (hp : a.phase ≠ .idle) (hc : a.cnt + 1 < p.tAdcPhase) :
    AdcInv p { a with cnt := a.cnt + 1 } := { h with count := ⟨hc, fun hi => absurd hi hp⟩ }

/-- A sample changes the shift register, of which the invariant says nothing. -/
theorem sampled (h : AdcInv p a) (e : SampleEdge) (din : Level) : AdcInv p (sampleAt p e din a) := by
  rw [sampleAt_eq]
  exact { h with }

theorem accept (h : AdcInv p a) (hb : a.status.busy = false) (op : BitVec 4) : AdcInv p (adcAccept op a) :=
  { h with
    busy_clean := fun hb' => by simp [hb] at hb'
    operation := fun hp => absurd (h.phase_of_idle hb) hp
    valid := fun hv => by simp at hv
    codes := .inl rfl }

/-- A completion with the pins already idle (R125). What it reports may be VALID only after a READ_CHANNEL (R28). -/
theorem complete {kind : ErrCode} (hl : p.Legal) (pins : a.pins = AdcPins.idle) (cycles : a.cycle ≤ 13)
    (unused : ∀ c : BitVec 2, p.adcChannels ≤ c.toNat → a.all.get c = 0#8)
    (valid : a.result.valid = true →
      kind = .ok ∧ a.status.op = 0x1#4 ∧ a.result.channel.toNat < p.adcChannels)
    (codes : kind = .ok ∨ kind = .invalidChannel ∨ kind = .illegalCommand) :
    AdcInv p (completeAdc kind a) := by
  obtain ⟨-, ⟨hT, -⟩, -⟩ := legal_ranges hl
  obtain ⟨hcs, hclk, hdout, hoe⟩ : a.csN = true ∧ a.clk = false ∧ a.dout = false ∧ a.doutOe = false := by
    simpa [AdcEngine.pins, AdcPins.idle] using pins
  exact {
    busy_iff := by simp
    busy_clean := by simp
    select := by simp [hcs]
    clock := by simp [hclk]
    driven := by simp [hoe]
    released := fun _ => hdout
    count := ⟨by simp; omega, fun _ => rfl⟩
    cycles := cycles
    channel := by simp
    operation := by simp
    unused := unused
    valid := fun hv => ⟨rfl, valid hv⟩
    codes := codes }

/-- The start of a transaction of a command that runs (R114). -/
theorem start {c : BitVec 2} (hl : p.Legal) (hb : a.status.busy = true)
    (clean : a.status.done = false ∧ a.status.err = .ok ∧ a.result.valid = false) (hc : c.toNat < p.adcChannels)
    (operation : (a.op = .readChannel ∧ a.status.op = 0x1#4) ∨ (a.op = .readAll ∧ a.status.op = 0x2#4))
    (unused : ∀ c : BitVec 2, p.adcChannels ≤ c.toNat → a.all.get c = 0#8) :
    AdcInv p (startTransaction p c a) := by
  obtain ⟨-, ⟨hT, -⟩, -⟩ := legal_ranges hl
  obtain ⟨hdone, herr, hvalid⟩ := clean
  exact {
    busy_iff := by simp [hb]
    busy_clean := fun _ => ⟨hdone, herr, hvalid⟩
    select := by simp
    clock := by simp
    driven := by simp
    released := by simp
    count := ⟨by simp; omega, by simp⟩
    cycles := by simp
    channel := fun _ => hc
    operation := fun _ => operation
    unused := unused
    valid := by simp [hvalid]
    codes := .inl herr }

/-! ## Command writes -/

theorem runReadChannel (h : AdcInv p a) (hl : p.Legal) (hb : a.status.busy = false) (ch : Nat) :
    AdcInv p (runReadChannel p ch (adcAccept 0x1#4 a)) := by
  have ha := h.accept hb 0x1#4
  obtain ⟨⟨-, hN⟩, -⟩ := legal_ranges hl
  rcases Nat.lt_or_ge ch p.adcChannels with hc | hc
  · rw [runReadChannel_valid hc]
    refine start hl rfl ⟨rfl, rfl, rfl⟩ ?_ (.inl ⟨rfl, rfl⟩) h.unused
    rw [BitVec.toNat_ofNat, Nat.mod_eq_of_lt (by omega)]
    exact hc
  · rw [runReadChannel_invalid hc]
    exact complete hl (ha.pins_idle (.inl (h.phase_of_idle hb))) h.cycles h.unused (by simp) (.inr (.inl rfl))

theorem runReadAll (hl : p.Legal) : AdcInv p (runReadAll p (adcAccept 0x2#4 a)) := by
  obtain ⟨⟨hN, -⟩, -⟩ := legal_ranges hl
  exact start hl rfl ⟨rfl, rfl, rfl⟩ hN (.inr ⟨rfl, rfl⟩) fun c _ => AdcAll.get_zero c

theorem illegalWord (h : AdcInv p a) (hl : p.Legal) (hb : a.status.busy = false) (op : BitVec 4) :
    AdcInv p (completeAdc .illegalCommand (adcAccept op a)) :=
  complete hl ((h.accept hb op).pins_idle (.inl (h.phase_of_idle hb))) h.cycles h.unused (by simp)
    (.inr (.inr rfl))

theorem commandWrite (h : AdcInv p a) (hl : p.Legal) (v : Word) :
    AdcInv p (adcCommandWrite (opField v) (adcWordRun p v) a) := by
  cases hb : a.status.busy with
  | true =>
    rw [adcCommandWrite_busy hb]
    exact h.overrun true
  | false =>
    rw [adcCommandWrite_idle hb]
    obtain ⟨hop, -, hrun⟩ | ⟨hop, -, hrun⟩ | ⟨e, -, hrun⟩ := adcWordRun_cases p v
    · rw [hop, hrun]; exact h.runReadChannel hl hb (chField v)
    · rw [hop, hrun]; exact runReadAll hl
    · rw [hrun]; exact h.illegalWord hl hb (opField v)

theorem written (h : AdcInv p a) (hl : p.Legal) (off : Offset) (v : Word) : AdcInv p (adcWritten p off v a) := by
  unfold adcWritten
  split
  · exact h.commandWrite hl v
  · unfold w1cAdc
    split
    · exact h.overrun false
    · exact h
  · exact h

/-! ## Ticks -/

/-- A running transaction goes on to its next phase (R121): what is left to show is the levels of its pins there. -/
theorem advance {next : AdcPhase} {cycle : Nat} {csN clk dout doutOe : Level} (h : AdcInv p a)
    (hp : a.phase ≠ .idle) (hn : next ≠ .idle) (cycles : cycle ≤ 13)
    (select : csN = false ↔ (next = .setup ∨ next = .low ∨ next = .high ∨ next = .ending))
    (clock : clk = true ↔ next = .high)
    (driven : doutOe = true ↔ (next = .setup ∨ ((next = .low ∨ next = .high) ∧ cycle ≤ 4)))
    (released : doutOe = false → dout = false) :
    AdcInv p { a with
      phase := next, cycle := cycle, csN := csN, clk := clk, dout := dout, doutOe := doutOe } :=
  { h with
    busy_iff := by simp [h.busy_iff.mpr hp, hn]
    select := select
    clock := clock
    driven := driven
    released := released
    count := ⟨h.count.1, fun hi => absurd hi hn⟩
    cycles := cycles
    channel := fun _ => h.channel hp
    operation := fun _ => h.operation hp }

/-- The first cycle follows SETUP, and the later ones each other (R116). -/
theorem enterLow {k : Nat} (h : AdcInv p a) (hk : k ≤ 13)
    (hp : (a.phase = .setup ∧ k = 0) ∨ (a.phase = .high ∧ k = a.cycle + 1)) : AdcInv p (enterLow k a) := by
  have running : a.phase ≠ .idle := by rcases hp with ⟨hp, -⟩ | ⟨hp, -⟩ <;> simp [hp]
  have selected : a.csN = false := h.select.mpr (by rcases hp with ⟨hp, -⟩ | ⟨hp, -⟩ <;> simp [hp])
  have undriven : 5 < k → a.doutOe = false := fun h5 => by
    rw [← Bool.not_eq_true, h.driven]
    rcases hp with ⟨-, rfl⟩ | ⟨hp, rfl⟩
    · omega
    · simp [hp]; omega
  have hoe : (Machine.enterLow k a).doutOe = decide (k ≤ 4) := by
    rcases Nat.lt_or_ge 5 k with h5 | h5
    · simp [undriven h5]
    · simp; omega
  have released : (Machine.enterLow k a).doutOe = false → (Machine.enterLow k a).dout = false := fun hr => by
    have h4 : ¬ k ≤ 4 := by simpa using hoe.symm.trans hr
    by_cases h5 : k = 5
    · simp [h5]
    · simpa [h4, h5] using h.released (undriven (by omega))
  have driven : (Machine.enterLow k a).doutOe = true ↔ k ≤ 4 := by rw [hoe, decide_eq_true_eq]
  exact h.advance running (by decide) hk (by simp [selected]) (by simp) (driven.trans (by simp)) released

/-- The clock rises at the end of LOW (R115). -/
theorem clockRise (h : AdcInv p a) (hp : a.phase = .low) : AdcInv p { a with clk := true, phase := .high } :=
  h.advance (by simp [hp]) (by decide) h.cycles (by simp [h.select, hp]) (by simp) (by simp [h.driven, hp])
    h.released

/-- The clock falls for the last time at the end of cycle 13, where the data wire is no longer driven (R115, R118). -/
theorem lastClockFall (h : AdcInv p a) (hp : a.phase = .high) (hc : 13 ≤ a.cycle) :
    AdcInv p { a with clk := false, phase := .ending } :=
  have undriven : ¬ a.cycle ≤ 4 := by omega
  h.advance (by simp [hp]) (by decide) h.cycles (by simp [h.select, hp]) (by simp)
    (by simp [h.driven, hp, undriven]) h.released

/-- The chip is deselected at the end of END (R118). -/
theorem deselect (h : AdcInv p a) (hp : a.phase = .ending) :
    AdcInv p { a with csN := true, dout := false, doutOe := false, phase := .gap } :=
  h.advance (by simp [hp]) (by decide) h.cycles (by simp) (by simp [h.clock, hp]) (by simp) fun _ => rfl

/-- A sample goes to a channel that exists (R124), so the other fields of ADC_ALL stay 0 (R29). -/
theorem unused_set (h : AdcInv p a) (hp : a.phase ≠ .idle) (v : Byte) (c : BitVec 2) (hc : p.adcChannels ≤ c.toNat) :
    (a.all.set a.ch v).get c = 0#8 := by
  have hne : c ≠ a.ch := by
    rintro rfl
    have := h.channel hp
    omega
  rw [AdcAll.get_set, if_neg hne]
  exact h.unused c hc

/-- The end of GAP completes the command or starts the next channel (R119, R120, R124). -/
theorem transactionEnd (h : AdcInv p a) (hl : p.Legal) (hp : a.phase = .gap) : AdcInv p (transactionEnd p a) := by
  have running : a.phase ≠ .idle := by simp [hp]
  have hbusy := h.busy_iff.mpr running
  have hpins := h.pins_idle (.inr hp)
  have hall := h.unused_set running a.shift
  obtain ⟨hdone, herr, hvalid⟩ := h.busy_clean hbusy
  unfold Machine.transactionEnd
  obtain ⟨hop, hstatus⟩ | ⟨hop, hstatus⟩ := h.operation running
  · simp only [hop]
    exact complete hl hpins h.cycles h.unused (fun _ => ⟨rfl, hstatus, h.channel running⟩) (.inl rfl)
  · simp only [hop]
    split
    · rename_i hnext
      refine start hl hbusy ⟨hdone, herr, hvalid⟩ ?_ (.inr ⟨rfl, hstatus⟩) hall
      obtain ⟨⟨-, hN⟩, -⟩ := legal_ranges hl
      rw [BitVec.toNat_add, BitVec.toNat_ofNat, Nat.mod_eq_of_lt (by omega)]
      omega
    · exact complete hl hpins h.cycles hall (fun hv => by simp [hvalid] at hv) (.inl rfl)

theorem phaseEnd (h : AdcInv p a) (hl : p.Legal) (din : Level) : AdcInv p (adcPhaseEnd p din a) := by
  cases hp : a.phase <;> simp only [adcPhaseEnd, hp]
  case idle => exact h
  case setup => exact h.enterLow (by omega) (.inl ⟨hp, rfl⟩)
  case low =>
    have hs := h.sampled .rising din
    refine hs.clockRise ?_
    rw [sampleAt_eq]
    exact hp
  case high =>
    have hs := h.sampled .falling din
    have hsp : (sampleAt p .falling din a).phase = .high := by
      rw [sampleAt_eq]
      exact hp
    split
    · exact hs.enterLow (by omega) (.inr ⟨hsp, rfl⟩)
    · exact hs.lastClockFall hsp (by omega)
  case ending => exact h.deselect hp
  case gap => exact h.transactionEnd hl hp

theorem tick (h : AdcInv p a) (hl : p.Legal) (din : Level) : AdcInv p (adcTick p din a) := by
  obtain ⟨-, ht⟩ | ⟨hp, hc, ht⟩ | ⟨hp, hc, ht⟩ := adcTick_cases p din a <;> rw [ht]
  · exact h
  · exact h.counted hp hc
  · obtain ⟨-, ⟨hT, -⟩, -⟩ := legal_ranges hl
    have hzero : AdcInv p { a with cnt := 0 } := { h with count := ⟨by show 0 < _; omega, fun _ => rfl⟩ }
    exact hzero.phaseEnd hl din

end AdcInv
end Sys2Proof.Machine

/-! PROOFS. Every step keeps the invariant of the single-wire engine. -/

namespace Sys2Proof.Machine

/-- A Reading stands that is the value of a frame in the frame registers which passed both checks (R34, R160). -/
structure ReadingStands (p : Params) (w : SwEngine) : Prop where
  valid : w.reading.valid = true
  full : w.frame1.full = true
  csumOk : w.frame1.csumOk = true
  humidity : w.reading.humidity = w.frame0.humInt
  temperature : w.reading.temperature = temperatureByte (tempDecode p.tempEncoding w.frame0.tempInt)
  range : (w.frame0.humInt.toNat : Int) ≤ p.humMax ∧ p.tempMin ≤ tempDecode p.tempEncoding w.frame0.tempInt ∧
    tempDecode p.tempEncoding w.frame0.tempInt ≤ p.tempMax

/-- What holds of a running command with the line released, whatever the frame registers hold (R144, R161, R184). -/
structure AttemptLive (w : SwEngine) : Prop where
  running : w.status.busy = true ∧ w.status.done = false ∧ w.status.err = .ok
  line : w.oe = false ∧ w.out = true ∧ w.puEn = true
  bits : w.bit ≤ 40
  budget : 1 ≤ w.status.attempts.toNat ∧ w.status.attempts.toNat ≤ w.rtMax.toNat
  mode : (w.rtRetry = false ∧ w.rtMax = 1#8 ∧ w.status.op = 0x1#4) ∨ (w.rtRetry = true ∧ w.status.op = 0x2#4)

/-- What holds when the attempt has ended and `AttemptEnd(kind)` decides (R184): the frame registers are sound, and a
Reading stands for the kind OK only. -/
structure AttemptOver (p : Params) (kind : ErrCode) (w : SwEngine) : Prop extends AttemptLive w where
  not_full : w.frame1.full = false → w.frame0 = .zero ∧ w.frame1 = .zero
  csum : w.frame1.full = true →
    (w.frame1.csumOk = true ↔
      checksum w.frame0.humInt w.frame0.humFrac w.frame0.tempInt w.frame0.tempFrac = w.frame1.checksum)
  stands : kind = .ok → ReadingStands p w
  none_stands : kind ≠ .ok → w.reading = .zero
  kinds : kind = .ok ∨ kind = .noResponse ∨ kind = .truncated ∨ kind = .checksumError ∨ kind = .outOfRange

namespace SwInv

variable {p : Params} {w : SwEngine}

theorem phase_of_idle (h : SwInv p w) (hb : w.status.busy = false) : w.phase = .idle := by
  by_contra hp
  simp [h.busy_iff.mpr hp] at hb

theorem atReset : SwInv p (.atReset p) := by
  constructor <;> simp [SwEngine.atReset, swCountBound, SwReading.zero, SwFrame1.zero]

/-- OVERRUN is independent of all else (R207). -/
theorem overrun (h : SwInv p w) (b : Bool) :
    SwInv p { w with status := { w.status with overrun := b } } := { h with }

/-- A running command uses its latched delay (R181), so SW_RETRY_DELAY is independent of all else. -/
theorem setRetryDelay (h : SwInv p w) (v : Word) : SwInv p { w with retryDelay := v } := { h with }

theorem accept (h : SwInv p w) (hb : w.status.busy = false) (op : BitVec 4) : SwInv p (swAccept op w) := by
  have running : w.status.busy ≠ true := by simp [hb]
  exact { h with
    busy_clean := fun hb' => absurd hb' running
    not_valid := fun _ => rfl
    valid := fun hv => by simp [SwReading.zero] at hv
    done_ok := fun hd => by simp at hd
    budget := fun hb' => absurd hb' running
    mode := fun hb' => absurd hb' running
    delay := fun hp => absurd (h.busy_iff.mpr (by simp at hp; simp [hp])) running
    last := .inl rfl
    codes := fun hd => by simp at hd }

/-- While no command runs, the retry latches count for nothing (R42). -/
theorem latch (h : SwInv p w) (hp : w.phase = .idle) (retry : Bool) (budget : Byte) (delay : Word) :
    SwInv p { w with rtRetry := retry, rtMax := budget, rtDelay := delay } :=
  have running : w.status.busy ≠ true := by simp [h.busy_iff, hp]
  { h with
    count := by simpa [swCountBound, hp] using h.count
    budget := fun hb => absurd hb running
    mode := fun hb => absurd hb running
    delay := fun hd => by simp [hp] at hd }

/-- A completion in the acceptance touches no pin and leaves no Reading (R183, R203). -/
theorem complete {kind : ErrCode} (h : SwInv p w) (hp : w.phase = .idle) (hr : w.reading = .zero)
    (codes : kind = .illegalCommand ∨ (w.status.op = 0x2#4 ∧ kind = .sensorUnavailable)) :
    SwInv p (completeSw kind w) := by
  have hk : kind ≠ .ok := by rcases codes with rfl | ⟨-, rfl⟩ <;> decide
  exact { h with
    busy_iff := by simp
    busy_clean := by simp
    driven := by simp [h.driven, hp]
    low := by simp [h.low, hp]
    count := by simp [swCountBound]
    bits := ⟨h.bits.1, by simp⟩
    attempt_clear := by simp
    valid := by simp [hr, SwReading.zero]
    done_ok := by simp [hr, hk, SwReading.zero]
    budget := by simp
    mode := by simp
    delay := by simp
    codes := fun _ => codes.imp_right fun ⟨hop, hk⟩ => .inr ⟨hop, .inr hk⟩ }

/-- The start of an attempt of a command that runs and has one left (R142). -/
theorem start (hl : p.Legal)
    (running : w.status.busy = true ∧ w.status.done = false ∧ w.status.err = .ok) (hr : w.reading = .zero)
    (pullUp : w.puEn = true) (budget : w.status.attempts.toNat < w.rtMax.toNat)
    (mode : (w.rtRetry = false ∧ w.rtMax = 1#8 ∧ w.status.op = 0x1#4) ∨ (w.rtRetry = true ∧ w.status.op = 0x2#4))
    (last : w.status.lastErr = .ok ∨ w.status.lastErr = .noResponse ∨ w.status.lastErr = .truncated ∨
      w.status.lastErr = .checksumError ∨ w.status.lastErr = .outOfRange) :
    SwInv p (startAttempt w) := by
  obtain ⟨hbusy, hdone, herr⟩ := running
  obtain ⟨-, -, ⟨hlow, -⟩, -⟩ := legal_ranges hl
  have attempts : (w.status.attempts + 1#8).toNat = w.status.attempts.toNat + 1 := by
    rw [BitVec.toNat_add, BitVec.toNat_ofNat]; omega
  exact {
    busy_iff := by simp [hbusy]
    busy_clean := fun _ => ⟨hdone, herr, hr⟩
    driven := by simp
    low := by simp
    pullUp := pullUp
    count := by simp [swCountBound]; omega
    bits := by simp
    attempt_clear := fun _ => ⟨rfl, rfl⟩
    not_full := fun _ => ⟨rfl, rfl⟩
    csum := by simp [SwFrame1.zero]
    not_valid := fun _ => hr
    valid := by simp [hr, SwReading.zero]
    done_ok := by simp [hdone]
    budget := fun _ => by simp [attempts]; omega
    mode := fun _ => mode
    delay := by simp
    last := last
    codes := by simp [hdone] }

end SwInv

/-! ## The end of an attempt -/

namespace AttemptOver

variable {p : Params} {kind : ErrCode} {w : SwEngine}

/-- The three completions of R184. -/
theorem complete {err : ErrCode} (h : AttemptOver p kind w) (ok_iff : err = .ok ↔ kind = .ok)
    (codes : (w.status.op = 0x1#4 ∧ err = kind) ∨ (w.status.op = 0x2#4 ∧ (err = .ok ∨ err = .sensorUnavailable))) :
    SwInv p (completeSw err { w with status := { w.status with lastErr := kind } }) := by
  obtain ⟨hoe, hout, hpu⟩ := h.line
  have reading_iff : w.reading.valid = true ↔ kind = .ok := by
    refine ⟨fun hv => ?_, fun hk => (h.stands hk).valid⟩
    by_contra hk
    simp [h.none_stands hk, SwReading.zero] at hv
  exact {
    busy_iff := by simp
    busy_clean := by simp
    driven := by simp [hoe]
    low := by simp [hout]
    pullUp := hpu
    count := by simp [swCountBound]
    bits := ⟨h.bits, by simp⟩
    attempt_clear := by simp
    not_full := h.not_full
    csum := h.csum
    not_valid := fun hv => h.none_stands fun hk => by simp [(h.stands hk).valid] at hv
    valid := fun hv =>
      have r := h.stands (reading_iff.mp hv)
      ⟨rfl, r.full, r.csumOk, r.humidity, r.temperature, r.range⟩
    done_ok := fun _ => reading_iff.trans ok_iff.symm
    budget := by simp
    mode := by simp
    delay := by simp
    last := h.kinds
    codes := fun _ => .inr codes }

/-- The delay between two attempts of a READ_RETRY (R185). -/
theorem delayed (h : AttemptOver p kind w) (hk : kind ≠ .ok) (hretry : w.rtRetry = true)
    (hleft : w.status.attempts.toNat < w.rtMax.toNat) (hdelay : w.rtDelay ≠ 0#32) :
    SwInv p { w with status := { w.status with lastErr := kind }, phase := .delay, cnt := 0#32 } := by
  obtain ⟨hbusy, hdone, herr⟩ := h.running
  obtain ⟨hoe, hout, hpu⟩ := h.line
  have hr := h.none_stands hk
  exact {
    busy_iff := by simp [hbusy]
    busy_clean := fun _ => ⟨hdone, herr, hr⟩
    driven := by simp [hoe]
    low := by simp [hout]
    pullUp := hpu
    count := Nat.pos_of_ne_zero fun h0 => hdelay (BitVec.eq_of_toNat_eq h0)
    bits := ⟨h.bits, by simp⟩
    attempt_clear := by simp
    not_full := h.not_full
    csum := h.csum
    not_valid := fun _ => hr
    valid := by simp [hr, SwReading.zero]
    done_ok := by simp [hdone]
    budget := fun _ => h.budget
    mode := fun _ => h.mode
    delay := fun _ => ⟨hretry, hdelay, hleft⟩
    last := h.kinds
    codes := by simp [hdone] }

/-- Whatever the end of an attempt decides, the invariant holds (R184). -/
theorem attemptEnd (h : AttemptOver p kind w) (hl : p.Legal) : SwInv p (attemptEnd kind w) := by
  obtain ⟨rfl, he⟩ | ⟨hk, hread, he⟩ | ⟨hk, hretry, hspent, he⟩ | ⟨hk, hretry, hleft, hdelay, he⟩ |
    ⟨hk, hretry, hleft, hdelay, he⟩ := attemptEnd_cases kind w <;> rw [he]
  · exact h.complete Iff.rfl (h.mode.imp (fun ⟨_, _, hop⟩ => ⟨hop, rfl⟩) fun ⟨_, hop⟩ => ⟨hop, .inl rfl⟩)
  · have hop : w.status.op = 0x1#4 := by simpa [hread] using h.mode.imp_left fun ⟨_, _, hop⟩ => hop
    exact h.complete Iff.rfl (.inl ⟨hop, rfl⟩)
  · have hop : w.status.op = 0x2#4 := by simpa [hretry] using h.mode
    exact h.complete (by simp [hk]) (.inr ⟨hop, .inr rfl⟩)
  · obtain ⟨-, -, hpu⟩ := h.line
    exact SwInv.start hl h.running (h.none_stands hk) hpu hleft h.mode h.kinds
  · exact h.delayed hk hretry hleft hdelay

end AttemptOver

/-- An attempt that failed leaves no Reading (R184). -/
theorem AttemptLive.failed {p : Params} {kind : ErrCode} {w : SwEngine} (h : AttemptLive w) (hr : w.reading = .zero)
    (not_full : w.frame1.full = false → w.frame0 = .zero ∧ w.frame1 = .zero)
    (csum : w.frame1.full = true →
      (w.frame1.csumOk = true ↔
        checksum w.frame0.humInt w.frame0.humFrac w.frame0.tempInt w.frame0.tempFrac = w.frame1.checksum))
    (hk : kind = .noResponse ∨ kind = .truncated ∨ kind = .checksumError ∨ kind = .outOfRange) :
    AttemptOver p kind w :=
  { h with
    not_full := not_full
    csum := csum
    stands := by rcases hk with rfl | rfl | rfl | rfl <;> simp
    none_stands := fun _ => hr
    kinds := .inr hk }

/-- The frame registers hold the received frame, and what its checks find decides (R153 to R160). -/
theorem AttemptLive.frameComplete {p : Params} {w : SwEngine} (h : AttemptLive w) (hl : p.Legal)
    (hr : w.reading = .zero) : SwInv p (frameComplete p w) := by
  obtain ⟨hsum, he⟩ | ⟨hsum, -, he⟩ | ⟨hsum, hrange, he⟩ := frameComplete_cases p w <;> rw [he] <;>
    refine AttemptOver.attemptEnd ?_ hl
  · exact failed { h with } hr (by simp) (by simp [hsum]) (by simp)
  · exact failed { h with } hr (by simp) (by simp [hsum]) (by simp)
  · exact { h with
      not_full := by simp
      csum := by simp [hsum]
      stands := fun _ => ⟨rfl, rfl, rfl, rfl, rfl, of_decide_eq_true hrange⟩
      none_stands := by simp
      kinds := by simp }

/-! ## Ticks -/

/-- A wait for the sensor, with the line released (R146 to R148). -/
abbrev SwPhase.Waits (ph : SwPhase) : Prop := ph.InAttempt ∧ ph ≠ .startLow ∧ ph ≠ .release

theorem swCountBound_pos {p : Params} (hl : p.Legal) {w : SwEngine} (hp : w.phase.InAttempt) :
    0 < swCountBound p w := by
  have := legal_ranges hl
  obtain ⟨hidle, hdelay⟩ := hp
  cases hph : w.phase <;> simp only [swCountBound, hph]
  case idle => contradiction
  case delay => contradiction
  all_goals omega

theorem swCountBound_lt {p : Params} (hl : p.Legal) (w : SwEngine) : swCountBound p w < 2 ^ 32 := by
  have := legal_ranges hl
  have := w.rtDelay.isLt
  cases hph : w.phase <;> simp only [swCountBound, hph] <;> omega

theorem swCountBound_waits {p : Params} {w : SwEngine} (hp : w.phase.Waits) : swCountBound p w = p.tWaitTimeout := by
  obtain ⟨⟨hidle, hdelay⟩, hlow, hrelease⟩ := hp
  cases hph : w.phase <;> simp only [swCountBound, hph]
  case idle => contradiction
  case delay => contradiction
  case startLow => contradiction
  case release => contradiction

namespace SwInv

variable {p : Params} {w : SwEngine}

/-- A tick that does not reach the bound of the phase only counts. -/
theorem counted (h : SwInv p w) (hl : p.Legal) (hc : (w.cnt + 1#32).toNat ≠ swCountBound p w) :
    SwInv p { w with cnt := w.cnt + 1#32 } :=
  { h with
    count := by
      have hlt := h.count
      have hsucc := cnt_succ_toNat hlt (swCountBound_lt hl w)
      show (w.cnt + 1#32).toNat < swCountBound p w
      omega }

/-- An attempt goes on to its next phase (R143 to R148), with the counter at 0. -/
theorem advance {next : SwPhase} {bit : Nat} {oe out : Level} (h : SwInv p w) (hl : p.Legal)
    (hp : w.phase.InAttempt) (hn : next.InAttempt) (hbit : bit < 40)
    (hoe : oe = true ↔ (next = .startLow ∨ next = .release)) (hout : out = false ↔ next = .startLow)
    (frame : BitVec 40) :
    SwInv p { w with phase := next, cnt := 0#32, bit := bit, frame := frame, oe := oe, out := out } :=
  have hbusy := h.busy_iff.mpr hp.1
  { h with
    busy_iff := by simp [hbusy, hn.1]
    driven := hoe
    low := hout
    count := swCountBound_pos hl hn
    bits := ⟨hbit.le, fun _ => hbit⟩
    attempt_clear := fun _ => h.attempt_clear hp
    delay := fun hd => absurd hd hn.2 }

/-- In a wait for the sensor the line is released, and the command runs within its budget. -/
theorem live (h : SwInv p w) (hp : w.phase.Waits) : AttemptLive w := by
  obtain ⟨hin, hlow, hrelease⟩ := hp
  have hbusy := h.busy_iff.mpr hin.1
  obtain ⟨hdone, herr, -⟩ := h.busy_clean hbusy
  exact {
    running := ⟨hbusy, hdone, herr⟩
    line := ⟨by simp [← Bool.not_eq_true, h.driven, hlow, hrelease], by simp [← Bool.not_eq_false, h.low, hlow],
      h.pullUp⟩
    bits := h.bits.1
    budget := h.budget hbusy
    mode := h.mode hbusy }

/-- A wait that runs out ends the attempt with NO_RESPONSE or TRUNCATED (R146). -/
theorem timedOut {kind : ErrCode} (h : SwInv p w) (hl : p.Legal) (hp : w.phase.Waits)
    (hk : kind = .noResponse ∨ kind = .truncated) (c : BitVec 32) :
    SwInv p (attemptEnd kind { w with cnt := c }) := by
  obtain ⟨-, -, hr⟩ := h.busy_clean (h.busy_iff.mpr hp.1.1)
  have live : AttemptLive { w with cnt := c } := { h.live hp with }
  exact (live.failed hr h.not_full h.csum (hk.imp_right .inl)).attemptEnd hl

theorem waitStep {level : Level} {next : SwPhase} {kind : ErrCode} (h : SwInv p w) (hl : p.Legal)
    (hp : w.phase.Waits) (hn : next.Waits) (hk : kind = .noResponse ∨ kind = .truncated) (swIn : Level) :
    SwInv p (waitStep p level next kind swIn w) := by
  obtain ⟨hoe, hout, -⟩ := (h.live hp).line
  obtain ⟨-, he⟩ | ⟨-, -, he⟩ | ⟨-, hc, he⟩ := waitStep_cases p level next kind swIn w <;> rw [he]
  · exact h.advance hl hp.1 hn.1 (h.bits.2 hp.1) (by simp [hoe, hn.2]) (by simp [hout, hn.2]) w.frame
  · exact h.timedOut hl hp hk _
  · exact h.counted hl (by rw [swCountBound_waits hp]; exact hc)

theorem bitLowStep (h : SwInv p w) (hl : p.Legal) (hp : w.phase = .bitL) (swIn : Level) :
    SwInv p (bitLowStep p swIn w) := by
  have hw : w.phase.Waits := by rw [hp]; decide
  have hlive := h.live hw
  obtain ⟨hoe, hout, -⟩ := hlive.line
  have hbit := h.bits.2 hw.1
  obtain ⟨-, -, he⟩ | ⟨-, hmore, he⟩ | ⟨-, -, he⟩ | ⟨-, hc, he⟩ := bitLowStep_cases p swIn w <;> rw [he]
  · obtain ⟨-, -, hr⟩ := h.busy_clean (h.busy_iff.mpr hw.1.1)
    have hreceived : AttemptLive (bitReceived p w) := { hlive with bits := hbit }
    exact hreceived.frameComplete hl hr
  · exact h.advance (bit := w.bit + 1) (oe := w.oe) (out := w.out) hl hw.1 (by decide) (by omega) (by simp [hoe])
      (by simp [hout]) _
  · exact h.timedOut hl hw (.inr rfl) _
  · exact h.counted hl (by rw [swCountBound_waits hw]; exact hc)

theorem startLowStep (h : SwInv p w) (hl : p.Legal) (hp : w.phase = .startLow) : SwInv p (startLowStep p w) := by
  have hin : w.phase.InAttempt := by rw [hp]; decide
  obtain ⟨-, he⟩ | ⟨hc, he⟩ := startLowStep_cases p w <;> rw [he]
  · exact h.advance hl hin (by decide) (h.bits.2 hin) (by simp [h.driven, hp]) (by simp) w.frame
  · exact h.counted hl (by simpa only [swCountBound, hp] using hc)

theorem releaseStep (h : SwInv p w) (hl : p.Legal) (hp : w.phase = .release) : SwInv p (releaseStep p w) := by
  have hin : w.phase.InAttempt := by rw [hp]; decide
  obtain ⟨-, he⟩ | ⟨hc, he⟩ := releaseStep_cases p w <;> rw [he]
  · exact h.advance hl hin (by decide) (h.bits.2 hin) (by simp) (by simp [h.low, hp]) w.frame
  · exact h.counted hl (by simpa only [swCountBound, hp] using hc)

/-- The delay ends in the next attempt (R185). -/
theorem retryDelayTick (h : SwInv p w) (hl : p.Legal) (hp : w.phase = .delay) : SwInv p (retryDelayTick w) := by
  obtain ⟨-, he⟩ | ⟨hc, he⟩ := retryDelayTick_cases w <;> rw [he]
  · have hbusy := h.busy_iff.mpr (by simp [hp])
    obtain ⟨hdone, herr, hr⟩ := h.busy_clean hbusy
    obtain ⟨-, -, hleft⟩ := h.delay hp
    exact start hl ⟨hbusy, hdone, herr⟩ hr h.pullUp hleft (h.mode hbusy) h.last
  · refine h.counted hl ?_
    simpa only [swCountBound, hp, ne_eq, BitVec.toNat_inj] using hc

theorem tick (h : SwInv p w) (hl : p.Legal) (swIn : Level) : SwInv p (swTick p swIn w) := by
  cases hp : w.phase <;> simp only [swTick, hp]
  case idle => exact h
  case startLow => exact h.startLowStep hl hp
  case release => exact h.releaseStep hl hp
  case ack0 => exact h.waitStep hl (by rw [hp]; decide) (by decide) (.inl rfl) swIn
  case ack1 => exact h.waitStep hl (by rw [hp]; decide) (by decide) (.inl rfl) swIn
  case ack2 => exact h.waitStep hl (by rw [hp]; decide) (by decide) (.inl rfl) swIn
  case bitH => exact h.waitStep hl (by rw [hp]; decide) (by decide) (.inr rfl) swIn
  case bitL => exact h.bitLowStep hl hp swIn
  case delay => exact h.retryDelayTick hl hp

/-! ## Command writes -/

theorem runRead (h : SwInv p w) (hl : p.Legal) :
    SwInv p (runRead (swAccept 0x1#4 w)) :=
  start hl ⟨rfl, rfl, rfl⟩ rfl h.pullUp (by simp) (.inl ⟨rfl, rfl, rfl⟩) (.inl rfl)

/-- A budget the word can hold (R89) is latched as it is (R182); a budget of 0 completes at once (R183). -/
theorem runReadRetry {n : Nat} (h : SwInv p w) (hl : p.Legal) (hb : w.status.busy = false) (hn : n ≤ 255) :
    SwInv p (runReadRetry n (swAccept 0x2#4 w)) := by
  by_cases h0 : n = 0
  · subst h0
    rw [runReadRetry_zero]
    have hp := h.phase_of_idle hb
    exact ((h.accept hb 0x2#4).latch hp true 0#8 w.retryDelay).complete hp rfl (.inr ⟨rfl, rfl⟩)
  · rw [runReadRetry_pos h0]
    refine start hl ⟨rfl, rfl, rfl⟩ rfl h.pullUp ?_ (.inr ⟨rfl, rfl⟩) (.inl rfl)
    show 0 < (BitVec.ofNat 8 n).toNat
    rw [BitVec.toNat_ofNat]
    omega

theorem illegalWord (h : SwInv p w) (hb : w.status.busy = false) (op : BitVec 4) :
    SwInv p (completeSw .illegalCommand (swAccept op w)) :=
  (h.accept hb op).complete (h.phase_of_idle hb) rfl (.inl rfl)

theorem commandWrite (h : SwInv p w) (hl : p.Legal) (v : Word) :
    SwInv p (swCommandWrite (opField v) (swWordRun v) w) := by
  cases hb : w.status.busy with
  | true =>
    rw [swCommandWrite_busy hb]
    exact h.overrun true
  | false =>
    rw [swCommandWrite_idle hb]
    obtain ⟨hop, -, hrun⟩ | ⟨hop, -, hrun⟩ | ⟨e, -, hrun⟩ := swWordRun_cases v
    · rw [hop, hrun]; exact h.runRead hl
    · rw [hop, hrun]; exact h.runReadRetry hl hb (nField_le v)
    · rw [hrun]; exact h.illegalWord hb (opField v)

theorem written (h : SwInv p w) (hl : p.Legal) (off : Offset) (v : Word) : SwInv p (swWritten off v w) := by
  unfold swWritten
  split
  · exact h.commandWrite hl v
  · unfold w1cSw
    split
    · exact h.overrun false
    · exact h
  · exact h.setRetryDelay v
  · exact h

end SwInv

end Sys2Proof.Machine

/-! PROOFS. Every step keeps the invariant of the block. -/

namespace Sys2Proof.Machine

namespace Inv

variable {s t : State}

/-- The invariant speaks of the parameters, the engines and `rst_n` only. -/
theorem of_same_block (h : Inv s) (hp : t.params = s.params) (ha : t.adc = s.adc) (hw : t.sw = s.sw)
    (hr : t.rstN = s.rstN) : Inv t where
  legal := hp ▸ h.legal
  adc := by rw [hp, ha]; exact h.adc
  sw := by rw [hp, hw]; exact h.sw
  held := by rw [hp, ha, hw, hr]; exact h.held

/-- With `rst_n` high, it is enough that each engine keeps its own. -/
theorem of_engines (hr : s.rstN = true) (hl : s.params.Legal) (ha : AdcInv s.params s.adc)
    (hw : SwInv s.params s.sw) : Inv s :=
  ⟨hl, ha, hw, fun hlow => by simp [hr] at hlow⟩

theorem memWrite {off : Offset} {v : Word} (h : Inv s) (hr : s.rstN = true) (hw : memWrite off v s = .next t) :
    Inv t := by
  obtain rfl : _ = t := by simpa [memWrite_eq] using hw
  exact of_engines hr h.legal (h.adc.written h.legal off v) (h.sw.written h.legal off v)

theorem hostTurn (h : Inv s) (ht : hostTurn s = .next t) : Inv t := by
  obtain ⟨off, v, rest, -, -, hr, hw⟩ | ⟨l, ops, rfl⟩ := hostTurn_next ht
  · have hrest : Inv { s with host := rest } := h.of_same_block rfl rfl rfl rfl
    exact hrest.memWrite hr hw
  · exact h.of_same_block rfl rfl rfl rfl

theorem tickTurn (h : Inv s) (adcDin swIn : Level) : Inv (tickTurn adcDin swIn s) := by
  unfold Machine.tickTurn
  split
  · rename_i hr
    exact of_engines hr h.legal (h.adc.tick h.legal adcDin) (h.sw.tick h.legal swIn)
  · exact h.of_same_block rfl rfl rfl rfl

theorem resetTurn (h : Inv s) (level : Level) : Inv (resetTurn level s) := by
  unfold Machine.resetTurn
  split
  · exact h
  · exact ⟨h.legal, .atReset h.legal, .atReset, fun _ => ⟨rfl, rfl⟩⟩

theorem takeTurn {turn : Turn} (h : Inv s) (ht : takeTurn turn s = .next t) : Inv t := by
  cases turn with
  | host => exact h.hostTurn ht
  | tick adcDin swIn =>
    cases ht
    exact h.tickTurn adcDin swIn
  | reset level =>
    cases ht
    exact h.resetTurn level

end Inv

/-- Settles O53: the reset values are those of an idle block. -/
theorem resetMeetsTheInvariant : Obligations.ResetMeetsTheInvariant := by
  unfold Obligations.ResetMeetsTheInvariant
  exact .of_engines rfl (by decide) (.atReset (by decide)) .atReset

/-- Settles O54: each turn keeps the invariant of each engine, and reset puts both at their reset values. -/
theorem stepKeepsTheInvariant : Obligations.StepKeepsTheInvariant := by
  unfold Obligations.StepKeepsTheInvariant
  intro s t h hs
  obtain ⟨-, hturn⟩ := step_next hs
  obtain ⟨hp, ha, hw, hr, -, -⟩ := nextTurn_keeps s
  exact (h.of_same_block hp ha hw hr).takeTurn hturn

end Sys2Proof.Machine

/-! PROOFS. The engines are independent: two runs that one engine cannot tell apart end with the same engine. The argument
is made once, for a side of the machine, and used for both. -/

namespace Sys2Proof.Machine

/-! ## The host's turn, operation by operation -/

/-- The block after a write on the bus: nothing happens while `rst_n` is low (R230). -/
def busWritten (off : Offset) (v : Word) (s : State) : State :=
  if s.rstN then { s with adc := adcWritten s.params off v s.adc, sw := swWritten off v s.sw } else s

@[simp] theorem busWritten_host (off : Offset) (v : Word) (s : State) :
    (busWritten off v s).host = s.host := by
  unfold busWritten
  split <;> rfl

@[simp] theorem busWritten_turns (off : Offset) (v : Word) (s : State) :
    (busWritten off v s).turns = s.turns := by
  unfold busWritten
  split <;> rfl

theorem busWrite_eq (off : Offset) (v : Word) (s : State) : busWrite off v s = .next (busWritten off v s) := by
  cases hr : s.rstN <;> simp [busWrite, busWritten, hr, memWrite_eq]

section

variable {s t : State} {rest : List HostOp}

theorem hostTurn_none (hh : s.host = []) (h : hostTurn s = .next t) : t = s := by
  simpa [hostTurn, hh] using h.symm

theorem hostTurn_read {off : Offset} {bytes : Nat} (hh : s.host = .rd off bytes :: rest)
    (h : hostTurn s = .next t) : t = { s with lastRead := busRead off s, host := rest } := by
  simp only [hostTurn, hh] at h
  split at h
  · cases h; rfl
  · cases h

theorem hostTurn_write {off : Offset} {bytes : Nat} {v : Word} (hh : s.host = .wr off bytes v :: rest)
    (h : hostTurn s = .next t) : t = busWritten off v { s with host := rest } := by
  simp only [hostTurn, hh, busWrite_eq] at h
  split at h
  · cases h; rfl
  · cases h

/-- A poll goes when its read matches, and stays otherwise (R93). -/
theorem hostTurn_poll {off : Offset} {mask val : Word} (hh : s.host = .poll off mask val :: rest)
    (h : hostTurn s = .next t) :
    t = { s with lastRead := busRead off s, host := if busRead off s &&& mask = val then rest else s.host } := by
  simp only [hostTurn, hh] at h
  split at h
  · split at h <;> cases h <;> simp [*]
  · cases h

/-- A delay goes when it has run out, and stays otherwise (R92). -/
theorem hostTurn_delay {n : Nat} (hh : s.host = .delay n :: rest) (h : hostTurn s = .next t) :
    t = { s with host := if n = 0 then rest else s.host } := by
  cases n with
  | zero => simpa [hostTurn, hh] using h.symm
  | succ n =>
    obtain rfl : t = s := by simpa [hostTurn, hh] using h.symm
    simp

end

/-! ## One engine's side of the machine -/

/-- One engine as the rest of the machine meets it: which of the two it is, which input level it samples, the offsets at
which a write can reach it, and those at which a poll reads nothing of the other engine. -/
structure Side (ε : Type) where
  engine : AdcEngine → SwEngine → ε
  level : Level → Level → Level
  own : Offset → Bool
  polled : Offset → Bool

/-- The states agree on all that the engine can see: the parameters, itself, and `rst_n`. -/
structure Side.Alike {ε : Type} (S : Side ε) (s s' : State) : Prop where
  params : s'.params = s.params
  engine : S.engine s'.adc s'.sw = S.engine s.adc s.sw
  rstN : s'.rstN = s.rstN

/-- Two host operations that the engine cannot tell apart. -/
inductive Side.AlikeOps {ε : Type} (S : Side ε) : HostOp → HostOp → Prop
  | read (off bytes off' bytes') : S.AlikeOps (.rd off bytes) (.rd off' bytes')
  | foreignWrite {off off'} (bytes v bytes' v') (h : S.own off = false) (h' : S.own off' = false) :
    S.AlikeOps (.wr off bytes v) (.wr off' bytes' v')
  | write (off bytes bytes' v) : S.AlikeOps (.wr off bytes v) (.wr off bytes' v)
  | poll {off} (mask val) (h : S.polled off = true) : S.AlikeOps (.poll off mask val) (.poll off mask val)
  | delay (n) : S.AlikeOps (.delay n) (.delay n)

/-- Two turns that the engine cannot tell apart. -/
inductive Side.AlikeTurns {ε : Type} (S : Side ε) : Turn → Turn → Prop
  | host : S.AlikeTurns .host .host
  | tick {adcDin swIn adcDin' swIn'} (h : S.level adcDin' swIn' = S.level adcDin swIn) :
    S.AlikeTurns (.tick adcDin swIn) (.tick adcDin' swIn')
  | reset (level) : S.AlikeTurns (.reset level) (.reset level)

/-- Two states that the engine cannot tell apart now or in the turns to come. -/
structure Side.Paired {ε : Type} (S : Side ε) (s s' : State) : Prop where
  alike : S.Alike s s'
  host : List.Forall₂ S.AlikeOps s.host s'.host
  turns : List.Forall₂ S.AlikeTurns s.turns s'.turns

/-- The engine depends on its own side only: what an access or a tick makes of it, and what a poll of its side reads. -/
structure Side.Separate {ε : Type} (S : Side ε) : Prop where
  write (p : Params) (off : Offset) (v : Word) {a a' : AdcEngine} {w w' : SwEngine} :
    S.engine a' w' = S.engine a w →
    S.engine (adcWritten p off v a') (swWritten off v w') = S.engine (adcWritten p off v a) (swWritten off v w)
  foreign {off : Offset} (p : Params) (v : Word) (a : AdcEngine) (w : SwEngine) : S.own off = false →
    S.engine (adcWritten p off v a) (swWritten off v w) = S.engine a w
  read {off : Offset} {s s' : State} : S.polled off = true → S.Alike s s' → memRead off s' = memRead off s
  tick (p : Params) {adcDin swIn adcDin' swIn' : Level} {a a' : AdcEngine} {w w' : SwEngine} :
    S.level adcDin' swIn' = S.level adcDin swIn → S.engine a' w' = S.engine a w →
    S.engine (adcTick p adcDin' a') (swTick p swIn' w') = S.engine (adcTick p adcDin a) (swTick p swIn w)

namespace Side

variable {ε : Type} {S : Side ε} {s s' t t' : State}

/-- A write that can reach the engine has the same effect on both sides. -/
theorem Alike.busWritten (h : S.Alike s s') (hS : S.Separate) (off : Offset) (v : Word) :
    S.Alike (busWritten off v s) (busWritten off v s') := by
  obtain ⟨hp, he, hr⟩ := h
  unfold Machine.busWritten
  rw [hr, hp]
  split
  · exact ⟨rfl, hS.write _ off v he, rfl⟩
  · exact ⟨hp, he, hr⟩

/-- A write to the other engine's part changes nothing that the engine sees. -/
theorem alike_busWritten_foreign (hS : S.Separate) {off : Offset} (ho : S.own off = false) (v : Word) (s : State) :
    S.Alike s (Machine.busWritten off v s) := by
  unfold Machine.busWritten
  split
  · exact ⟨rfl, hS.foreign _ v _ _ ho, rfl⟩
  · exact ⟨rfl, rfl, rfl⟩

theorem Alike.symm (h : S.Alike s s') : S.Alike s' s := ⟨h.params.symm, h.engine.symm, h.rstN.symm⟩

theorem Alike.trans {u : State} (h : S.Alike s t) (h' : S.Alike t u) : S.Alike s u :=
  ⟨h'.params.trans h.params, h'.engine.trans h.engine, h'.rstN.trans h.rstN⟩

theorem Alike.busRead (h : S.Alike s s') (hS : S.Separate) {off : Offset} (ho : S.polled off = true) :
    busRead off s' = busRead off s := by
  unfold Machine.busRead
  rw [h.rstN, hS.read ho h]

theorem Paired.hostTurn (h : S.Paired s s') (hS : S.Separate) (ht : hostTurn s = .next t)
    (ht' : hostTurn s' = .next t') : S.Paired t t' := by
  obtain ⟨alike, host, turns⟩ := h
  rcases hh : s.host with - | ⟨op, rest⟩ <;> rcases hh' : s'.host with - | ⟨op', rest'⟩ <;>
    rw [hh, hh'] at host <;> cases host
  case nil.nil =>
    obtain rfl := hostTurn_none hh ht
    obtain rfl := hostTurn_none hh' ht'
    exact ⟨alike, by rw [hh, hh']; exact .nil, turns⟩
  case cons.cons hop hrest =>
    cases hop with
    | read off bytes off' bytes' =>
      obtain rfl := hostTurn_read hh ht
      obtain rfl := hostTurn_read hh' ht'
      exact ⟨⟨alike.params, alike.engine, alike.rstN⟩, hrest, turns⟩
    | foreignWrite bytes v bytes' v' ho ho' =>
      obtain rfl := hostTurn_write hh ht
      obtain rfl := hostTurn_write hh' ht'
      have left := (alike_busWritten_foreign hS ho v { s with host := rest }).symm
      have right := alike_busWritten_foreign hS ho' v' { s' with host := rest' }
      have between : S.Alike { s with host := rest } { s' with host := rest' } :=
        ⟨alike.params, alike.engine, alike.rstN⟩
      exact ⟨(left.trans between).trans right, by simpa using hrest, by simpa using turns⟩
    | write off bytes bytes' v =>
      obtain rfl := hostTurn_write hh ht
      obtain rfl := hostTurn_write hh' ht'
      have before : S.Alike { s with host := rest } { s' with host := rest' } :=
        ⟨alike.params, alike.engine, alike.rstN⟩
      exact ⟨before.busWritten hS off v, by simpa using hrest, by simpa using turns⟩
    | poll mask val ho =>
      obtain rfl := hostTurn_poll hh ht
      obtain rfl := hostTurn_poll hh' ht'
      refine ⟨⟨alike.params, alike.engine, alike.rstN⟩, ?_, turns⟩
      simp only [alike.busRead hS ho, hh, hh']
      split
      · exact hrest
      · exact .cons (.poll mask val ho) hrest
    | delay n =>
      obtain rfl := hostTurn_delay hh ht
      obtain rfl := hostTurn_delay hh' ht'
      refine ⟨⟨alike.params, alike.engine, alike.rstN⟩, ?_, turns⟩
      simp only [hh, hh']
      split
      · exact hrest
      · exact .cons (.delay n) hrest

theorem alikeOps_elapseDelay {ops ops' : List HostOp} (h : List.Forall₂ S.AlikeOps ops ops') :
    List.Forall₂ S.AlikeOps (elapseDelay ops) (elapseDelay ops') := by
  cases h with
  | nil => exact .nil
  | cons hop hrest =>
    have unchanged := List.Forall₂.cons hop hrest
    cases hop with
    | delay n =>
      cases n with
      | zero => exact unchanged
      | succ n => exact .cons (.delay n) hrest
    | _ => exact unchanged

theorem Paired.tickTurn (h : S.Paired s s') (hS : S.Separate) {adcDin swIn adcDin' swIn' : Level}
    (hlevel : S.level adcDin' swIn' = S.level adcDin swIn) :
    S.Paired (tickTurn adcDin swIn s) (tickTurn adcDin' swIn' s') := by
  obtain ⟨⟨hp, he, hr⟩, host, turns⟩ := h
  unfold Machine.tickTurn
  rw [hr, hp]
  split
  · exact ⟨⟨rfl, hS.tick _ hlevel he, rfl⟩, alikeOps_elapseDelay host, turns⟩
  · exact ⟨⟨rfl, he, rfl⟩, alikeOps_elapseDelay host, turns⟩

theorem Paired.resetTurn (h : S.Paired s s') (level : Level) :
    S.Paired (resetTurn level s) (resetTurn level s') := by
  obtain ⟨⟨hp, he, hr⟩, host, turns⟩ := h
  unfold Machine.resetTurn resetBlock
  rw [hr, hp]
  split
  · exact ⟨⟨hp, he, hr⟩, host, turns⟩
  · exact ⟨⟨rfl, rfl, rfl⟩, host, turns⟩

theorem Paired.takeTurn (h : S.Paired s s') (hS : S.Separate) {turn turn' : Turn} (hturn : S.AlikeTurns turn turn')
    (ht : takeTurn turn s = .next t) (ht' : takeTurn turn' s' = .next t') : S.Paired t t' := by
  cases hturn with
  | host => exact h.hostTurn hS ht ht'
  | tick hlevel =>
    cases ht
    cases ht'
    exact h.tickTurn hS hlevel
  | reset level =>
    cases ht
    cases ht'
    exact h.resetTurn level

/-- One step of each run, while turns are written in the states. -/
theorem Paired.step (h : S.Paired s s') (hS : S.Separate) {turn : Turn} {ts : List Turn} (hts : s.turns = turn :: ts)
    (ht : step s = .next t) (ht' : step s' = .next t') : S.Paired t t' := by
  obtain ⟨alike, host, turns⟩ := h
  rw [hts] at turns
  obtain ⟨turn', ts', hturn, hrest, hts'⟩ := List.forall₂_cons_left_iff.mp turns
  obtain ⟨-, hs⟩ := step_next ht
  obtain ⟨-, hs'⟩ := step_next ht'
  rw [nextTurn_cons hts] at hs
  rw [nextTurn_cons hts'] at hs'
  have taken : S.Paired { s with turns := ts } { s' with turns := ts' } :=
    ⟨⟨alike.params, alike.engine, alike.rstN⟩, host, hrest⟩
  exact taken.takeTurn hS hturn hs hs'

end Side

/-- A step uses up the turn it takes. -/
theorem step_turns {s t : State} {turn : Turn} {ts : List Turn} (hts : s.turns = turn :: ts)
    (h : step s = .next t) : t.turns = ts := by
  obtain ⟨-, hturn⟩ := step_next h
  rw [nextTurn_cons hts] at hturn
  cases turn with
  | host =>
    obtain ⟨off, v, rest, -, -, -, hw⟩ | ⟨l, ops, rfl⟩ := hostTurn_next hturn
    · rw [memWrite_eq] at hw
      cases hw
      rfl
    · rfl
  | tick adcDin swIn =>
    cases hturn
    simp
  | reset level =>
    cases hturn
    simp

/-- Runs that one engine cannot tell apart end with the same engine. -/
theorem Side.Paired.run {ε : Type} {S : Side ε} (hS : S.Separate) {k : Nat} {s s' t t' : State} (h : S.Paired s s')
    (hk : k ≤ s.turns.length) (ht : Host.Core.run Sys2Proof.core k s = .next t)
    (ht' : Host.Core.run Sys2Proof.core k s' = .next t') : S.engine t'.adc t'.sw = S.engine t.adc t.sw := by
  induction k generalizing s s' with
  | zero =>
    cases ht
    cases ht'
    exact h.alike.engine
  | succ k ih =>
    obtain ⟨u, hu, hrun⟩ := run_succ_next ht
    obtain ⟨u', hu', hrun'⟩ := run_succ_next ht'
    cases hts : s.turns with
    | nil => simp [hts] at hk
    | cons turn ts =>
      have hk' : k ≤ u.turns.length := by
        rw [step_turns hts hu]
        simpa [hts] using hk
      exact ih (h.step hS hts hu hu') hk' hrun hrun'

/-! ## The two sides -/

/-- The ADC engine's side: `adc_din`, the ADC half of the window, and polls of that half. -/
def adcSide : Side AdcEngine where
  engine a _ := a
  level adcDin _ := adcDin
  own off := !swHalf off
  polled off := !swHalf off

/-- The single-wire engine's side: `sw_in`, the single-wire half of the window, and polls of that half or of CAPS. -/
def swSide : Side SwEngine where
  engine _ w := w
  level _ swIn := swIn
  own off := swHalf off
  polled off := swHalf off || off == regOffset .caps

/-- A read of the ADC half depends on the parameters and the ADC engine (R61). -/
theorem memRead_adcHalf {off : Offset} {s s' : State} (ho : swHalf off = false) (hp : s'.params = s.params)
    (ha : s'.adc = s.adc) : memRead off s' = memRead off s := by
  unfold memRead
  cases hr : regAt off with
  | none => rfl
  | some r =>
    obtain rfl := regAt_some hr
    cases r <;> simp [readReg, hp, ha] <;> exact absurd ho (by decide)

/-- A read of the single-wire half or of CAPS depends on the parameters and the single-wire engine (R61). -/
theorem memRead_swHalf {off : Offset} {s s' : State} (ho : swHalf off = true ∨ off = regOffset .caps)
    (hp : s'.params = s.params) (hw : s'.sw = s.sw) : memRead off s' = memRead off s := by
  unfold memRead
  cases hr : regAt off with
  | none => rfl
  | some r =>
    obtain rfl := regAt_some hr
    cases r <;> simp [readReg, hp, hw] <;> exact absurd ho (by decide)

theorem adcSide_separate : adcSide.Separate where
  write p off v {a a' w w'} (h : a' = a) := by rw [h]; rfl
  foreign p v a w ho := adcWritten_swHalf (by simpa [adcSide] using ho) p v a
  read ho h := memRead_adcHalf (by simpa [adcSide] using ho) h.params h.engine
  tick p {adcDin swIn adcDin' swIn' a a' w w'} (hlevel : adcDin' = adcDin) (h : a' = a) := by rw [hlevel, h]; rfl

theorem swSide_separate : swSide.Separate where
  write p off v {a a' w w'} (h : w' = w) := by rw [h]; rfl
  foreign p v a w ho := swWritten_adcHalf ho v w
  read ho h := memRead_swHalf (by simpa [swSide] using ho) h.params h.engine
  tick p {adcDin swIn adcDin' swIn' a a' w w'} (hlevel : swIn' = swIn) (h : w' = w) := by rw [hlevel, h]; rfl

theorem adcSide_alikeTurns {x y : Turn} (h : Turn.adcAgree x y = true) : adcSide.AlikeTurns x y := by
  cases x <;> cases y <;> simp [Turn.adcAgree] at h
  case host.host => exact .host
  case tick.tick => exact .tick h.symm
  case reset.reset => subst h; exact .reset _

theorem swSide_alikeTurns {x y : Turn} (h : Turn.swAgree x y = true) : swSide.AlikeTurns x y := by
  cases x <;> cases y <;> simp [Turn.swAgree] at h
  case host.host => exact .host
  case tick.tick => exact .tick h.symm
  case reset.reset => subst h; exact .reset _

theorem adcSide_alikeOps {x y : HostOp} (h : HostOp.adcAgree x y = true) : adcSide.AlikeOps x y := by
  cases x <;> cases y <;> simp [HostOp.adcAgree] at h
  case rd.rd => exact .read _ _ _ _
  case wr.wr =>
    obtain ⟨-, ⟨ho, ho'⟩ | ⟨rfl, rfl⟩⟩ := h
    · exact .foreignWrite _ _ _ _ (by simp [adcSide, ho]) (by simp [adcSide, ho'])
    · exact .write _ _ _ _
  case poll.poll =>
    obtain ⟨⟨⟨rfl, rfl⟩, rfl⟩, ho⟩ := h
    exact .poll _ _ (by simp [adcSide, ho])
  case delay.delay => subst h; exact .delay _

theorem swSide_alikeOps {x y : HostOp} (h : HostOp.swAgree x y = true) : swSide.AlikeOps x y := by
  cases x <;> cases y <;> simp [HostOp.swAgree] at h
  case rd.rd => exact .read _ _ _ _
  case wr.wr =>
    obtain ⟨-, ⟨ho, ho'⟩ | ⟨rfl, rfl⟩⟩ := h
    · exact .foreignWrite _ _ _ _ ho ho'
    · exact .write _ _ _ _
  case poll.poll =>
    obtain ⟨⟨⟨rfl, rfl⟩, rfl⟩, ho⟩ := h
    exact .poll _ _ (by simpa [swSide] using ho)
  case delay.delay => subst h; exact .delay _

/-- Settles O59: the ADC engine's side is separate. -/
theorem adcRunIgnoresTheSingleWireSide : Obligations.AdcRunIgnoresTheSingleWireSide := by
  unfold Obligations.AdcRunIgnoresTheSingleWireSide
  intro s s' t t' k hp ha hr hk hturns hhost ht ht'
  have paired : adcSide.Paired s s' :=
    ⟨⟨hp, ha, hr⟩, hhost.imp fun _ _ => adcSide_alikeOps, hturns.imp fun _ _ => adcSide_alikeTurns⟩
  exact paired.run adcSide_separate hk ht ht'

/-- Settles O60: the single-wire engine's side is separate. -/
theorem singleWireRunIgnoresTheAdcSide : Obligations.SingleWireRunIgnoresTheAdcSide := by
  unfold Obligations.SingleWireRunIgnoresTheAdcSide
  intro s s' t t' k hp hw hr hk hturns hhost ht ht'
  have paired : swSide.Paired s s' :=
    ⟨⟨hp, hw, hr⟩, hhost.imp fun _ _ => swSide_alikeOps, hturns.imp fun _ _ => swSide_alikeTurns⟩
  exact paired.run swSide_separate hk ht ht'

end Sys2Proof.Machine

/-! PROOFS. The register words field by field, writes that do nothing, and the reset values. -/

namespace Sys2Proof.Machine

/-! ## The fields of the register words (10_state.md R25 to R36)

A word is put together from its fields, so that a field is read by the library's rules for parts of an append. They
are stated for a width `n + m`, which simp's index does not find in the width 32: hence `-index`. -/

theorem AdcStatus.word_fields (s : AdcStatus) :
    s.word.getLsbD 0 = s.busy ∧ s.word.getLsbD 1 = s.done ∧ s.word.getLsbD 2 = s.overrun ∧
    s.word.getLsbD 3 = false ∧ s.word.extractLsb' 4 4 = s.err.code ∧ s.word.extractLsb' 8 4 = s.op ∧
    s.word.extractLsb' 12 20 = 0#20 := by
  unfold AdcStatus.word
  and_intros <;> simp -index (disch := decide) only [BitVec.getLsbD_append, BitVec.extractLsb'_append_eq_of_le,
    BitVec.extractLsb'_append_eq_of_add_le, BitVec.extractLsb'_eq_self] <;> simp

theorem AdcResult.word_fields (r : AdcResult) :
    r.word.extractLsb' 0 8 = r.sample ∧ r.word.extractLsb' 8 2 = r.channel ∧ r.word.extractLsb' 10 21 = 0#21 ∧
    r.word.getLsbD 31 = r.valid := by
  unfold AdcResult.word
  and_intros <;> simp -index (disch := decide) only [BitVec.getLsbD_append, BitVec.extractLsb'_append_eq_of_le,
    BitVec.extractLsb'_append_eq_of_add_le, BitVec.extractLsb'_eq_self]
  simp

theorem AdcAll.word_field (a : AdcAll) (c : BitVec 2) : a.word.extractLsb' (8 * c.toNat) 8 = a.get c := by
  have bytes : a.word.extractLsb' 0 8 = a.ch0 ∧ a.word.extractLsb' 8 8 = a.ch1 ∧
      a.word.extractLsb' 16 8 = a.ch2 ∧ a.word.extractLsb' 24 8 = a.ch3 := by
    unfold AdcAll.word
    and_intros <;> simp -index (disch := decide) only [BitVec.extractLsb'_append_eq_of_le,
      BitVec.extractLsb'_append_eq_of_add_le, BitVec.extractLsb'_eq_self]
  obtain ⟨h0, h1, h2, h3⟩ := bytes
  have hc : c = 0#2 ∨ c = 1#2 ∨ c = 2#2 ∨ c = 3#2 := by revert c; decide
  rcases hc with rfl | rfl | rfl | rfl
  · exact h0
  · exact h1
  · exact h2
  · exact h3

theorem SwStatus.word_fields (s : SwStatus) :
    s.word.getLsbD 0 = s.busy ∧ s.word.getLsbD 1 = s.done ∧ s.word.getLsbD 2 = s.overrun ∧
    s.word.getLsbD 3 = false ∧ s.word.extractLsb' 4 4 = s.err.code ∧ s.word.extractLsb' 8 4 = s.op ∧
    s.word.extractLsb' 12 4 = s.lastErr.code ∧ s.word.extractLsb' 16 8 = s.attempts ∧
    s.word.extractLsb' 24 8 = 0#8 := by
  unfold SwStatus.word
  and_intros <;> simp -index (disch := decide) only [BitVec.getLsbD_append, BitVec.extractLsb'_append_eq_of_le,
    BitVec.extractLsb'_append_eq_of_add_le, BitVec.extractLsb'_eq_self] <;> simp

theorem SwFrame0.word_fields (f : SwFrame0) :
    f.word.extractLsb' 0 8 = f.humInt ∧ f.word.extractLsb' 8 8 = f.humFrac ∧ f.word.extractLsb' 16 8 = f.tempInt ∧
    f.word.extractLsb' 24 8 = f.tempFrac := by
  unfold SwFrame0.word
  and_intros <;> simp -index (disch := decide) only [BitVec.extractLsb'_append_eq_of_le,
    BitVec.extractLsb'_append_eq_of_add_le, BitVec.extractLsb'_eq_self]

theorem SwFrame1.word_fields (f : SwFrame1) :
    f.word.extractLsb' 0 8 = f.checksum ∧ f.word.getLsbD 8 = f.csumOk ∧ f.word.extractLsb' 9 22 = 0#22 ∧
    f.word.getLsbD 31 = f.full := by
  unfold SwFrame1.word
  and_intros <;> simp -index (disch := decide) only [BitVec.getLsbD_append, BitVec.extractLsb'_append_eq_of_le,
    BitVec.extractLsb'_append_eq_of_add_le, BitVec.extractLsb'_eq_self] <;> simp

theorem SwReading.word_fields (r : SwReading) :
    r.word.extractLsb' 0 8 = r.humidity ∧ r.word.extractLsb' 8 8 = r.temperature ∧
    r.word.extractLsb' 16 15 = 0#15 ∧ r.word.getLsbD 31 = r.valid := by
  unfold SwReading.word
  and_intros <;> simp -index (disch := decide) only [BitVec.getLsbD_append, BitVec.extractLsb'_append_eq_of_le,
    BitVec.extractLsb'_append_eq_of_add_le, BitVec.extractLsb'_eq_self]
  simp

theorem capsWord_fields (p : Params) :
    (capsWord p).extractLsb' 0 3 = BitVec.ofNat 3 p.adcChannels ∧ (capsWord p).getLsbD 3 = false ∧
    (capsWord p).extractLsb' 4 2 = tempEncCode p.tempEncoding ∧ (capsWord p).extractLsb' 6 2 = 0#2 ∧
    (capsWord p).extractLsb' 8 8 = BitVec.ofNat 8 p.tAdcPhase ∧
    (capsWord p).extractLsb' 16 8 = BitVec.ofNat 8 p.tBitThreshold ∧
    (capsWord p).extractLsb' 24 8 = BitVec.ofNat 8 p.tWaitTimeout := by
  unfold capsWord
  and_intros <;> simp -index (disch := decide) only [BitVec.getLsbD_append, BitVec.extractLsb'_append_eq_of_le,
    BitVec.extractLsb'_append_eq_of_add_le, BitVec.extractLsb'_eq_self]
  simp

/-- Settles O11, register by register. -/
theorem registerWordsHoldTheirFields : Obligations.RegisterWordsHoldTheirFields := by
  unfold Obligations.RegisterWordsHoldTheirFields
  intro s
  exact ⟨s.adc.status.word_fields, s.adc.result.word_fields, s.adc.all.word_field, s.sw.status.word_fields,
    s.sw.frame0.word_fields, s.sw.frame1.word_fields, s.sw.reading.word_fields, by decide⟩

/-! ## Writes that do nothing -/

/-- A defined write of the host is its effect on the bus (R62). -/
theorem step_write {s : State} {off : Offset} {v : Word} {ts : List Turn} {hs : List HostOp} (hl : s.params.Legal)
    (ho : off.toNat % 4 = 0) (ht : s.turns = .host :: ts) (hh : s.host = .wr off 4 v :: hs) :
    step s = .next (busWritten off v { s with turns := ts, host := hs }) := by
  rw [step_legal hl, nextTurn_cons ht]
  simp [takeTurn, hostTurn, hh, accessDefined, ho, busWrite_eq]

/-- Only the two command registers, the two status registers and SW_RETRY_DELAY can be written (R62). -/
theorem busWritten_elsewhere {off : Offset} (h04 : off ≠ regOffset .adcCmd) (h08 : off ≠ regOffset .adcStatus)
    (h20 : off ≠ regOffset .swCmd) (h24 : off ≠ regOffset .swStatus) (h34 : off ≠ regOffset .swRetryDelay)
    (v : Word) (s : State) : busWritten off v s = s := by
  unfold busWritten
  rw [adcWritten_elsewhere h04 h08, swWritten_elsewhere h20 h24 h34, ite_self]

/-- Settles O13. -/
theorem writeElsewhereIsIgnored : Obligations.WriteElsewhereIsIgnored := by
  unfold Obligations.WriteElsewhereIsIgnored
  intro s off v ts hs hl ho h04 h08 h20 h24 h34 ht hh
  rw [step_write hl ho ht hh, busWritten_elsewhere h04 h08 h20 h24 h34]

/-- Settles O12: legal parameters fit their fields, and CAPS is one of the registers that ignore writes. -/
theorem capsReadsTheParameters : Obligations.CapsReadsTheParameters := by
  unfold Obligations.CapsReadsTheParameters
  refine ⟨fun s hl => ?_, by decide, fun s v ts hs hl ht hh => ?_⟩
  · obtain ⟨⟨-, hN⟩, ⟨-, hT⟩, -, -, ⟨-, hTO⟩, -, hB, -⟩ := legal_ranges hl
    obtain ⟨channels, reserved, encoding, reserved', phase, threshold, timeout⟩ := capsWord_fields s.params
    show ((capsWord s.params).extractLsb' 0 3).toNat = _ ∧ (capsWord s.params).getLsbD 3 = false ∧
      ((capsWord s.params).extractLsb' 4 2).toNat = _ ∧ (capsWord s.params).extractLsb' 6 2 = 0#2 ∧
      ((capsWord s.params).extractLsb' 8 8).toNat = _ ∧ ((capsWord s.params).extractLsb' 16 8).toNat = _ ∧
      ((capsWord s.params).extractLsb' 24 8).toNat = _
    rw [channels, encoding, phase, threshold, timeout]
    refine ⟨?_, reserved, ?_, reserved', ?_, ?_, ?_⟩
    case refine_2 => cases s.params.tempEncoding <;> rfl
    all_goals rw [BitVec.toNat_ofNat]; omega
  · rw [step_write hl (by decide) ht hh, busWritten_elsewhere] <;> decide

/-! ## Reset -/

theorem step_reset {s : State} {level : Level} {ts : List Turn} (hl : s.params.Legal)
    (ht : s.turns = .reset level :: ts) : step s = .next (resetTurn level { s with turns := ts }) := by
  rw [step_legal hl, nextTurn_cons ht]
  rfl

/-- Asserted and released, `rst_n` leaves the block at its reset values, whatever it held (R48, R230). -/
theorem run_assert_release {s : State} {ts : List Turn} (hl : s.params.Legal)
    (ht : s.turns = .reset false :: .reset true :: ts) :
    Host.Core.run Sys2Proof.core 2 s = .next { resetBlock s with rstN := true, turns := ts } := by
  have assert := step_reset hl ht
  have release := step_reset (s := resetTurn false { s with turns := .reset true :: ts }) (by simpa using hl)
    (resetTurn_turns _ _)
  exact run_succ_last (run_succ_last (run_zero s) assert) release

/-- The words the ADC half reads after reset (R48). -/
theorem AdcEngine.atReset_words :
    AdcEngine.atReset.status.word = 0#32 ∧ AdcEngine.atReset.result.word = 0#32 ∧
    AdcEngine.atReset.all.word = 0#32 := by decide

/-- The words the single-wire half reads after reset (R48); they do not depend on the parameters. -/
theorem SwEngine.atReset_words (p : Params) :
    (SwEngine.atReset p).status.word = 0#32 ∧ (SwEngine.atReset p).frame0.word = 0#32 ∧
    (SwEngine.atReset p).frame1.word = 0#32 ∧ (SwEngine.atReset p).reading.word = 0#32 := by
  have words : (SwEngine.atReset .default).status.word = 0#32 ∧ (SwEngine.atReset .default).frame0.word = 0#32 ∧
      (SwEngine.atReset .default).frame1.word = 0#32 ∧ (SwEngine.atReset .default).reading.word = 0#32 := by decide
  exact words

/-- Settles O20: each value is read off the reset state. -/
theorem resetGivesEveryResetValue : Obligations.ResetGivesEveryResetValue := by
  unfold Obligations.ResetGivesEveryResetValue
  intro s ts hl ht
  obtain ⟨adcStatus, adcResult, adcAll⟩ := AdcEngine.atReset_words
  obtain ⟨swStatus, frame0, frame1, reading⟩ := SwEngine.atReset_words s.params
  refine ⟨_, run_assert_release hl ht, rfl, adcStatus, adcResult, adcAll, swStatus, frame0, frame1, reading, rfl, ?_⟩
  and_intros <;> rfl

end Sys2Proof.Machine

/-! PROOFS. The host's accesses one by one (family 20_memory): which are refused, what a read returns, what a write to a
status register or to SW_RETRY_DELAY does. -/

namespace Sys2Proof.Machine

/-! ## Refusals -/

/-- The host's turn is refused at an access that the spec leaves undefined, and nowhere else (R68). -/
theorem hostTurn_refused_iff {s : State} {r : Refusal} :
    hostTurn s = .refused r ↔
      r = .narrowOrMisaligned ∧ ∃ op rest, s.host = op :: rest ∧ op.undefinedAccess = true := by
  rw [eq_comm (a := r)]
  cases hh : s.host with
  | nil => simp [hostTurn, hh]
  | cons op rest =>
    cases op with
    | rd off bytes => cases ha : accessDefined off bytes <;> simp [hostTurn, hh, HostOp.undefinedAccess, ha]
    | wr off bytes v =>
      cases ha : accessDefined off bytes <;> simp [hostTurn, hh, HostOp.undefinedAccess, ha, busWrite_eq]
    | poll off mask val =>
      cases ha : accessDefined off 4
      · simp [hostTurn, hh, HostOp.undefinedAccess, ha]
      · by_cases hmatch : busRead off s &&& mask = val <;>
          simp [hostTurn, hh, HostOp.undefinedAccess, ha, hmatch]
    | delay n => cases n <;> simp [hostTurn, hh, HostOp.undefinedAccess]

/-- Of the three kinds of turn only the host's can be refused. -/
theorem takeTurn_refused_iff {turn : Turn} {s : State} {r : Refusal} :
    takeTurn turn s = .refused r ↔ turn = .host ∧ hostTurn s = .refused r := by
  cases turn <;> simp [takeTurn]

/-- Settles O8: illegal parameters refuse every step, legal ones leave the host's turn as the only stop. -/
theorem stopsOnlyAtUndefinedAccess : Obligations.StopsOnlyAtUndefinedAccess := by
  unfold Obligations.StopsOnlyAtUndefinedAccess
  intro s r
  by_cases hl : s.params.Legal
  · obtain ⟨-, -, -, -, -, hhost⟩ := nextTurn_keeps s
    rw [step_legal hl, takeTurn_refused_iff, hostTurn_refused_iff, hhost]
    constructor
    · rintro ⟨hturn, hr, access⟩
      exact .inr ⟨hl, hr, hturn, access⟩
    · rintro (⟨hn, -⟩ | ⟨-, hr, hturn, access⟩)
      · exact absurd hl hn
      · exact ⟨hturn, hr, access⟩
  · rw [step_illegal hl]
    constructor
    · rintro ⟨⟩
      exact .inl ⟨hl, rfl⟩
    · rintro (⟨-, rfl⟩ | ⟨hl', -⟩)
      · rfl
      · exact absurd hl' hl

/-! ## Reads -/

/-- A defined read of the host while `rst_n` is high (R61). -/
theorem step_read {s : State} {off : Offset} {ts : List Turn} {hs : List HostOp} (hl : s.params.Legal)
    (hr : s.rstN = true) (ho : off.toNat % 4 = 0) (ht : s.turns = .host :: ts) (hh : s.host = .rd off 4 :: hs) :
    step s = .next { s with lastRead := memRead off s, turns := ts, host := hs } := by
  rw [step_legal hl, nextTurn_cons ht]
  simp [takeTurn, hostTurn, hh, accessDefined, ho, busRead, hr]
  rfl

/-- A read depends on the register that stands at its offset, if any. -/
theorem memRead_congr {off : Offset} {s t : State} (h : ∀ r, off = regOffset r → readReg r t = readReg r s) :
    memRead off t = memRead off s := by
  unfold memRead
  cases hr : regAt off with
  | none => rfl
  | some r => exact h r (regAt_some hr)

/-- Every register is a function of the parameters and the engines: what the host holds does not show (R61). -/
theorem readReg_congr {s t : State} (hp : t.params = s.params) (ha : t.adc = s.adc) (hw : t.sw = s.sw) (r : Reg) :
    readReg r t = readReg r s := by
  cases r <;> simp only [readReg, hp, ha, hw]

/-- Settles O10: the map of R24 offset by offset, and a read step writes nothing that a register shows. -/
theorem hostReadReturnsRegister : Obligations.HostReadReturnsRegister := by
  unfold Obligations.HostReadReturnsRegister
  refine ⟨fun s => ?_, fun s off ts hs hl hr ho ht hh => ⟨step_read hl hr ho ht hh, fun off' => ?_⟩⟩
  · and_intros <;> rfl
  · exact memRead_congr fun r _ => readReg_congr rfl rfl rfl r

/-! ## Writes to SW_RETRY_DELAY and the status registers -/

/-- Settles O14: SW_RETRY_DELAY is the only register at its offset. -/
theorem retryDelayWriteSetsOnlyTheRegister : Obligations.RetryDelayWriteSetsOnlyTheRegister := by
  unfold Obligations.RetryDelayWriteSetsOnlyTheRegister
  intro s v ts hs hl hr ht hh
  refine ⟨?_, rfl⟩
  rw [step_write hl (by decide) ht hh]
  simp only [busWritten, hr, if_true]
  rfl

/-- The write-one-to-clear of R65 as one update of OVERRUN. -/
theorem w1cAdc_eq (v : Word) (a : AdcEngine) :
    w1cAdc v a = { a with status := { a.status with overrun := a.status.overrun && !v.getLsbD 2 } } := by
  unfold w1cAdc
  cases v.getLsbD 2 <;> simp

/-- See `w1cAdc_eq`. -/
theorem w1cSw_eq (v : Word) (w : SwEngine) :
    w1cSw v w = { w with status := { w.status with overrun := w.status.overrun && !v.getLsbD 2 } } := by
  unfold w1cSw
  cases v.getLsbD 2 <;> simp

/-- Settles O15: each status register's write is its engine's write-one-to-clear. -/
theorem statusWriteClearsOverrunOnly : Obligations.StatusWriteClearsOverrunOnly := by
  unfold Obligations.StatusWriteClearsOverrunOnly
  intro s v ts hs hl hr ht
  refine ⟨fun hh => ?_, fun hh => ?_⟩ <;> rw [step_write hl (by decide) ht hh] <;>
    simp only [busWritten, hr, if_true]
  · rw [← w1cAdc_eq]
    rfl
  · rw [← w1cSw_eq]
    rfl

end Sys2Proof.Machine

/-! PROOFS. Command writes (family 20_memory): what every accepted word does whatever command it is, and what the commands
leave unchanged. -/

namespace Sys2Proof.Machine

/-! ## What an accepted word's own effect is like -/

/-- The parts of the ADC engine that only a transaction touches: the pins and the internal state. -/
def AdcEngine.SameTransaction (a b : AdcEngine) : Prop :=
  b.pins = a.pins ∧ b.shift = a.shift ∧ b.cycle = a.cycle ∧ b.cmd = a.cmd ∧ b.ch = a.ch ∧ b.op = a.op

/-- The own effect of an accepted ADC word: it sets BUSY and starts, or completes at once and starts no transaction;
either way OP, OVERRUN and ADC_RESULT stay as the acceptance left them (R110 to R112, R203). -/
structure AdcWordEffect (a b : AdcEngine) : Prop where
  op : b.status.op = a.status.op
  overrun : b.status.overrun = a.status.overrun
  result : b.result = a.result
  busy_or_done : b.status.busy = true ∨ b.status.done = true
  at_once : b.status.busy = false → a.SameTransaction b

theorem AdcWordEffect.complete (kind : ErrCode) (a : AdcEngine) : AdcWordEffect a (completeAdc kind a) where
  op := rfl
  overrun := rfl
  result := rfl
  busy_or_done := .inr rfl
  at_once := fun _ => ⟨rfl, rfl, rfl, rfl, rfl, rfl⟩

theorem AdcWordEffect.readChannel (p : Params) (ch : Nat) (a : AdcEngine) :
    AdcWordEffect a (runReadChannel p ch a) := by
  rcases Nat.lt_or_ge ch p.adcChannels with hc | hc
  · rw [runReadChannel_valid hc]
    exact ⟨rfl, rfl, rfl, .inl rfl, by simp⟩
  · rw [runReadChannel_invalid hc]
    exact .complete .invalidChannel a

theorem AdcWordEffect.readAll (p : Params) (a : AdcEngine) : AdcWordEffect a (runReadAll p a) :=
  ⟨rfl, rfl, rfl, .inl rfl, by simp [runReadAll]⟩

theorem adcWordRun_effect (p : Params) (v : Word) (a : AdcEngine) : AdcWordEffect a (adcWordRun p v a) := by
  obtain ⟨-, -, h⟩ | ⟨-, -, h⟩ | ⟨e, -, h⟩ := adcWordRun_cases p v <;> rw [h]
  · exact .readChannel p (chField v) a
  · exact .readAll p a
  · exact .complete .illegalCommand a

/-- The parts of the single-wire engine that only an attempt touches: the frame, its registers and the line's pins. -/
def SwEngine.SameAttempt (w x : SwEngine) : Prop :=
  x.frame0 = w.frame0 ∧ x.frame1 = w.frame1 ∧ x.oe = w.oe ∧ x.out = w.out ∧ x.bit = w.bit ∧ x.frame = w.frame

/-- The own effect of an accepted single-wire word: it sets BUSY and starts, or completes at once and starts no attempt;
either way OP, OVERRUN, SW_RETRY_DELAY and the pull-up stay as they were (R140 to R142, R182, R183, R203). -/
structure SwWordEffect (w x : SwEngine) : Prop where
  op : x.status.op = w.status.op
  overrun : x.status.overrun = w.status.overrun
  retryDelay : x.retryDelay = w.retryDelay
  puEn : x.puEn = w.puEn
  busy_or_done : x.status.busy = true ∨ x.status.done = true
  at_once : x.status.busy = false → w.SameAttempt x

theorem SwWordEffect.complete (kind : ErrCode) (w : SwEngine) : SwWordEffect w (completeSw kind w) where
  op := rfl
  overrun := rfl
  retryDelay := rfl
  puEn := rfl
  busy_or_done := .inr rfl
  at_once := fun _ => ⟨rfl, rfl, rfl, rfl, rfl, rfl⟩

theorem SwWordEffect.read (w : SwEngine) : SwWordEffect w (runRead w) :=
  ⟨rfl, rfl, rfl, rfl, .inl rfl, by simp [runRead]⟩

theorem SwWordEffect.readRetry (n : Nat) (w : SwEngine) : SwWordEffect w (runReadRetry n w) := by
  by_cases h : n = 0
  · subst h
    rw [runReadRetry_zero]
    exact { SwWordEffect.complete .sensorUnavailable _ with }
  · rw [runReadRetry_pos h]
    exact ⟨rfl, rfl, rfl, rfl, .inl rfl, by simp⟩

theorem swWordRun_effect (v : Word) (w : SwEngine) : SwWordEffect w (swWordRun v w) := by
  obtain ⟨-, -, h⟩ | ⟨-, -, h⟩ | ⟨e, -, h⟩ := swWordRun_cases v <;> rw [h]
  · exact .read w
  · exact .readRetry (nField v) w
  · exact .complete .illegalCommand w

/-- An accepted write to ADC_CMD is the acceptance and then the word's own effect. -/
theorem adcCommandWrite_effect {a : AdcEngine} (hb : a.status.busy = false) (p : Params) (v : Word) :
    AdcWordEffect (adcAccept (opField v) a) (adcCommandWrite (opField v) (adcWordRun p v) a) := by
  rw [adcCommandWrite_idle hb]
  exact adcWordRun_effect p v _

/-- See `adcCommandWrite_effect`. -/
theorem swCommandWrite_effect {w : SwEngine} (hb : w.status.busy = false) (v : Word) :
    SwWordEffect (swAccept (opField v) w) (swCommandWrite (opField v) (swWordRun v) w) := by
  rw [swCommandWrite_idle hb]
  exact swWordRun_effect v _

/-! ## The step that writes a command register -/

section

variable {s : State} {v : Word} {ts : List Turn} {hs : List HostOp}

theorem step_commandWrite {r : CmdReg} (hl : s.params.Legal) (hr : s.rstN = true) (ht : s.turns = .host :: ts)
    (hh : s.host = .wr (cmdOffset r) 4 v :: hs) : step s = commandWrite r v { s with turns := ts, host := hs } := by
  rw [step_legal hl, nextTurn_cons ht]
  simp [takeTurn, hostTurn, hh, busWrite, hr]

theorem step_write_adcCmd (hl : s.params.Legal) (hr : s.rstN = true) (ht : s.turns = .host :: ts)
    (hh : s.host = .wr 0x04#6 4 v :: hs) :
    step s = .next { s with
      turns := ts, host := hs
      adc := adcCommandWrite (opField v) (adcWordRun s.params v) s.adc } :=
  (step_commandWrite (r := .adcCmd) hl hr ht hh).trans (commandWrite_adcCmd v _)

theorem step_write_swCmd (hl : s.params.Legal) (hr : s.rstN = true) (ht : s.turns = .host :: ts)
    (hh : s.host = .wr 0x20#6 4 v :: hs) :
    step s = .next { s with turns := ts, host := hs, sw := swCommandWrite (opField v) (swWordRun v) s.sw } :=
  (step_commandWrite (r := .swCmd) hl hr ht hh).trans (commandWrite_swCmd v _)

end

/-- Settles O5: the write reaches the decoder, and a word that decodes runs as its command (R62). -/
theorem stepRunsDecodedCommand : Obligations.StepRunsDecodedCommand := by
  unfold Obligations.StepRunsDecodedCommand
  intro s r v i ts hs hl hr ht hh hd
  rw [step_commandWrite hl hr ht hh, commandWrite_ok hd]

/-- Settles O16: rejected while BUSY; else accepted, and the word's own effect keeps OP and OVERRUN. -/
theorem commandWriteWhileBusyIsRejected : Obligations.CommandWriteWhileBusyIsRejected := by
  unfold Obligations.CommandWriteWhileBusyIsRejected
  intro s v ts hs hl hr ht
  refine ⟨fun hh => ⟨fun hb => ?_, fun hb => ?_⟩, fun hh => ⟨fun hb => ?_, fun hb => ?_⟩⟩
  · rw [step_write_adcCmd hl hr ht hh, adcCommandWrite_busy hb]
  · have effect := adcCommandWrite_effect hb s.params v
    exact ⟨_, step_write_adcCmd hl hr ht hh, effect.op, effect.overrun, fun i hd => by
      rw [← commandWrite_ok hd, commandWrite_adcCmd]⟩
  · rw [step_write_swCmd hl hr ht hh, swCommandWrite_busy hb]
  · have effect := swCommandWrite_effect hb v
    exact ⟨_, step_write_swCmd hl hr ht hh, effect.op, effect.overrun, fun i hd => by
      rw [← commandWrite_ok hd, commandWrite_swCmd]⟩

/-- Settles O18: an accepted word leaves BUSY or DONE, and they are bits 0 and 1 of the status word. -/
theorem statusAfterCommandWriteIsBusyOrDone : Obligations.StatusAfterCommandWriteIsBusyOrDone := by
  unfold Obligations.StatusAfterCommandWriteIsBusyOrDone
  intro s v ts hs hl hr ht
  refine ⟨fun hh hb => ⟨_, step_write_adcCmd hl hr ht hh, ?_⟩, fun hh hb => ⟨_, step_write_swCmd hl hr ht hh, ?_⟩⟩
  · obtain ⟨busy, done, -⟩ := AdcStatus.word_fields _
    exact (adcCommandWrite_effect hb s.params v).busy_or_done.imp busy.trans done.trans
  · obtain ⟨busy, done, -⟩ := SwStatus.word_fields _
    exact (swCommandWrite_effect hb v).busy_or_done.imp busy.trans done.trans

/-! ## The frame of the commands -/

/-- What a write to ADC_CMD leaves unchanged of the ADC engine, busy or not. -/
structure AdcCommandFrame (a b : AdcEngine) : Prop where
  overrun : a.status.busy = false → b.status.overrun = a.status.overrun
  sample : b.result.sample = a.result.sample
  channel : b.result.channel = a.result.channel
  at_once : b.status.busy = false → a.SameTransaction b

theorem adcCommandWrite_frame {run : AdcEngine → AdcEngine} (hrun : ∀ a, AdcWordEffect a (run a)) (op : BitVec 4)
    (a : AdcEngine) : AdcCommandFrame a (adcCommandWrite op run a) := by
  cases hb : a.status.busy with
  | true =>
    rw [adcCommandWrite_busy hb]
    exact ⟨by simp [hb], rfl, rfl, by simp [hb]⟩
  | false =>
    rw [adcCommandWrite_idle hb]
    obtain ⟨-, overrun, result, -, at_once⟩ := hrun (adcAccept op a)
    exact ⟨fun _ => overrun, by simp [result], by simp [result], at_once⟩

theorem adcCommandWrite_all {run : AdcEngine → AdcEngine} (hrun : ∀ a, (run a).all = a.all) (op : BitVec 4)
    (a : AdcEngine) : (adcCommandWrite op run a).all = a.all := by
  cases hb : a.status.busy
  · simp [adcCommandWrite_idle hb, hrun]
  · simp [adcCommandWrite_busy hb]

theorem runReadChannel_all (p : Params) (ch : Nat) (a : AdcEngine) : (runReadChannel p ch a).all = a.all := by
  rcases Nat.lt_or_ge ch p.adcChannels with hc | hc
  · simp [runReadChannel_valid hc]
  · simp [runReadChannel_invalid hc]

/-- An ADC command is a write to its engine, and READ_CHANNEL's keeps ADC_ALL (R111, R112). -/
theorem exec_adc {i : Instr} {s t : State} (hi : i = .adcReadall ∨ ∃ ch, i = .adcRead ch) (h : exec i s = .next t) :
    ∃ op run, t = { s with adc := adcCommandWrite op run s.adc } ∧ (∀ a, AdcWordEffect a (run a)) ∧
      (i ≠ .adcReadall → ∀ a, (run a).all = a.all) := by
  obtain rfl | ⟨ch, rfl⟩ := hi <;> cases h
  · exact ⟨_, _, rfl, .readAll s.params, fun hi => absurd rfl hi⟩
  · exact ⟨_, _, rfl, .readChannel s.params ch, fun _ => runReadChannel_all s.params ch⟩

/-- Settles O28: the frame of the write, and the registers that it does not name. -/
theorem adcCommandsFrame : Obligations.AdcCommandsFrame := by
  unfold Obligations.AdcCommandsFrame
  intro i s t hi h
  obtain ⟨op, run, rfl, effect, all⟩ := exec_adc hi h
  have frame := adcCommandWrite_frame effect op s.adc
  have keepsAll := fun hne => adcCommandWrite_all (all hne) op s.adc
  refine ⟨rfl, rfl, rfl, rfl, rfl, rfl, rfl, fun hb => adcCommandWrite_busy hb op run, frame.overrun, frame.sample,
    frame.channel, keepsAll, frame.at_once, fun off h08 h0C h10 => memRead_congr fun r hoff => ?_⟩
  cases r with
  | adcStatus => exact absurd hoff h08
  | adcResult => exact absurd hoff h0C
  | adcAll => exact congrArg AdcAll.word (keepsAll fun hi => h10 hi hoff)
  | _ => rfl

/-- What a write to SW_CMD leaves unchanged of the single-wire engine, busy or not. -/
structure SwCommandFrame (w x : SwEngine) : Prop where
  overrun : w.status.busy = false → x.status.overrun = w.status.overrun
  retryDelay : x.retryDelay = w.retryDelay
  puEn : x.puEn = w.puEn
  at_once : x.status.busy = false → w.SameAttempt x

theorem swCommandWrite_frame {run : SwEngine → SwEngine} (hrun : ∀ w, SwWordEffect w (run w)) (op : BitVec 4)
    (w : SwEngine) : SwCommandFrame w (swCommandWrite op run w) := by
  cases hb : w.status.busy with
  | true =>
    rw [swCommandWrite_busy hb]
    exact ⟨by simp [hb], rfl, rfl, by simp [hb]⟩
  | false =>
    rw [swCommandWrite_idle hb]
    obtain ⟨-, overrun, retryDelay, puEn, -, at_once⟩ := hrun (swAccept op w)
    exact ⟨fun _ => overrun, retryDelay, puEn, at_once⟩

/-- A single-wire command is a write to its engine (R141, R182). -/
theorem exec_sw {i : Instr} {s t : State} (hi : i = .swRead ∨ ∃ n, i = .swReadretry n) (h : exec i s = .next t) :
    ∃ op run, t = { s with sw := swCommandWrite op run s.sw } ∧ ∀ w, SwWordEffect w (run w) := by
  obtain rfl | ⟨n, rfl⟩ := hi <;> cases h
  · exact ⟨_, _, rfl, .read⟩
  · exact ⟨_, _, rfl, .readRetry n⟩

/-- Settles O29: the frame of the write, and the registers that it does not name. -/
theorem singleWireCommandsFrame : Obligations.SingleWireCommandsFrame := by
  unfold Obligations.SingleWireCommandsFrame
  intro i s t hi h
  obtain ⟨op, run, rfl, effect⟩ := exec_sw hi h
  have frame := swCommandWrite_frame effect op s.sw
  refine ⟨rfl, rfl, rfl, rfl, rfl, rfl, rfl, fun hb => swCommandWrite_busy hb op run, frame.overrun, frame.retryDelay,
    frame.puEn, frame.at_once, fun off h24 h28 h2C h30 => memRead_congr fun r hoff => ?_⟩
  cases r with
  | swStatus => exact absurd hoff h24
  | swFrame0 => exact absurd hoff h28
  | swFrame1 => exact absurd hoff h2C
  | swReading => exact absurd hoff h30
  | swRetryDelay => exact frame.retryDelay
  | _ => rfl

end Sys2Proof.Machine

/-! PROOFS. A running command ends by completion at a tick, or by reset (family 20_memory). -/

namespace Sys2Proof.Machine

/-! ## A tick keeps BUSY or completes -/

/-- What a completion leaves of the ADC engine (R125, R205). -/
structure AdcEngine.Completed (a : AdcEngine) : Prop where
  done : a.status.done = true
  phase : a.phase = .idle
  cnt : a.cnt = 0

/-- What a completion leaves of the single-wire engine (R187, R205). -/
structure SwEngine.Completed (w : SwEngine) : Prop where
  done : w.status.done = true
  phase : w.phase = .idle
  cnt : w.cnt = 0#32

theorem completeAdc_completed (kind : ErrCode) (a : AdcEngine) : (completeAdc kind a).Completed := ⟨rfl, rfl, rfl⟩

theorem completeSw_completed (kind : ErrCode) (w : SwEngine) : (completeSw kind w).Completed := ⟨rfl, rfl, rfl⟩

@[simp] theorem sampleAt_status (p : Params) (e : SampleEdge) (din : Level) (a : AdcEngine) :
    (sampleAt p e din a).status = a.status := by rw [sampleAt_eq]

theorem transactionEnd_busy_or_completed (p : Params) (a : AdcEngine) :
    (transactionEnd p a).status.busy = a.status.busy ∨ (transactionEnd p a).Completed := by
  unfold transactionEnd
  split
  · exact .inr (completeAdc_completed _ _)
  · split
    · exact .inl rfl
    · exact .inr (completeAdc_completed _ _)

theorem adcPhaseEnd_busy_or_completed (p : Params) (din : Level) (a : AdcEngine) :
    (adcPhaseEnd p din a).status.busy = a.status.busy ∨ (adcPhaseEnd p din a).Completed := by
  cases hp : a.phase <;> simp only [adcPhaseEnd, hp]
  case gap => exact transactionEnd_busy_or_completed p a
  case high => split <;> simp
  all_goals simp

theorem adcTick_busy_or_completed (p : Params) (din : Level) (a : AdcEngine) :
    (adcTick p din a).status.busy = a.status.busy ∨ (adcTick p din a).Completed := by
  obtain ⟨-, h⟩ | ⟨-, -, h⟩ | ⟨-, -, h⟩ := adcTick_cases p din a <;> rw [h]
  · exact .inl rfl
  · exact .inl rfl
  · exact adcPhaseEnd_busy_or_completed p din _

theorem attemptEnd_busy_or_completed (kind : ErrCode) (w : SwEngine) :
    (attemptEnd kind w).status.busy = w.status.busy ∨ (attemptEnd kind w).Completed := by
  obtain ⟨-, h⟩ | ⟨-, -, h⟩ | ⟨-, -, -, h⟩ | ⟨-, -, -, -, h⟩ | ⟨-, -, -, -, h⟩ := attemptEnd_cases kind w <;> rw [h]
  · exact .inr (completeSw_completed _ _)
  · exact .inr (completeSw_completed _ _)
  · exact .inr (completeSw_completed _ _)
  · exact .inl rfl
  · exact .inl rfl

theorem waitStep_busy_or_completed (p : Params) (level : Level) (next : SwPhase) (fail : ErrCode) (swIn : Level)
    (w : SwEngine) : (waitStep p level next fail swIn w).status.busy = w.status.busy ∨
      (waitStep p level next fail swIn w).Completed := by
  obtain ⟨-, h⟩ | ⟨-, -, h⟩ | ⟨-, -, h⟩ := waitStep_cases p level next fail swIn w <;> rw [h]
  · exact .inl rfl
  · exact attemptEnd_busy_or_completed fail _
  · exact .inl rfl

theorem frameComplete_busy_or_completed (p : Params) (w : SwEngine) :
    (frameComplete p w).status.busy = w.status.busy ∨ (frameComplete p w).Completed := by
  obtain ⟨-, h⟩ | ⟨-, -, h⟩ | ⟨-, -, h⟩ := frameComplete_cases p w <;> rw [h] <;>
    exact attemptEnd_busy_or_completed _ _

theorem bitLowStep_busy_or_completed (p : Params) (swIn : Level) (w : SwEngine) :
    (bitLowStep p swIn w).status.busy = w.status.busy ∨ (bitLowStep p swIn w).Completed := by
  obtain ⟨-, -, h⟩ | ⟨-, -, h⟩ | ⟨-, -, h⟩ | ⟨-, -, h⟩ := bitLowStep_cases p swIn w <;> rw [h]
  · exact frameComplete_busy_or_completed p (bitReceived p w)
  · exact .inl rfl
  · exact attemptEnd_busy_or_completed .truncated _
  · exact .inl rfl

/-- The phases that the engine times by itself do not touch BUSY (R143, R144, R185). -/
theorem startLowStep_busy (p : Params) (w : SwEngine) : (startLowStep p w).status.busy = w.status.busy := by
  obtain ⟨-, h⟩ | ⟨-, h⟩ := startLowStep_cases p w <;> rw [h]

theorem releaseStep_busy (p : Params) (w : SwEngine) : (releaseStep p w).status.busy = w.status.busy := by
  obtain ⟨-, h⟩ | ⟨-, h⟩ := releaseStep_cases p w <;> rw [h]

theorem retryDelayTick_busy (w : SwEngine) : (retryDelayTick w).status.busy = w.status.busy := by
  obtain ⟨-, h⟩ | ⟨-, h⟩ := retryDelayTick_cases w <;> simp [h]

theorem swTick_busy_or_completed (p : Params) (swIn : Level) (w : SwEngine) :
    (swTick p swIn w).status.busy = w.status.busy ∨ (swTick p swIn w).Completed := by
  cases hp : w.phase <;> simp only [swTick, hp]
  case idle => exact .inl trivial
  case startLow => exact .inl (startLowStep_busy p w)
  case release => exact .inl (releaseStep_busy p w)
  case bitL => exact bitLowStep_busy_or_completed p swIn w
  case delay => exact .inl (retryDelayTick_busy w)
  all_goals exact waitStep_busy_or_completed _ _ _ _ _ w

/-! ## A host access keeps BUSY -/

theorem adcWritten_keeps_busy {a : AdcEngine} (hb : a.status.busy = true) (p : Params) (off : Offset) (v : Word) :
    (adcWritten p off v a).status.busy = true := by
  unfold adcWritten
  split
  · rw [adcCommandWrite_busy hb]
    exact hb
  · rw [w1cAdc_eq]
    exact hb
  · exact hb

theorem swWritten_keeps_busy {w : SwEngine} (hb : w.status.busy = true) (off : Offset) (v : Word) :
    (swWritten off v w).status.busy = true := by
  unfold swWritten
  split
  · rw [swCommandWrite_busy hb]
    exact hb
  · rw [w1cSw_eq]
    exact hb
  · exact hb
  · exact hb

theorem hostTurn_keeps_busy {s t : State} (h : hostTurn s = .next t) :
    (s.adc.status.busy = true → t.adc.status.busy = true) ∧ (s.sw.status.busy = true → t.sw.status.busy = true) := by
  obtain ⟨off, v, rest, -, -, -, hw⟩ | ⟨l, ops, rfl⟩ := hostTurn_next h
  · rw [memWrite_eq] at hw
    cases hw
    exact ⟨fun hb => adcWritten_keeps_busy hb s.params off v, fun hb => swWritten_keeps_busy hb off v⟩
  · exact ⟨id, id⟩

/-! ## The end of a command over a step -/

theorem tickTurn_busy_or_completed (adcDin swIn : Level) (s : State) :
    ((tickTurn adcDin swIn s).adc.status.busy = s.adc.status.busy ∨ (tickTurn adcDin swIn s).adc.Completed) ∧
    ((tickTurn adcDin swIn s).sw.status.busy = s.sw.status.busy ∨ (tickTurn adcDin swIn s).sw.Completed) := by
  unfold tickTurn
  split
  · exact ⟨adcTick_busy_or_completed s.params adcDin s.adc, swTick_busy_or_completed s.params swIn s.sw⟩
  · exact ⟨.inl rfl, .inl rfl⟩

/-- Settles O57, by the three kinds of turn: a host access keeps BUSY, a tick keeps it or completes. -/
theorem busyFallsOnlyByCompletion : Obligations.BusyFallsOnlyByCompletion := by
  unfold Obligations.BusyFallsOnlyByCompletion
  intro s t h
  obtain ⟨-, hturn⟩ := step_next h
  obtain ⟨-, hadc, hsw, -⟩ := nextTurn_keeps s
  rw [← hadc, ← hsw]
  cases hn : (nextTurn s).1 with
  | reset level => exact ⟨fun _ _ => .inl ⟨level, rfl⟩, fun _ _ => .inl ⟨level, rfl⟩⟩
  | host =>
    rw [hn] at hturn
    obtain ⟨adcBusy, swBusy⟩ := hostTurn_keeps_busy hturn
    exact ⟨fun hb hf => by simp [adcBusy hb] at hf, fun hb hf => by simp [swBusy hb] at hf⟩
  | tick adcDin swIn =>
    rw [hn] at hturn
    cases hturn
    obtain ⟨adcEnd, swEnd⟩ := tickTurn_busy_or_completed adcDin swIn (nextTurn s).2
    refine ⟨fun hb hf => .inr ⟨⟨adcDin, swIn, rfl⟩, ?_⟩, fun hb hf => .inr ⟨⟨adcDin, swIn, rfl⟩, ?_⟩⟩
    · obtain ⟨done, phase, cnt⟩ := adcEnd.resolve_left fun heq => by simp [heq, hb] at hf
      exact ⟨done, phase, cnt⟩
    · obtain ⟨done, phase, cnt⟩ := swEnd.resolve_left fun heq => by simp [heq, hb] at hf
      exact ⟨done, phase, cnt⟩

end Sys2Proof.Machine

/-! PROOFS. Command words and their formats, the assembler's lines, the placed word, and the temperature byte (family
30_encoding). -/

namespace Sys2Proof

/-! ## The words of the two commands with an operand

Each is put together from three fields, which are read by the library's rules for parts of an append; `-index` as for
the register words above. -/

/-- ADC_CMD's word with the channel field `c` (R80). -/
theorem adcRead_word_fields (c : BitVec 4) :
    opField (0#24 ++ c ++ 0x1#4) = 0x1#4 ∧ BitVec.extractLsb' 8 24 (0#24 ++ c ++ 0x1#4 : Word) = 0#24 ∧
    chField (0#24 ++ c ++ 0x1#4) = c.toNat := by
  unfold opField chField
  and_intros <;> simp -index (disch := decide) only [BitVec.extractLsb'_append_eq_of_le,
    BitVec.extractLsb'_append_eq_of_add_le, BitVec.extractLsb'_eq_self]

/-- SW_CMD's word with the budget field `c` (R81). -/
theorem swReadretry_word_fields (c : BitVec 8) :
    opField (0#16 ++ c ++ 0x02#8) = 0x2#4 ∧ BitVec.extractLsb' 4 4 (0#16 ++ c ++ 0x02#8 : Word) = 0#4 ∧
    BitVec.extractLsb' 16 16 (0#16 ++ c ++ 0x02#8 : Word) = 0#16 ∧ nField (0#16 ++ c ++ 0x02#8) = c.toNat := by
  unfold opField nField
  and_intros <;> simp -index (disch := decide) only [BitVec.extractLsb'_append_eq_of_le,
    BitVec.extractLsb'_append_eq_of_add_le, BitVec.extractLsb'_eq_self] <;> rfl

/-- The fields of ADC_CMD leave out no bit of the word (R80). -/
theorem adcCmd_fields_append (v : Word) : v.extractLsb' 8 24 ++ v.extractLsb' 4 4 ++ opField v = v := by
  rw [opField, BitVec.extractLsb'_append_extractLsb'_eq_extractLsb' (by rfl),
    BitVec.extractLsb'_append_extractLsb'_eq_extractLsb' (by rfl), BitVec.extractLsb'_eq_self]

/-- The fields of SW_CMD leave out no bit of the word (R81). -/
theorem swCmd_fields_append (v : Word) :
    v.extractLsb' 16 16 ++ v.extractLsb' 8 8 ++ (v.extractLsb' 4 4 ++ opField v) = v := by
  rw [opField, BitVec.extractLsb'_append_extractLsb'_eq_extractLsb' (by rfl),
    BitVec.extractLsb'_append_extractLsb'_eq_extractLsb' (by rfl),
    BitVec.extractLsb'_append_extractLsb'_eq_extractLsb' (by rfl), BitVec.extractLsb'_eq_self]

/-! ## Decoding and encoding are inverse -/

theorem decode_adcRead {v : Word} (op : opField v = 0x1#4) (reserved : v.extractLsb' 8 24 = 0#24) :
    decode .adcCmd v = .ok (.adcRead (chField v)) := by
  simp [decode, decodeAdc, op, reserved]

theorem decode_swReadretry {v : Word} (op : opField v = 0x2#4) (low : v.extractLsb' 4 4 = 0#4)
    (high : v.extractLsb' 16 16 = 0#16) : decode .swCmd v = .ok (.swReadretry (nField v)) := by
  simp [decode, decodeSw, op, low, high]

/-- Settles O2, command by command: an operand in its range survives the cut to its field. -/
theorem decodeInvertsEncode : Obligations.DecodeInvertsEncode := by
  unfold Obligations.DecodeInvertsEncode
  intro i hi
  cases i with
  | adcRead ch =>
    have hch : ch ≤ 15 := of_decide_eq_true hi
    obtain ⟨op, reserved, channel⟩ := adcRead_word_fields (BitVec.ofNat 4 ch)
    rw [encode, decode_adcRead op reserved, channel, BitVec.toNat_ofNat, Nat.mod_eq_of_lt (by omega)]
  | adcReadall => rfl
  | swRead => rfl
  | swReadretry n =>
    have hn : n ≤ 255 := of_decide_eq_true hi
    obtain ⟨op, low, high, budget⟩ := swReadretry_word_fields (BitVec.ofNat 8 n)
    rw [encode, decode_swReadretry op low high, budget, BitVec.toNat_ofNat, Nat.mod_eq_of_lt (by omega)]

/-- Settles O3: the fields a decoder checks and the operand it reads are the whole word. -/
theorem decodedWordIsTheEncoding : Obligations.DecodedWordIsTheEncoding := by
  unfold Obligations.DecodedWordIsTheEncoding
  intro r v i h
  cases r with
  | adcCmd =>
    obtain ⟨op, reserved, rfl⟩ | ⟨rfl, rfl⟩ := decode_adcCmd_ok h
    · refine ⟨decide_eq_true (chField_le v), ?_⟩
      rw [encode, chField, BitVec.ofNat_toNat, BitVec.setWidth_eq, ← reserved, ← op, adcCmd_fields_append]
    · exact ⟨rfl, rfl⟩
  | swCmd =>
    obtain ⟨rfl, rfl⟩ | ⟨op, low, high, rfl⟩ := decode_swCmd_ok h
    · exact ⟨rfl, rfl⟩
    · have tail : 0x02#8 = v.extractLsb' 4 4 ++ opField v := by rw [low, op]; rfl
      refine ⟨decide_eq_true (nField_le v), ?_⟩
      rw [encode, nField, BitVec.ofNat_toNat, BitVec.setWidth_eq, ← high, tail, swCmd_fields_append]

/-- Settles O1, word by word. -/
theorem decodeReadsListedWords : Obligations.DecodeReadsListedWords := by
  unfold Obligations.DecodeReadsListedWords
  refine ⟨rfl, rfl, rfl, rfl, rfl, rfl, fun v hv => ?_, fun v hv => ?_⟩ <;> fin_cases hv <;> rfl

/-! ## Command words by shifts, as the assembler's lines give them -/

/-- A number that fits a field is itself in every wider one. -/
theorem setWidth_ofNat_of_lt {m x : Nat} (h : x < 2 ^ m) (n : Nat) :
    (BitVec.ofNat m x).setWidth n = BitVec.ofNat n x := by
  apply BitVec.eq_of_toNat_eq
  rw [BitVec.toNat_setWidth, BitVec.toNat_ofNat, BitVec.toNat_ofNat, Nat.mod_eq_of_lt h]

theorem encode_adcRead {ch : Nat} (h : ch ≤ 15) :
    encode (.adcRead ch) = (.adcCmd, (BitVec.ofNat 32 ch <<< 4) ||| 0x1#32) := by
  have word : (0#24 ++ BitVec.ofNat 4 ch ++ 0x1#4).setWidth 32 = (BitVec.ofNat 32 ch <<< 4) ||| 0x1#32 := by
    rw [BitVec.setWidth_append_append_eq_shiftLeft_setWidth_or, setWidth_ofNat_of_lt (m := 4) (by omega)]
    simp
  rw [encode, ← word, BitVec.setWidth_eq]

theorem encode_swReadretry {n : Nat} (h : n ≤ 255) :
    encode (.swReadretry n) = (.swCmd, (BitVec.ofNat 32 n <<< 8) ||| 0x2#32) := by
  have word : (0#16 ++ BitVec.ofNat 8 n ++ 0x02#8).setWidth 32 = (BitVec.ofNat 32 n <<< 8) ||| 0x2#32 := by
    rw [BitVec.setWidth_append_append_eq_shiftLeft_setWidth_or, setWidth_ofNat_of_lt (m := 8) (x := n) (by omega)]
    simp
  rw [encode, ← word, BitVec.setWidth_eq]

namespace Machine

/-! ## The assembler -/

theorem cmdOps_adcRead {ch : Nat} (h : ch ≤ 15) :
    cmdOps (.adcRead ch) = some [.wr 0x04#6 4 ((BitVec.ofNat 32 ch <<< 4) ||| 0x1#32)] := by
  have hw : Instr.wellFormed (.adcRead ch) = true := decide_eq_true h
  rw [cmdOps, if_pos hw, encode_adcRead h]
  rfl

theorem cmdOps_adcRead_none {ch : Nat} (h : 15 < ch) : cmdOps (.adcRead ch) = none := by
  simp [cmdOps, Instr.wellFormed, h]

theorem cmdOps_swReadretry {n : Nat} (h : n ≤ 255) :
    cmdOps (.swReadretry n) = some [.wr 0x20#6 4 ((BitVec.ofNat 32 n <<< 8) ||| 0x2#32)] := by
  have hw : Instr.wellFormed (.swReadretry n) = true := decide_eq_true h
  rw [cmdOps, if_pos hw, encode_swReadretry h]
  rfl

theorem cmdOps_swReadretry_none {n : Nat} (h : 255 < n) : cmdOps (.swReadretry n) = none := by
  simp [cmdOps, Instr.wellFormed, h]

/-- Settles O4: the commands with an operand by their word or its absence; a pseudo-instruction is refused or goes on as
its command does; the other lines are their accesses by definition. -/
theorem assemblerExpandsLines : Obligations.AssemblerExpandsLines := by
  unfold Obligations.AssemblerExpandsLines
  refine ⟨fun _ _ => cmdOps_adcRead, fun _ _ => cmdOps_adcRead_none, fun _ => rfl, fun _ => rfl,
    fun _ _ => cmdOps_swReadretry, fun _ _ => cmdOps_swReadretry_none, fun _ _ => rfl, fun _ _ _ => rfl,
    fun _ _ _ _ => rfl, fun _ _ => rfl, fun _ => rfl, rfl, fun _ _ => rfl, fun _ => rfl, fun _ => rfl,
    fun _ => rfl, fun _ => rfl, fun p ch ops h => ?_, fun _ => rfl, fun _ => rfl, fun p n d ops h => ?_,
    fun p ch h => ?_, fun p n d h => ?_⟩
  · exact congrArg (Option.map _) h
  · exact congrArg (Option.map _) h
  · exact congrArg (Option.map _) (cmdOps_adcRead_none h)
  · exact congrArg (Option.map _) (cmdOps_swReadretry_none h)

/-! ## The placed word (log 5, log 7) -/

/-- The table's decoder answers what the machine's own decoder reads at the register it chose. -/
theorem decode_of_tableCommand {v : Word} {r : CmdReg} {i : Instr} (h : tableCommand v = some (r, i)) :
    decode r v = .ok i := by
  unfold tableCommand at h
  simp only [decodeBytes_lanes] at h
  split at h <;> simp_all

theorem tableCommand_of_decodeTableWord {nbits w : Nat} {i : Instr} (h : decodeTableWord nbits w = some i) :
    ∃ r, tableCommand (tableWord nbits w) = some (r, i) := by
  unfold decodeTableWord at h
  split at h
  · obtain ⟨⟨r, j⟩, hc, rfl⟩ := Option.map_eq_some_iff.mp h
    exact ⟨r, hc⟩
  · cases h

/-- Settles O6: the placed write is one that O5 speaks of. -/
theorem fetchedWordRunsAsItsCommand : Obligations.FetchedWordRunsAsItsCommand := by
  unfold Obligations.FetchedWordRunsAsItsCommand
  intro s nbits w i hl h
  obtain ⟨r, hc⟩ := tableCommand_of_decodeTableWord h
  have hr : fetchReg (tableWord nbits w) = r := by rw [fetchReg, hc]
  have hh : (s.withFetchWord nbits w).host = .wr (cmdOffset r) 4 (tableWord nbits w) :: s.host := by rw [← hr]; rfl
  exact stepRunsDecodedCommand _ r _ i s.turns s.host hl rfl rfl hh (decode_of_tableCommand hc)

/-! ## The temperature byte (R90) -/

theorem tempDecode_twosComplement (b : Byte) : tempDecode .twosComplement b = b.toInt := by
  rw [BitVec.toInt_eq_toNat_cond, tempDecode]
  split <;> split <;> omega

theorem tempDecode_signMagnitude (b : Byte) :
    tempDecode .signMagnitude b = if b.getLsbD 7 then -((b.toNat : Int) - 128) else b.toNat := by
  have sign : b.getLsbD 7 = decide (128 ≤ b.toNat) := BitVec.getLsbD_last b
  have hb := b.isLt
  simp only [tempDecode, sign, decide_eq_true_eq, BitVec.extractLsb'_toNat, Nat.shiftRight_zero]
  split <;> omega

/-- Settles O42, encoding by encoding; two's complement is the library's `toInt`, which `ofInt` inverts. -/
theorem temperatureDecodesByEncoding : Obligations.TemperatureDecodesByEncoding := by
  unfold Obligations.TemperatureDecodesByEncoding
  intro b
  refine ⟨fun h => if_pos h, fun h => if_neg (Nat.not_lt.mpr h), rfl, fun h => ?_, fun h => ?_, ?_⟩
  · rw [tempDecode_signMagnitude, h]; rfl
  · rw [tempDecode_signMagnitude, h]; rfl
  · rw [tempDecode_twosComplement, temperatureByte, BitVec.ofInt_toInt]

end Machine

end Sys2Proof

/-! PROOFS. The host's polls and delays, turn by turn (family 30_encoding, log 3). -/

namespace Sys2Proof.Machine

/-- A host turn whose operation is no undefined access answers a next state (R68). -/
theorem hostTurn_answers {s : State} {op : HostOp} {rest : List HostOp} (hh : s.host = op :: rest)
    (ho : op.undefinedAccess = false) : ∃ t, hostTurn s = .next t := by
  cases h : hostTurn s with
  | next t => exact ⟨t, rfl⟩
  | fault f => exact nomatch f
  | refused r =>
    obtain ⟨-, op', rest', hh', undefined⟩ := hostTurn_refused_iff.mp h
    obtain ⟨rfl, -⟩ := List.cons.inj (hh.symm.trans hh')
    exact absurd undefined (Bool.eq_false_iff.mp ho)

section

variable {s : State} {ts : List Turn} {hs : List HostOp}

theorem step_host (hl : s.params.Legal) (ht : s.turns = .host :: ts) : step s = hostTurn { s with turns := ts } := by
  rw [step_legal hl, nextTurn_cons ht]
  rfl

/-- One read of a poll while `rst_n` is high (R93). -/
theorem step_poll {off : Offset} {mask val : Word} (hl : s.params.Legal) (hr : s.rstN = true)
    (ho : off.toNat % 4 = 0) (ht : s.turns = .host :: ts) (hh : s.host = .poll off mask val :: hs) :
    step s = .next { s with
      lastRead := memRead off s
      host := if memRead off s &&& mask = val then hs else s.host
      turns := ts } := by
  have defined : HostOp.undefinedAccess (.poll off mask val) = false := by
    simp [HostOp.undefinedAccess, accessDefined, ho]
  have read : busRead off { s with turns := ts } = memRead off s := if_pos hr
  obtain ⟨t, h⟩ := hostTurn_answers (s := { s with turns := ts }) hh defined
  rw [step_host hl ht, h, hostTurn_poll (s := { s with turns := ts }) hh h, read]

/-- The host's turn at a delay with n ticks left (R92). -/
theorem step_delay {n : Nat} (hl : s.params.Legal) (ht : s.turns = .host :: ts) (hh : s.host = .delay n :: hs) :
    step s = .next { s with host := if n = 0 then hs else s.host, turns := ts } := by
  obtain ⟨t, h⟩ := hostTurn_answers (s := { s with turns := ts }) hh rfl
  rw [step_host hl ht, h, hostTurn_delay (s := { s with turns := ts }) hh h]

end

theorem hostAfter_delay (n k : Nat) (hs : List HostOp) : hostAfter k (.delay n :: hs) = .delay (n - k) :: hs := by
  induction k with
  | zero => rfl
  | succ k ih =>
    rw [hostAfter, ih, ← Nat.sub_sub]
    cases n - k <;> rfl

/-- k ticks of a delay of n, and then the host's turn. -/
theorem run_delay {s : State} {n k : Nat} {din line : Nat → Level} {rest : List Turn} {hs : List HostOp}
    (hl : s.params.Legal) (hr : s.rstN = true) (hh : s.host = .delay n :: hs)
    (ht : s.turns = tickTurns din line 0 k ++ .host :: rest) :
    Host.Core.run Sys2Proof.core (k + 1) s = .next { s with
      adc := adcAfter s.params din k s.adc
      sw := swAfter s.params line k s.sw
      host := if n ≤ k then hs else .delay (n - k) :: hs
      turns := rest } := by
  have ticks := ticksRunBothEngines s din line k _ hl hr ht
  rw [hh, hostAfter_delay] at ticks
  rw [run_succ_last ticks (step_delay hl rfl rfl)]
  simp only [Nat.sub_eq_zero_iff_le]

/-- Settles O19: whether a poll's read matches, and whether a delay's ticks have passed, decides what stays. -/
theorem pollAndDelayHoldTheHost : Obligations.PollAndDelayHoldTheHost := by
  unfold Obligations.PollAndDelayHoldTheHost
  refine ⟨fun s off mask val ts hs hl hr ho ht hh => ⟨fun hmatch => ?_, fun hmiss => ?_⟩,
    fun s n k din line rest hs hl hr hk hh ht => ?_, fun s n k din line rest hs hl hr hk hh ht => ?_⟩
  · rw [step_poll hl hr ho ht hh, if_pos hmatch]
  · rw [step_poll hl hr ho ht hh, if_neg hmiss]
  · rw [run_delay hl hr hh ht, if_neg (Nat.not_le.mpr hk)]
  · rw [run_delay hl hr hh ht, if_pos hk]

end Sys2Proof.Machine

/-! PROOFS. The ADC transaction as one run (40_adc.md R113 to R122): the engine at the start of every phase, the eight
bits that it shifts in, and the byte presented to it (family 30_encoding, R94). -/

namespace Sys2Proof.Machine

/-! ## Ticks of the ADC engine -/

/-- m + n ticks are m ticks and then n, on the levels that come after them. -/
theorem adcAfter_add (p : Params) (din : Nat → Level) (m n : Nat) (a : AdcEngine) :
    adcAfter p din (m + n) a = adcAfter p (fun i => din (m + i)) n (adcAfter p din m a) := by
  induction n with
  | zero => rfl
  | succ n ih => rw [← Nat.add_assoc, adcAfter, ih, adcAfter, Nat.add_assoc]

/-- Inside a phase only the counter moves (R113). -/
theorem adcAfter_inside {p : Params} {a : AdcEngine} (din : Nat → Level) (hp : a.phase ≠ .idle) (h0 : a.cnt = 0)
    {n : Nat} (hn : n < p.tAdcPhase) : adcAfter p din n a = { a with cnt := n } := by
  induction n with
  | zero => rw [adcAfter, ← h0]
  | succ n ih =>
    rw [adcAfter, ih (by omega)]
    exact adcTick_inside hp hn

/-- A phase is T ticks, and the last of them ends it (R113, R121). -/
theorem adcAfter_phase {p : Params} {a : AdcEngine} (din : Nat → Level) (hl : p.Legal) (hp : a.phase ≠ .idle)
    (h0 : a.cnt = 0) : adcAfter p din p.tAdcPhase a = adcPhaseEnd p (din p.tAdcPhase) a := by
  obtain ⟨-, ⟨hT, -⟩, -⟩ := legal_ranges hl
  obtain ⟨k, hk⟩ : ∃ k, p.tAdcPhase = k + 1 := ⟨p.tAdcPhase - 1, by omega⟩
  have zeroed : { a with cnt := 0 } = a := by rw [← h0]
  rw [hk, adcAfter, adcAfter_inside din hp h0 (by omega)]
  exact (adcTick_last (a := { a with cnt := k }) hp hk.le).trans (congrArg _ zeroed)

/-- T ticks more, when the engine has just entered a phase. -/
theorem adcAfter_add_phase {p : Params} {a b : AdcEngine} {din : Nat → Level} {m : Nat} (hl : p.Legal)
    (hm : adcAfter p din m a = b) (hp : b.phase ≠ .idle) (h0 : b.cnt = 0) :
    adcAfter p din (m + p.tAdcPhase) a = adcPhaseEnd p (din (m + p.tAdcPhase)) b := by
  rw [adcAfter_add, hm, adcAfter_phase _ hl hp h0]

/-! ## The sample ticks and the bits -/

theorem sampleTick_rising {p : Params} (h : p.adcSampleEdge = .rising) (k : Nat) :
    sampleTick p k = p.tAdcPhase + 2 * k * p.tAdcPhase + p.tAdcPhase := by
  rw [sampleTick, h]
  ring

theorem sampleTick_falling {p : Params} (h : p.adcSampleEdge = .falling) (k : Nat) :
    sampleTick p k = p.tAdcPhase + 2 * k * p.tAdcPhase + p.tAdcPhase + p.tAdcPhase := by
  rw [sampleTick, h]
  ring

/-- The shift register after the first n data cycles: their levels at the sample ticks, in order of arrival (R117). -/
def received (p : Params) (din : Nat → Level) : Nat → Byte
  | 0 => 0#8
  | n + 1 => shiftIn8 (received p din n) (din (sampleTick p (6 + n)))

/-- Cycle k adds its bit if it is a data cycle. -/
theorem received_after_cycle (p : Params) (din : Nat → Level) (k : Nat) :
    received p din (k + 1 - 6) =
      if 6 ≤ k then shiftIn8 (received p din (k - 6)) (din (sampleTick p k)) else received p din (k - 6) := by
  split
  · rw [show k + 1 - 6 = k - 6 + 1 by omega, received, show 6 + (k - 6) = k by omega]
  · rw [show k + 1 - 6 = 0 by omega, show k - 6 = 0 by omega]

theorem shiftIn8_getLsbD (r : Byte) (b : Level) {i : Nat} (hi : i < 8) :
    (shiftIn8 r b).getLsbD i = if i = 0 then b else r.getLsbD (i - 1) := by
  rw [shiftIn8, BitVec.getLsbD_append]
  by_cases h0 : i = 0
  · simp [h0]
  · simp [h0, show i - 1 < 7 by omega]

/-- The first bit to arrive is the most significant one. -/
theorem received_getLsbD (p : Params) (din : Nat → Level) {n i : Nat} (hi : i < n) (hn : n ≤ 8) :
    (received p din n).getLsbD i = din (sampleTick p (n + 5 - i)) := by
  induction n generalizing i with
  | zero => omega
  | succ n ih =>
    rw [received, shiftIn8_getLsbD _ _ (by omega)]
    split
    · rw [show n + 1 + 5 - i = 6 + n by omega]
    · rw [ih (by omega) (by omega), show n + 5 - (i - 1) = n + 1 + 5 - i by omega]

/-! ## The command bits (30_encoding.md R84) -/

theorem adcCommandBits_getLsbD {p : Params} {c : BitVec 2} {k : Nat} (hk : k ≤ 4) :
    (adcCommandBits p c).getLsbD (4 - k) = commandLevel p c k := by
  have bits : ∀ (c : BitVec 2) (pad : Level), let v := 0b11#2 ++ c ++ BitVec.ofBool pad
      v.getLsbD 4 = true ∧ v.getLsbD 3 = true ∧ v.getLsbD 2 = c.getLsbD 1 ∧ v.getLsbD 1 = c.getLsbD 0 ∧
      v.getLsbD 0 = pad := by decide
  obtain ⟨start, single, channel1, channel0, pad⟩ := bits c p.adcCmdPad
  match k, hk with
  | 0, _ => exact start
  | 1, _ => exact single
  | 2, _ => exact channel1
  | 3, _ => exact channel0
  | 4, _ => exact pad

theorem commandLevel_released {p : Params} {c : BitVec 2} {k : Nat} (hk : 5 ≤ k) : commandLevel p c k = false := by
  obtain ⟨k, rfl⟩ := Nat.exists_eq_add_of_le' hk
  rfl

/-! ## The engine at the start of each phase

For a transaction of channel `c` started on the engine `a`, against the levels `din`. -/

/-- At the start of the LOW phase of cycle k. -/
def cycleStart (p : Params) (din : Nat → Level) (c : BitVec 2) (a : AdcEngine) (k : Nat) : AdcEngine :=
  { startTransaction p c a with
    phase := .low
    cycle := k
    shift := received p din (k - 6)
    dout := commandLevel p c k
    doutOe := decide (k ≤ 4) }

/-- At the start of the HIGH phase of cycle k: its bit has come if the rising edge is the one that samples (R117). -/
def cycleHigh (p : Params) (din : Nat → Level) (c : BitVec 2) (a : AdcEngine) (k : Nat) : AdcEngine :=
  { cycleStart p din c a k with
    clk := true
    phase := .high
    shift := match p.adcSampleEdge with
      | .rising => received p din (k + 1 - 6)
      | .falling => received p din (k - 6) }

/-- At the start of the END phase: the clock has fallen for the last time, and all eight bits have come. -/
def clockDone (p : Params) (din : Nat → Level) (c : BitVec 2) (a : AdcEngine) : AdcEngine :=
  { cycleStart p din c a 13 with phase := .ending, shift := received p din 8 }

/-- At the start of the GAP: the converter is deselected (R118). -/
def inGap (p : Params) (din : Nat → Level) (c : BitVec 2) (a : AdcEngine) : AdcEngine :=
  { clockDone p din c a with csN := true, dout := false, doutOe := false, phase := .gap }

section

variable {p : Params} {din : Nat → Level} {c : BitVec 2} {a : AdcEngine} {k : Nat} {d : Level}

theorem setup_phaseEnd : adcPhaseEnd p d (startTransaction p c a) = cycleStart p din c a 0 := by
  simp only [cycleStart, ← adcCommandBits_getLsbD (Nat.zero_le 4)]
  rfl

theorem cycleStart_phaseEnd (hd : p.adcSampleEdge = .rising → d = din (sampleTick p k)) :
    adcPhaseEnd p d (cycleStart p din c a k) = cycleHigh p din c a k := by
  rw [cycleHigh, received_after_cycle]
  cases he : p.adcSampleEdge with
  | rising =>
    rw [hd he]
    by_cases hk : 6 ≤ k <;> simp [adcPhaseEnd, sampleAt, cycleStart, he, hk]
  | falling => simp [adcPhaseEnd, sampleAt, cycleStart, he]

/-- By the end of cycle k its bit has come, at whichever edge. -/
theorem cycleHigh_sampleAt (hd : p.adcSampleEdge = .falling → d = din (sampleTick p k)) :
    sampleAt p .falling d (cycleHigh p din c a k) =
      { cycleHigh p din c a k with shift := received p din (k + 1 - 6) } := by
  rw [cycleHigh, received_after_cycle]
  cases he : p.adcSampleEdge with
  | rising => simp [sampleAt, he]
  | falling =>
    rw [hd he]
    by_cases hk : 6 ≤ k <;> simp [sampleAt, cycleStart, he, hk]

/-- The next cycle drives its command bit, releases the wire (cycle 5), or leaves it released (R116). -/
theorem enterLow_cycleHigh (p : Params) (din : Nat → Level) (c : BitVec 2) (a : AdcEngine) (k : Nat) :
    enterLow (k + 1) { cycleHigh p din c a k with shift := received p din (k + 1 - 6) } =
      cycleStart p din c a (k + 1) := by
  have level : (if k + 1 ≤ 4 then (adcCommandBits p c).getLsbD (4 - (k + 1)) else if k + 1 = 5 then false
      else commandLevel p c k) = commandLevel p c (k + 1) := by
    split
    · exact adcCommandBits_getLsbD ‹_›
    · rw [commandLevel_released (k := k + 1) (by omega)]
      split
      · rfl
      · exact commandLevel_released (by omega)
  have driven : (if k + 1 ≤ 4 then true else if k + 1 = 5 then false else decide (k ≤ 4)) = decide (k + 1 ≤ 4) := by
    split
    · exact (decide_eq_true ‹_›).symm
    · split <;> simp <;> omega
  simp only [enterLow, cycleHigh, cycleStart, startTransaction, level, driven]

theorem cycleHigh_phaseEnd (hk : k < 13) (hd : p.adcSampleEdge = .falling → d = din (sampleTick p k)) :
    adcPhaseEnd p d (cycleHigh p din c a k) = cycleStart p din c a (k + 1) := by
  show (if (sampleAt p .falling d (cycleHigh p din c a k)).cycle < 13 then _ else _) = _
  rw [cycleHigh_sampleAt hd, ← enterLow_cycleHigh]
  exact if_pos hk

theorem cycleHigh_phaseEnd_last (hd : p.adcSampleEdge = .falling → d = din (sampleTick p 13)) :
    adcPhaseEnd p d (cycleHigh p din c a 13) = clockDone p din c a := by
  show (if (sampleAt p .falling d (cycleHigh p din c a 13)).cycle < 13 then _ else _) = _
  rw [cycleHigh_sampleAt hd]
  rfl

end

/-! ## The transaction's timeline (R122) -/

section

variable {p : Params} (hl : p.Legal) (din : Nat → Level) (c : BitVec 2) (a : AdcEngine) {k : Nat}

include hl

theorem adcAfter_cycleHigh_of_cycleStart
    (h : adcAfter p din (p.tAdcPhase + 2 * k * p.tAdcPhase) (startTransaction p c a) = cycleStart p din c a k) :
    adcAfter p din (p.tAdcPhase + 2 * k * p.tAdcPhase + p.tAdcPhase) (startTransaction p c a) =
      cycleHigh p din c a k := by
  rw [adcAfter_add_phase hl h (by simp [cycleStart]) rfl,
    cycleStart_phaseEnd fun he => by rw [sampleTick_rising he]]

/-- Cycle k begins T + 2kT ticks into the transaction. -/
theorem adcAfter_cycleStart (hk : k ≤ 13) :
    adcAfter p din (p.tAdcPhase + 2 * k * p.tAdcPhase) (startTransaction p c a) = cycleStart p din c a k := by
  induction k with
  | zero => rw [Nat.mul_zero, Nat.zero_mul, Nat.add_zero, adcAfter_phase din hl (by simp) rfl, setup_phaseEnd]
  | succ k ih =>
    have high := adcAfter_cycleHigh_of_cycleStart hl din c a (ih (by omega))
    rw [show p.tAdcPhase + 2 * (k + 1) * p.tAdcPhase =
        p.tAdcPhase + 2 * k * p.tAdcPhase + p.tAdcPhase + p.tAdcPhase by ring,
      adcAfter_add_phase hl high (by simp [cycleHigh]) rfl,
      cycleHigh_phaseEnd (by omega) fun he => by rw [sampleTick_falling he]]

theorem adcAfter_cycleHigh (hk : k ≤ 13) :
    adcAfter p din (p.tAdcPhase + 2 * k * p.tAdcPhase + p.tAdcPhase) (startTransaction p c a) =
      cycleHigh p din c a k :=
  adcAfter_cycleHigh_of_cycleStart hl din c a (adcAfter_cycleStart hl din c a hk)

theorem adcAfter_clockDone : adcAfter p din (29 * p.tAdcPhase) (startTransaction p c a) = clockDone p din c a := by
  rw [show 29 * p.tAdcPhase = p.tAdcPhase + 2 * 13 * p.tAdcPhase + p.tAdcPhase + p.tAdcPhase by ring,
    adcAfter_add_phase hl (adcAfter_cycleHigh hl din c a le_rfl) (by simp [cycleHigh]) rfl,
    cycleHigh_phaseEnd_last fun he => by rw [sampleTick_falling he]]

theorem adcAfter_inGap : adcAfter p din (30 * p.tAdcPhase) (startTransaction p c a) = inGap p din c a := by
  rw [show 30 * p.tAdcPhase = 29 * p.tAdcPhase + p.tAdcPhase by ring,
    adcAfter_add_phase hl (adcAfter_clockDone hl din c a) (by simp [clockDone]) rfl]
  rfl

/-- The whole transaction, up to what its end does with the byte (R119, R120). -/
theorem adcAfter_transaction :
    adcAfter p din (transactionTicks p) (startTransaction p c a) = transactionEnd p (inGap p din c a) := by
  rw [show transactionTicks p = 30 * p.tAdcPhase + p.tAdcPhase by rw [transactionTicks]; ring,
    adcAfter_add_phase hl (adcAfter_inGap hl din c a) (by simp [inGap]) rfl]
  rfl

end

/-! ## A presented byte -/

/-- Either edge samples inside the cycle through which R94 presents the bit. -/
theorem sampleTick_in_cycle {p : Params} (hl : p.Legal) (k : Nat) :
    p.tAdcPhase + 2 * k * p.tAdcPhase < sampleTick p k ∧
    sampleTick p k ≤ 3 * p.tAdcPhase + 2 * k * p.tAdcPhase := by
  obtain ⟨-, ⟨hT, -⟩, -⟩ := legal_ranges hl
  unfold sampleTick
  split <;> omega

theorem received_of_presentsByte {p : Params} {din : Nat → Level} {b : Byte} (hl : p.Legal)
    (h : PresentsByte p din b) : received p din 8 = b := by
  ext i hi
  obtain ⟨first, last⟩ := sampleTick_in_cycle hl (8 + 5 - i)
  rw [← BitVec.getLsbD_eq_getElem, ← BitVec.getLsbD_eq_getElem, received_getLsbD p din hi le_rfl,
    h _ _ (by omega) (by omega) first last, show 13 - (8 + 5 - i) = i by omega]

/-- ADC_RESULT with VALID set (10_state.md R28). -/
theorem AdcResult.word_of_valid (sample : Byte) (channel : BitVec 2) :
    AdcResult.word ⟨sample, channel, true⟩ =
      0x80000000#32 ||| (channel.setWidth 32 <<< 8) ||| sample.setWidth 32 := by
  have fields := BitVec.setWidth_append_append_append_eq_shiftLeft_setWidth_or (b := BitVec.ofBool true)
    (b' := 0#21) (b'' := channel) (b''' := sample) (w'''' := 32)
  rw [BitVec.setWidth_eq] at fields
  rw [AdcResult.word, fields]
  simp

/-- READ_CHANNEL of a valid channel, from its acceptance to its completion, writes the eight bits (R111, R119). -/
theorem adcAfter_readChannel_result {p : Params} {a : AdcEngine} {ch : Nat} (hl : p.Legal)
    (hb : a.status.busy = false) (hch : ch < p.adcChannels) (din : Nat → Level) :
    (adcAfter p din (transactionTicks p) (adcCommandWrite 0x1#4 (runReadChannel p ch) a)).result =
      ⟨received p din 8, BitVec.ofNat 2 ch, true⟩ := by
  rw [adcCommandWrite_idle hb, runReadChannel_valid hch, adcAfter_transaction hl]
  rfl

/-- Settles O34: the eight bits that come are the presented ones, and a valid channel fits its field. -/
theorem presentedByteIsTheSample : Obligations.PresentedByteIsTheSample := by
  unfold Obligations.PresentedByteIsTheSample
  intro s ch din b hl hb hch hpresent
  obtain ⟨⟨-, hN⟩, -⟩ := legal_ranges hl
  have result := adcAfter_readChannel_result hl hb hch din
  rw [received_of_presentsByte hl hpresent] at result
  refine ⟨_, _, rfl, rfl, result, ?_⟩
  rw [result, AdcResult.word_of_valid, setWidth_ofNat_of_lt (m := 2) (by omega)]

end Sys2Proof.Machine

/-! PROOFS. The ADC commands from acceptance to completion (family 40_adc): what they start, and the pins over the 31
phases of a transaction. -/

namespace Sys2Proof.Machine

/-! ## The accepted commands -/

/-- The engine as an accepted READ_CHANNEL hands it to its transaction (R110, R111). -/
def readChannelAccepted (a : AdcEngine) : AdcEngine :=
  { adcAccept 0x1#4 a with
    op := .readChannel
    status := ⟨true, false, a.status.overrun, .ok, 0x1#4⟩ }

/-- The engine as an accepted READ_ALL hands it to its first transaction (R110, R112). -/
def readAllAccepted (a : AdcEngine) : AdcEngine :=
  { adcAccept 0x2#4 a with
    op := .readAll
    all := ⟨0#8, 0#8, 0#8, 0#8⟩
    status := ⟨true, false, a.status.overrun, .ok, 0x2#4⟩ }

theorem exec_adcRead_valid {ch : Nat} {s : State} (hb : s.adc.status.busy = false)
    (hch : ch < s.params.adcChannels) :
    exec (.adcRead ch) s =
      .next { s with adc := startTransaction s.params (BitVec.ofNat 2 ch) (readChannelAccepted s.adc) } := by
  show Host.Outcome.next { s with adc := adcCommandWrite _ _ _ } = _
  rw [adcCommandWrite_idle hb, runReadChannel_valid hch]
  rfl

theorem exec_adcRead_invalid {ch : Nat} {s : State} (hb : s.adc.status.busy = false)
    (hch : s.params.adcChannels ≤ ch) :
    exec (.adcRead ch) s = .next { s with adc := completeAdc .invalidChannel (adcAccept 0x1#4 s.adc) } := by
  show Host.Outcome.next { s with adc := adcCommandWrite _ _ _ } = _
  rw [adcCommandWrite_idle hb, runReadChannel_invalid hch]

theorem exec_adcReadall_idle {s : State} (hb : s.adc.status.busy = false) :
    exec .adcReadall s = .next { s with adc := startTransaction s.params 0#2 (readAllAccepted s.adc) } := by
  show Host.Outcome.next { s with adc := adcCommandWrite _ _ _ } = _
  rw [adcCommandWrite_idle hb]
  rfl

/-- The first command bit is the start bit, a 1 (30_encoding.md R84). -/
theorem adcCommandBits_startBit (p : Params) (c : BitVec 2) : (adcCommandBits p c).getLsbD 4 = true :=
  adcCommandBits_getLsbD (Nat.zero_le 4)

/-- Settles O22: the accepted command with every write of StartTransaction, the start bit on the data line. -/
theorem readChannelStartsTransaction : Obligations.ReadChannelStartsTransaction := by
  unfold Obligations.ReadChannelStartsTransaction
  intro ch s hb hch
  rw [exec_adcRead_valid hb hch]
  simp only [startTransaction, adcCommandBits_startBit]
  rfl

/-- Settles O24: the accepted command with every write of StartTransaction for channel 0. -/
theorem readAllStartsAtChannelZero : Obligations.ReadAllStartsAtChannelZero := by
  unfold Obligations.ReadAllStartsAtChannelZero
  intro s hb
  rw [exec_adcReadall_idle hb]
  simp only [startTransaction, adcCommandBits_startBit]
  rfl

/-! ## Phases -/

/-- Settles O30: the counter moves inside a phase, and the tick at which it is full ends the phase. -/
theorem adcPhaseLastsItsTicks : Obligations.AdcPhaseLastsItsTicks := by
  unfold Obligations.AdcPhaseLastsItsTicks
  intro p din a hl hp h0
  exact ⟨fun n hn => adcAfter_inside din hp h0 hn, adcAfter_phase din hl hp h0⟩

theorem adcAfter_idle {a : AdcEngine} (hp : a.phase = .idle) (p : Params) (din : Nat → Level) (n : Nat) :
    adcAfter p din n a = a := by
  induction n with
  | zero => rfl
  | succ n ih => rw [adcAfter, ih, adcTick_idle hp]

/-- The pins in phase number q of a transaction for channel c: SETUP is phase 0, LOW and HIGH of cycle k are the phases
2k+1 and 2k+2, END is phase 29 and GAP phase 30 (R122). -/
def phasePins (p : Params) (c : BitVec 2) (q : Nat) : AdcPins where
  csN := decide (q = 30)
  clk := decide (q % 2 = 0 ∧ 2 ≤ q ∧ q ≤ 28)
  dout := commandLevel p c ((q - 1) / 2)
  doutOe := decide ((q - 1) / 2 ≤ 4)

theorem phasePins_low (p : Params) (c : BitVec 2) {k : Nat} (hk : k < 14) :
    phasePins p c (2 * k + 1) = ⟨false, false, commandLevel p c k, decide (k ≤ 4)⟩ := by
  have cycle : (2 * k + 1 - 1) / 2 = k := by omega
  simp only [phasePins, cycle, AdcPins.mk.injEq, decide_eq_false_iff_not, and_true]
  omega

theorem phasePins_high (p : Params) (c : BitVec 2) {k : Nat} (hk : k < 14) :
    phasePins p c (2 * k + 2) = ⟨false, true, commandLevel p c k, decide (k ≤ 4)⟩ := by
  have cycle : (2 * k + 2 - 1) / 2 = k := by omega
  simp only [phasePins, cycle, AdcPins.mk.injEq, decide_eq_false_iff_not, decide_eq_true_eq, and_true]
  omega

theorem phase_number_cases {q : Nat} (hq : q ≤ 30) :
    q = 0 ∨ (∃ k < 14, q = 2 * k + 1) ∨ (∃ k < 14, q = 2 * k + 2) ∨ q = 29 ∨ q = 30 := by
  by_cases setup : q = 0
  · exact .inl setup
  by_cases late : 29 ≤ q
  · exact .inr (.inr (.inr (by omega)))
  rcases Nat.mod_two_eq_zero_or_one q with even | odd
  · exact .inr (.inr (.inl ⟨(q - 2) / 2, by omega, by omega⟩))
  · exact .inr (.inl ⟨(q - 1) / 2, by omega, by omega⟩)

/-- The engine has just entered phase q of a transaction for channel c that began with this status. -/
structure EntersPhase (p : Params) (c : BitVec 2) (status : AdcStatus) (q : Nat) (b : AdcEngine) : Prop where
  running : b.phase ≠ .idle
  count : b.cnt = 0
  status : b.status = status
  pins : b.pins = phasePins p c q

section

variable {p : Params} (hl : p.Legal) (din : Nat → Level) (c : BitVec 2) (a : AdcEngine)

include hl

/-- Each of the 31 phases of a transaction begins at its multiple of T (R122). -/
theorem transaction_entersPhase {q : Nat} (hq : q ≤ 30) :
    EntersPhase p c a.status q (adcAfter p din (q * p.tAdcPhase) (startTransaction p c a)) := by
  obtain rfl | ⟨k, hk, rfl⟩ | ⟨k, hk, rfl⟩ | rfl | rfl := phase_number_cases hq
  · rw [Nat.zero_mul]
    refine ⟨by simp [adcAfter], rfl, rfl, ?_⟩
    simp [adcAfter, AdcEngine.pins, phasePins, adcCommandBits_startBit, commandLevel]
  · rw [show (2 * k + 1) * p.tAdcPhase = p.tAdcPhase + 2 * k * p.tAdcPhase by ring,
      adcAfter_cycleStart hl din c a (Nat.le_of_lt_succ hk)]
    exact ⟨by simp [cycleStart], rfl, rfl, (phasePins_low p c hk).symm⟩
  · rw [show (2 * k + 2) * p.tAdcPhase = p.tAdcPhase + 2 * k * p.tAdcPhase + p.tAdcPhase by ring,
      adcAfter_cycleHigh hl din c a (Nat.le_of_lt_succ hk)]
    exact ⟨by simp [cycleHigh], rfl, rfl, (phasePins_high p c hk).symm⟩
  · rw [adcAfter_clockDone hl din c a]
    exact ⟨by simp [clockDone], rfl, rfl, rfl⟩
  · rw [adcAfter_inGap hl din c a]
    exact ⟨by simp [inGap], rfl, rfl, rfl⟩

/-- At its tick n a transaction is in phase number n / T. -/
theorem adcAfter_in_transaction {n : Nat} (hn : n < transactionTicks p) :
    (adcAfter p din n (startTransaction p c a)).status = a.status ∧
    (adcAfter p din n (startTransaction p c a)).pins = phasePins p c (n / p.tAdcPhase) := by
  obtain ⟨-, ⟨hT, -⟩, -⟩ := legal_ranges hl
  have hq : n / p.tAdcPhase < 31 := Nat.div_lt_of_lt_mul (by rwa [Nat.mul_comm])
  obtain ⟨running, count, status, pins⟩ := transaction_entersPhase hl din c a (Nat.le_of_lt_succ hq)
  rw [← Nat.div_add_mod' n p.tAdcPhase, adcAfter_add,
    adcAfter_inside _ running count (Nat.mod_lt n (by omega)), Nat.div_add_mod']
  exact ⟨status, pins⟩

/-- The pins in the phase whose ticks are those from m on. -/
theorem transaction_pins {m n : Nat} (q : Nat) (hm : m = q * p.tAdcPhase) (hq : q ≤ 30) (h1 : m ≤ n)
    (h2 : n < m + p.tAdcPhase) : (adcAfter p din n (startTransaction p c a)).pins = phasePins p c q := by
  subst hm
  rw [← Nat.succ_mul] at h2
  have hn : n < transactionTicks p := h2.trans_le (Nat.mul_le_mul_right _ (by omega))
  obtain ⟨-, pins⟩ := adcAfter_in_transaction hl din c a hn
  rw [pins, Nat.div_eq_of_lt_le h1 h2]

end

/-- Settles O31: each range of ticks is one phase. -/
theorem adcPinTimeline : Obligations.AdcPinTimeline := by
  unfold Obligations.AdcPinTimeline
  rintro p c a din _ hl rfl
  refine ⟨fun n hn => ?_, fun k n hk h1 h2 => ?_, fun k n hk h1 h2 => ?_, fun n h1 h2 => ?_, fun n h1 h2 => ?_⟩
  · exact transaction_pins hl din c a 0 (Nat.zero_mul _).symm (by omega) n.zero_le (by omega)
  · rw [← phasePins_low p c hk]
    exact transaction_pins hl din c a (2 * k + 1) (by ring) (by omega) h1 (by omega)
  · rw [← phasePins_high p c hk]
    exact transaction_pins hl din c a (2 * k + 2) (by ring) (by omega) h1 (by omega)
  · exact transaction_pins hl din c a 29 rfl (by omega) h1 (by omega)
  · exact transaction_pins hl din c a 30 rfl (by omega) h1 (by omega)

end Sys2Proof.Machine

/-! PROOFS. Whole ADC commands (family 40_adc): a run of transactions, the edges of its pins, and the bytes it delivers. -/

namespace Sys2Proof.Machine

/-! ## Levels that change at phase boundaries only -/

/-- A level that depends on the number of the phase changes where a phase begins. -/
theorem edge_iff {T n : Nat} (hT : 0 < T) (level : Nat → Level) {u v : Level} (huv : u ≠ v) :
    (level (n / T) = u ∧ level ((n + 1) / T) = v) ↔
      ∃ q, n + 1 = (q + 1) * T ∧ level q = u ∧ level (q + 1) = v := by
  constructor
  · rintro ⟨hu, hv⟩
    have boundary : T ∣ n + 1 := by
      by_contra inside
      rw [Nat.succ_div_of_not_dvd inside, hu] at hv
      exact huv hv
    rw [Nat.succ_div_of_dvd boundary] at hv
    exact ⟨n / T, by rw [← Nat.succ_div_of_dvd boundary, Nat.div_mul_cancel boundary], hu, hv⟩
  · rintro ⟨q, hn, hu, hv⟩
    have before : n / T = q := by
      rw [Nat.succ_mul] at hn
      exact Nat.div_eq_of_lt_le (by omega) (by rw [Nat.succ_mul]; omega)
    rw [hn, Nat.mul_div_cancel _ hT, before]
    exact ⟨hu, hv⟩

/-- `adc_clk` in phase number q of a run of N transactions, the phases counted through all of them. -/
def runClk (N q : Nat) : Level := decide (q < 31 * N ∧ q % 31 % 2 = 0 ∧ 2 ≤ q % 31 ∧ q % 31 ≤ 28)

/-- `adc_cs_n` in phase number q of a run of N transactions. -/
def runCsN (N q : Nat) : Level := decide (31 * N ≤ q ∨ q % 31 = 30)

theorem runClk_rises_iff {N q : Nat} :
    (runClk N q = false ∧ runClk N (q + 1) = true) ↔ ∃ c k, c < N ∧ k < 14 ∧ q + 1 = 31 * c + 2 + 2 * k := by
  simp only [runClk, decide_eq_false_iff_not, decide_eq_true_eq]
  constructor
  · rintro ⟨-, high⟩
    exact ⟨(q + 1) / 31, ((q + 1) % 31 - 2) / 2, by omega⟩
  · rintro ⟨c, k, hc, hk, hq⟩
    have before : q % 31 = 1 + 2 * k := by omega
    have after : (q + 1) % 31 = 2 + 2 * k := by omega
    omega

theorem runCsN_rises_iff {N q : Nat} :
    (runCsN N q = false ∧ runCsN N (q + 1) = true) ↔ ∃ c, c < N ∧ q + 1 = 31 * c + 30 := by
  simp only [runCsN, decide_eq_false_iff_not, decide_eq_true_eq]
  constructor
  · rintro ⟨low, high⟩
    exact ⟨(q + 1) / 31, by omega⟩
  · rintro ⟨c, hc, hq⟩
    omega

theorem runCsN_falls_iff {N q : Nat} :
    (runCsN N q = true ∧ runCsN N (q + 1) = false) ↔ ∃ c, 1 ≤ c ∧ c < N ∧ q + 1 = 31 * c := by
  simp only [runCsN, decide_eq_false_iff_not, decide_eq_true_eq]
  constructor
  · rintro ⟨high, low⟩
    exact ⟨(q + 1) / 31, by omega⟩
  · rintro ⟨c, h1, hc, hq⟩
    omega

/-! ## A run of transactions -/

/-- From the engine `b` on, N transactions follow each other without a gap, and the pins stay idle after the last. -/
structure AdcRun (p : Params) (din : Nat → Level) (N : Nat) (b : AdcEngine) : Prop where
  each : ∀ m, m < N → ∃ c a, a.status = b.status ∧
    adcAfter p din (m * transactionTicks p) b = startTransaction p c a
  ends : (adcAfter p din (N * transactionTicks p) b).phase = .idle ∧
    (adcAfter p din (N * transactionTicks p) b).pins = AdcPins.idle

namespace AdcRun

variable {p : Params} {din : Nat → Level} {N : Nat} {b : AdcEngine}

/-- Tick n of the run is tick n mod 31T of the transaction number n / 31T. -/
theorem inside (h : AdcRun p din N b) (hl : p.Legal) {n : Nat} (hn : n < N * transactionTicks p) :
    (adcAfter p din n b).status = b.status ∧
    ∃ c, (adcAfter p din n b).pins = phasePins p c (n / p.tAdcPhase % 31) := by
  obtain ⟨-, ⟨hT, -⟩, -⟩ := legal_ranges hl
  obtain ⟨c, a, hstatus, hstart⟩ := h.each (n / transactionTicks p) (Nat.div_lt_of_lt_mul (by rwa [Nat.mul_comm]))
  have hr : n % transactionTicks p < transactionTicks p := Nat.mod_lt n (by rw [transactionTicks]; omega)
  obtain ⟨status, pins⟩ :=
    adcAfter_in_transaction hl (fun i => din (n / transactionTicks p * transactionTicks p + i)) c a hr
  rw [← hstart, ← adcAfter_add, Nat.div_add_mod'] at status pins
  refine ⟨status.trans hstatus, c, pins.trans ?_⟩
  rw [transactionTicks, Nat.mod_mul_left_div_self]

theorem after (h : AdcRun p din N b) {n : Nat} (hn : N * transactionTicks p ≤ n) :
    (adcAfter p din n b).pins = AdcPins.idle := by
  obtain ⟨phase, pins⟩ := h.ends
  rw [← Nat.add_sub_of_le hn, adcAfter_add, adcAfter_idle phase, pins]

/-- Chip select and clock by the number of the phase, during the run and after it. -/
theorem levels (h : AdcRun p din N b) (hl : p.Legal) (n : Nat) :
    (adcAfter p din n b).csN = runCsN N (n / p.tAdcPhase) ∧
    (adcAfter p din n b).clk = runClk N (n / p.tAdcPhase) := by
  obtain ⟨-, ⟨hT, -⟩, -⟩ := legal_ranges hl
  have phases : n / p.tAdcPhase < 31 * N ↔ n < N * transactionTicks p := by
    rw [Nat.div_lt_iff_lt_mul (by omega), transactionTicks, Nat.mul_comm 31, Nat.mul_assoc]
  rcases Nat.lt_or_ge n (N * transactionTicks p) with hn | hn
  · obtain ⟨-, c, pins⟩ := h.inside hl hn
    have hq := phases.mpr hn
    refine ⟨(congrArg AdcPins.csN pins).trans ?_, (congrArg AdcPins.clk pins).trans ?_⟩ <;>
      simp [phasePins, runClk, runCsN, hq]
  · have hq := Nat.le_of_not_lt (mt phases.mp (Nat.not_lt.mpr hn))
    refine ⟨(congrArg AdcPins.csN (h.after hn)).trans ?_, (congrArg AdcPins.clk (h.after hn)).trans ?_⟩ <;>
      simp [AdcPins.idle, runClk, runCsN, hq]

/-- `adc_clk` rises fourteen times in each transaction, at its ticks 2T + 2kT. -/
theorem clk_rises_iff (h : AdcRun p din N b) (hl : p.Legal) (n : Nat) :
    ((adcAfter p din n b).clk = false ∧ (adcAfter p din (n + 1) b).clk = true) ↔
      ∃ c k, c < N ∧ k < 14 ∧ n + 1 = c * (31 * p.tAdcPhase) + 2 * p.tAdcPhase + 2 * k * p.tAdcPhase := by
  obtain ⟨-, ⟨hT, -⟩, -⟩ := legal_ranges hl
  rw [(h.levels hl n).2, (h.levels hl (n + 1)).2, edge_iff (by omega) _ (by decide)]
  simp only [runClk_rises_iff]
  constructor
  · rintro ⟨q, hn, c, k, hc, hk, hq⟩
    exact ⟨c, k, hc, hk, by rw [hn, hq]; ring⟩
  · rintro ⟨c, k, hc, hk, hn⟩
    exact ⟨31 * c + 2 * k + 1, by rw [hn]; ring, c, k, hc, hk, by ring⟩

/-- `adc_cs_n` rises at tick 30T of each transaction. -/
theorem csN_rises_iff (h : AdcRun p din N b) (hl : p.Legal) (n : Nat) :
    ((adcAfter p din n b).csN = false ∧ (adcAfter p din (n + 1) b).csN = true) ↔
      ∃ c, c < N ∧ n + 1 = c * (31 * p.tAdcPhase) + 30 * p.tAdcPhase := by
  obtain ⟨-, ⟨hT, -⟩, -⟩ := legal_ranges hl
  rw [(h.levels hl n).1, (h.levels hl (n + 1)).1, edge_iff (by omega) _ (by decide)]
  simp only [runCsN_rises_iff]
  constructor
  · rintro ⟨q, hn, c, hc, hq⟩
    exact ⟨c, hc, by rw [hn, hq]; ring⟩
  · rintro ⟨c, hc, hn⟩
    exact ⟨31 * c + 29, by rw [hn]; ring, c, hc, by ring⟩

/-- `adc_cs_n` falls at the start of each transaction but the first, which starts at the acceptance. -/
theorem csN_falls_iff (h : AdcRun p din N b) (hl : p.Legal) (n : Nat) :
    ((adcAfter p din n b).csN = true ∧ (adcAfter p din (n + 1) b).csN = false) ↔
      ∃ c, 1 ≤ c ∧ c < N ∧ n + 1 = c * (31 * p.tAdcPhase) := by
  obtain ⟨-, ⟨hT, -⟩, -⟩ := legal_ranges hl
  rw [(h.levels hl n).1, (h.levels hl (n + 1)).1, edge_iff (by omega) _ (by decide)]
  simp only [runCsN_falls_iff]
  constructor
  · rintro ⟨q, hn, c, h1, hc, hq⟩
    exact ⟨c, h1, hc, by rw [hn, hq]; ring⟩
  · rintro ⟨c, h1, hc, hn⟩
    refine ⟨31 * c - 1, ?_, c, h1, hc, by omega⟩
    rw [hn, Nat.sub_add_cancel (by omega)]
    ring

end AdcRun

/-! ## READ_CHANNEL -/

section

variable {p : Params} (hl : p.Legal) (din : Nat → Level)

/-- The end of a READ_CHANNEL's transaction (R119). -/
theorem transactionEnd_readChannel {a : AdcEngine} (hop : a.op = .readChannel) (c : BitVec 2) :
    transactionEnd p (inGap p din c a) =
      completeAdc .ok { inGap p din c a with result := ⟨received p din 8, c, true⟩ } := by
  have hop' : (inGap p din c a).op = .readChannel := hop
  simp only [transactionEnd, hop']
  rfl

include hl

theorem adcAfter_readChannel {a : AdcEngine} (hop : a.op = .readChannel) (c : BitVec 2) :
    adcAfter p din (transactionTicks p) (startTransaction p c a) =
      completeAdc .ok { inGap p din c a with result := ⟨received p din 8, c, true⟩ } := by
  rw [adcAfter_transaction hl, transactionEnd_readChannel din hop]

theorem adcRun_readChannel {a : AdcEngine} (hop : a.op = .readChannel) (c : BitVec 2) :
    AdcRun p din 1 (startTransaction p c a) where
  each m hm := by
    obtain rfl : m = 0 := by omega
    exact ⟨c, a, rfl, by rw [Nat.zero_mul, adcAfter]⟩
  ends := by
    rw [Nat.one_mul, adcAfter_readChannel hl din hop]
    exact ⟨rfl, rfl⟩

end

/-- The bits come most significant first, that of cycle k at its sample tick (R117). -/
theorem received_bit (p : Params) (din : Nat → Level) {k : Nat} (h6 : 6 ≤ k) (h13 : k ≤ 13) :
    (received p din 8).getLsbD (13 - k) = din (sampleTick p k) := by
  rw [received_getLsbD p din (by omega) le_rfl, show 8 + 5 - (13 - k) = k by omega]

/-- Settles O33: the run of one transaction, and the engine that its end leaves. -/
theorem readChannelDeliversTheSample : Obligations.ReadChannelDeliversTheSample := by
  unfold Obligations.ReadChannelDeliversTheSample
  intro s ch din hl hb hch
  have run := adcRun_readChannel hl din (a := readChannelAccepted s.adc) rfl (BitVec.ofNat 2 ch)
  refine ⟨_, _, exec_adcRead_valid hb hch, rfl, fun n hn => ?_, ?_⟩
  · obtain ⟨status, -⟩ := run.inside hl (by rwa [Nat.one_mul])
    exact congrArg AdcStatus.busy status
  · rw [adcAfter_readChannel hl din rfl]
    exact ⟨rfl, rfl, rfl, fun k h6 h13 => received_bit s.params din h6 h13, rfl, rfl, rfl⟩

theorem received_congr {p : Params} {din din' : Nat → Level}
    (h : ∀ k, 6 ≤ k → k ≤ 13 → din (sampleTick p k) = din' (sampleTick p k)) :
    received p din 8 = received p din' 8 := by
  refine BitVec.eq_of_getLsbD_eq fun i hi => ?_
  rw [received_getLsbD p din hi le_rfl, received_getLsbD p din' hi le_rfl, h _ (by omega) (by omega)]

/-- Settles O36: the result is the received byte, which the levels at the sample ticks make. -/
theorem sampleDependsOnSampleTicksOnly : Obligations.SampleDependsOnSampleTicksOnly := by
  unfold Obligations.SampleDependsOnSampleTicksOnly
  intro s s' t t' ch din din' hl hp hb hb' hch hdin ht ht'
  cases ht
  cases ht'
  have result := adcAfter_readChannel_result hl hb hch din
  rw [received_congr hdin] at result
  rw [hp]
  exact result.trans (adcAfter_readChannel_result hl hb' hch din').symm

/-! ## READ_ALL -/

/-- ADC_ALL after the first m transactions of a READ_ALL that starts with ADC_ALL at 0: each byte from the levels of its
own transaction (R112, R124). -/
def sampledAll (p : Params) (din : Nat → Level) : Nat → AdcAll
  | 0 => ⟨0#8, 0#8, 0#8, 0#8⟩
  | m + 1 => (sampledAll p din m).set (BitVec.ofNat 2 m) (received p (fun i => din (m * transactionTicks p + i)) 8)

theorem sampledAll_get (p : Params) (din : Nat → Level) {m : Nat} (hm : m ≤ 4) (c : BitVec 2) :
    (sampledAll p din m).get c =
      if c.toNat < m then received p (fun i => din (c.toNat * transactionTicks p + i)) 8 else 0#8 := by
  induction m with
  | zero => simp [sampledAll]
  | succ m ih =>
    have field : c = BitVec.ofNat 2 m ↔ c.toNat = m := by
      rw [← BitVec.toNat_inj, BitVec.toNat_ofNat, Nat.mod_eq_of_lt (by omega)]
    rw [sampledAll, AdcAll.get_set, ih (by omega)]
    simp only [field]
    rcases Nat.lt_trichotomy c.toNat m with h | h | h
    · rw [if_neg h.ne, if_pos h, if_pos (by omega)]
    · rw [if_pos h, if_pos (by omega), h]
    · rw [if_neg h.ne', if_neg (by omega), if_neg (by omega)]

section

variable {p : Params} (din : Nat → Level) {a : AdcEngine} (hop : a.op = .readAll)

include hop

/-- A READ_ALL's transaction that is not the last: its byte is stored, and the next channel's begins (R120, R124). -/
theorem transactionEnd_readAll_next {c : BitVec 2} (hc : c.toNat + 1 < p.adcChannels) :
    transactionEnd p (inGap p din c a) =
      startTransaction p (c + 1#2) { a with all := a.all.set c (received p din 8) } := by
  have hop' : (inGap p din c a).op = .readAll := hop
  simp only [transactionEnd, hop', hop]
  exact if_pos hc

/-- A READ_ALL's last transaction (R120, R124). -/
theorem transactionEnd_readAll_last {c : BitVec 2} (hc : p.adcChannels ≤ c.toNat + 1) :
    transactionEnd p (inGap p din c a) =
      completeAdc .ok { inGap p din c a with all := a.all.set c (received p din 8) } := by
  have hop' : (inGap p din c a).op = .readAll := hop
  simp only [transactionEnd, hop']
  exact if_neg (Nat.not_lt.mpr hc)

variable (hl : p.Legal) (hall : a.all = ⟨0#8, 0#8, 0#8, 0#8⟩)

include hl hall

/-- Transaction number m is that of channel m, with the bytes of the channels below it stored. -/
theorem adcAfter_readAll_next {m : Nat} (hm : m < p.adcChannels) :
    adcAfter p din (m * transactionTicks p) (startTransaction p 0#2 a) =
      startTransaction p (BitVec.ofNat 2 m) { a with all := sampledAll p din m } := by
  obtain ⟨⟨-, hN⟩, -⟩ := legal_ranges hl
  induction m with
  | zero => rw [Nat.zero_mul, adcAfter, sampledAll, ← hall]
  | succ m ih =>
    have hc : (BitVec.ofNat 2 m).toNat + 1 < p.adcChannels := by
      rwa [BitVec.toNat_ofNat, Nat.mod_eq_of_lt (by omega)]
    rw [Nat.succ_mul, adcAfter_add, ih (by omega), adcAfter_transaction hl,
      transactionEnd_readAll_next (a := { a with all := sampledAll p din m }) _ hop hc, BitVec.ofNat_add]
    rfl

/-- What a READ_ALL leaves: the engine of its last GAP, completed, with every channel's byte stored. -/
theorem adcAfter_readAll : ∃ din' c, adcAfter p din (p.adcChannels * transactionTicks p) (startTransaction p 0#2 a) =
    completeAdc .ok { inGap p din' c a with all := sampledAll p din p.adcChannels } := by
  obtain ⟨⟨h1, hN⟩, -⟩ := legal_ranges hl
  obtain ⟨m, hm⟩ : ∃ m, p.adcChannels = m + 1 := ⟨p.adcChannels - 1, by omega⟩
  have hc : p.adcChannels ≤ (BitVec.ofNat 2 m).toNat + 1 := by
    rw [BitVec.toNat_ofNat, Nat.mod_eq_of_lt (by omega), hm]
  have last := transactionEnd_readAll_last (fun i => din (m * transactionTicks p + i))
    (a := { a with all := sampledAll p din m }) hop hc
  rw [hm, Nat.succ_mul, adcAfter_add, adcAfter_readAll_next din hop hl hall (by omega), adcAfter_transaction hl, last]
  exact ⟨_, _, rfl⟩

theorem adcRun_readAll : AdcRun p din p.adcChannels (startTransaction p 0#2 a) where
  each m hm := ⟨_, { a with all := sampledAll p din m }, rfl, adcAfter_readAll_next din hop hl hall hm⟩
  ends := by
    obtain ⟨din', c, h⟩ := adcAfter_readAll din hop hl hall
    rw [h]
    exact ⟨rfl, rfl⟩

end

/-- Settles O35: the run of one transaction for each channel, and the bytes that their ends store. -/
theorem readAllSamplesEveryChannel : Obligations.ReadAllSamplesEveryChannel := by
  unfold Obligations.ReadAllSamplesEveryChannel
  intro s din hl hb
  obtain ⟨⟨-, hN⟩, -⟩ := legal_ranges hl
  have run := adcRun_readAll din (a := readAllAccepted s.adc) rfl hl rfl
  obtain ⟨din', c, h⟩ := adcAfter_readAll din (a := readAllAccepted s.adc) rfl hl rfl
  refine ⟨_, _, exec_adcReadall_idle hb, rfl, fun n hn => ?_, ?_⟩
  · obtain ⟨status, -⟩ := run.inside hl hn
    exact congrArg AdcStatus.busy status
  · rw [h]
    refine ⟨rfl, fun c hc k h6 h13 => ?_, fun c hc => ?_, rfl, rfl, rfl⟩
    · show ((sampledAll s.params din s.params.adcChannels).get c).getLsbD _ = _
      rw [sampledAll_get s.params din hN, if_pos hc, received_bit s.params _ h6 h13, Nat.mul_comm]
    · show (sampledAll s.params din s.params.adcChannels).get c = _
      rw [sampledAll_get s.params din hN, if_neg (Nat.not_lt.mpr hc)]

/-! ## The edges of a command's pins -/

/-- The words that start transactions at an idle engine, and how many (R128). -/
theorem exec_adc_run {s : State} {i : Instr} {N : Nat} (hl : s.params.Legal) (hb : s.adc.status.busy = false)
    (hi : (i = .adcReadall ∧ N = s.params.adcChannels) ∨ (N = 1 ∧ ∃ ch, i = .adcRead ch ∧ ch < s.params.adcChannels))
    (din : Nat → Level) :
    ∃ t, exec i s = .next t ∧ (t.adc.csN = false ∧ t.adc.clk = false) ∧ AdcRun s.params din N t.adc := by
  obtain ⟨rfl, rfl⟩ | ⟨rfl, ch, rfl, hch⟩ := hi
  · exact ⟨_, exec_adcReadall_idle hb, ⟨rfl, rfl⟩, adcRun_readAll din rfl hl rfl⟩
  · exact ⟨_, exec_adcRead_valid hb hch, ⟨rfl, rfl⟩, adcRun_readChannel hl din rfl _⟩

/-- A command that completes in its acceptance changes no pin, then or later. -/
theorem adcAfter_completeAdc_pins (p : Params) (din : Nat → Level) (n : Nat) (kind : ErrCode) (op : BitVec 4)
    (a : AdcEngine) : (adcAfter p din n (completeAdc kind (adcAccept op a))).pins = a.pins := by
  rw [adcAfter_idle rfl]
  rfl

/-- Settles O32: the edges of a run of transactions, from the idle pins that the invariant gives. -/
theorem adcTransactionHasFourteenPulses : Obligations.AdcTransactionHasFourteenPulses := by
  unfold Obligations.AdcTransactionHasFourteenPulses
  intro s din hl hinv hb
  refine ⟨?_, fun ch n hch => ?_, fun v e n hd => ?_⟩
  · rintro i N _ rfl hi
    have idle := hinv.pins_idle (.inl (hinv.phase_of_idle hb))
    obtain ⟨t, ht, ⟨hcs, hclk⟩, run⟩ := exec_adc_run hl hb hi din
    exact ⟨t, ht, ⟨congrArg AdcPins.csN idle, hcs⟩, ⟨congrArg AdcPins.clk idle, hclk⟩,
      fun n _ => ⟨run.clk_rises_iff hl n, run.csN_rises_iff hl n, run.csN_falls_iff hl n⟩,
      fun n hn => run.after hn⟩
  · exact ⟨_, exec_adcRead_invalid hb hch, adcAfter_completeAdc_pins ..⟩
  · have written := (memWrite_cmdOffset .adcCmd v s).trans (commandWrite_error hd s)
    refine ⟨_, written, ?_⟩
    rw [illegalWrite, adcCommandWrite_idle hb]
    exact adcAfter_completeAdc_pins ..

end Sys2Proof.Machine

/-! PROOFS. The frame of a single-wire attempt (family 41_single_wire, R150 to R160): the bits in order of arrival, its
bytes, its checksum, and what its completion finds. -/

namespace Sys2Proof.Machine

/-! ## Bits and bytes of the frame -/

theorem shiftIn40_getLsbD (r : BitVec 40) (b : Level) {i : Nat} (hi : i < 40) :
    (shiftIn40 r b).getLsbD i = if i = 0 then b else r.getLsbD (i - 1) := by
  rw [shiftIn40, BitVec.getLsbD_append]
  by_cases h0 : i = 0
  · simp [h0]
  · simp [h0, show i - 1 < 39 by omega]

/-- The bit that arrived last is the least significant one, and each bit stands one place above the next. -/
theorem foldl_shiftIn40_getLsbD (f : BitVec 40) (bits : List Level) (hlen : bits.length ≤ 40) {i : Nat}
    (hi : i < bits.length) : bits[i]? = some ((bits.foldl shiftIn40 f).getLsbD (bits.length - 1 - i)) := by
  induction bits using List.reverseRecOn generalizing i with
  | nil => simp at hi
  | append_singleton bits b ih =>
    rw [List.length_append, List.length_singleton] at hlen hi ⊢
    rw [List.foldl_append, List.foldl_cons, List.foldl_nil, shiftIn40_getLsbD _ _ (by omega)]
    rcases Nat.lt_succ_iff_lt_or_eq.mp hi with earlier | rfl
    · rw [List.getElem?_append_left earlier, ih (by omega) earlier, if_neg (by omega),
        show bits.length + 1 - 1 - i - 1 = bits.length - 1 - i by omega]
    · simp

theorem frameByte_getLsbD (f : BitVec 40) {k j : Nat} (hk : k < 5) (hj : j < 8) :
    (frameByte f k).getLsbD (7 - j) = f.getLsbD (39 - (8 * k + j)) := by
  rw [frameByte, BitVec.getLsbD_extractLsb', show 32 - 8 * k + (7 - j) = 39 - (8 * k + j) by omega]
  simp [show 7 - j < 8 by omega]

/-- Settles O40: each bit shifted in moves the earlier ones up by one place. -/
theorem frameHoldsBitsInArrivalOrder : Obligations.FrameHoldsBitsInArrivalOrder := by
  unfold Obligations.FrameHoldsBitsInArrivalOrder
  intro f bits hlen
  have inFrame : ∀ i, i < 40 → bits[i]? = some ((bits.foldl shiftIn40 f).getLsbD (39 - i)) := fun i hi => by
    rw [foldl_shiftIn40_getLsbD f bits hlen.le (hlen ▸ hi), hlen]
  refine ⟨inFrame, fun k j hk hj => ?_⟩
  rw [frameByte_getLsbD _ hk hj]
  exact inFrame (8 * k + j) (by omega)

/-- The five bytes of a frame (R86). -/
structure FrameHolds (f : BitVec 40) (b0 b1 b2 b3 b4 : Byte) : Prop where
  byte0 : frameByte f 0 = b0
  byte1 : frameByte f 1 = b1
  byte2 : frameByte f 2 = b2
  byte3 : frameByte f 3 = b3
  byte4 : frameByte f 4 = b4

/-- Bits above the last byte of a concatenation are bits of what stands before it. -/
theorem extractLsb'_append_byte {n : Nat} (x : BitVec n) (b : Byte) (start : Nat) :
    (x ++ b).extractLsb' (start + 8) 8 = x.extractLsb' start 8 :=
  BitVec.extractLsb'_append_eq_of_le (Nat.le_add_left 8 start)

theorem frameHolds_append (b0 b1 b2 b3 b4 : Byte) : FrameHolds (b0 ++ b1 ++ b2 ++ b3 ++ b4) b0 b1 b2 b3 b4 where
  byte0 := (extractLsb'_append_byte _ b4 24).trans <| (extractLsb'_append_byte _ b3 16).trans <|
    (extractLsb'_append_byte _ b2 8).trans <| (extractLsb'_append_byte _ b1 0).trans BitVec.extractLsb'_eq_self
  byte1 := (extractLsb'_append_byte _ b4 16).trans <| (extractLsb'_append_byte _ b3 8).trans <|
    (extractLsb'_append_byte _ b2 0).trans BitVec.extractLsb'_append_eq_right
  byte2 := (extractLsb'_append_byte _ b4 8).trans <| (extractLsb'_append_byte _ b3 0).trans
    BitVec.extractLsb'_append_eq_right
  byte3 := (extractLsb'_append_byte _ b4 0).trans BitVec.extractLsb'_append_eq_right
  byte4 := BitVec.extractLsb'_append_eq_right

/-- The level that a data bit's high pulse is classified as (R149). -/
def pulseBit (p : Params) (q : Pulse) : Level := decide (q.high > p.tBitThreshold)

/-- A byte that the pulses carry is the frame's byte once they are shifted in (R86, R150). -/
theorem CarriesByte.frameByte_eq {p : Params} {bits : List Pulse} {k : Nat} {b : Byte} (h : CarriesByte p bits k b)
    (hlen : bits.length = 40) (hk : k < 5) (f : BitVec 40) :
    frameByte ((bits.map (pulseBit p)).foldl shiftIn40 f) k = b := by
  obtain ⟨-, inByte⟩ := frameHoldsBitsInArrivalOrder f (bits.map (pulseBit p)) (by simp [hlen])
  refine BitVec.eq_of_getLsbD_eq fun i hi => ?_
  have arrived := inByte k (7 - i) hk (by omega)
  rw [List.getElem?_map, show 7 - (7 - i) = i by omega] at arrived
  obtain ⟨q, hq, level⟩ := Option.map_eq_some_iff.mp arrived
  rw [← level, pulseBit, ← h (7 - i) (by omega) q hq, show 7 - (7 - i) = i by omega]

/-! ## The checksum -/

/-- Settles O41: the sum of bytes is the sum of numbers modulo 256. -/
theorem checksumIsTheSumModulo256 : Obligations.ChecksumIsTheSumModulo256 := by
  unfold Obligations.ChecksumIsTheSumModulo256
  intro b0 b1 b2 b3
  refine ⟨BitVec.toNat_ofNat _ _, ?_⟩
  simp only [checksum, BitVec.ofNat_add, BitVec.ofNat_toNat, BitVec.setWidth_eq]

/-! ## The completion of a frame -/

/-- The engine with a completed frame in its registers, and the Reading of one that passes both checks (R153, R160). -/
def frameWritten (p : Params) (b0 b1 b2 b3 b4 : Byte) (w : SwEngine) : SwEngine :=
  { w with
    frame0 := ⟨b0, b1, b2, b3⟩
    frame1 := ⟨b4, decide (checksum b0 b1 b2 b3 = b4), true⟩
    reading := if frameKind p b0 b1 b2 b3 b4 = .ok then frameReading p b0 b1 b2 b3 b4 else w.reading }

section

variable {p : Params} {w : SwEngine} {b0 b1 b2 b3 b4 : Byte}

theorem frameKind_checksumError (h : checksum b0 b1 b2 b3 ≠ b4) : frameKind p b0 b1 b2 b3 b4 = .checksumError :=
  if_pos h

theorem frameKind_outOfRange (hsum : checksum b0 b1 b2 b3 = b4)
    (h : ¬ ((b0.toNat : Int) ≤ p.humMax ∧ p.tempMin ≤ tempDecode p.tempEncoding b2 ∧
      tempDecode p.tempEncoding b2 ≤ p.tempMax)) : frameKind p b0 b1 b2 b3 b4 = .outOfRange := by
  rw [frameKind, if_neg (not_not_intro hsum), if_neg h]

theorem frameKind_ok (hsum : checksum b0 b1 b2 b3 = b4)
    (h : (b0.toNat : Int) ≤ p.humMax ∧ p.tempMin ≤ tempDecode p.tempEncoding b2 ∧
      tempDecode p.tempEncoding b2 ≤ p.tempMax) : frameKind p b0 b1 b2 b3 b4 = .ok := by
  rw [frameKind, if_neg (not_not_intro hsum), if_pos h]

/-- The completion of a frame writes it and ends the attempt with what its validation finds (R153 to R160). -/
theorem frameComplete_eq (h : FrameHolds w.frame b0 b1 b2 b3 b4) :
    frameComplete p w = attemptEnd (frameKind p b0 b1 b2 b3 b4) (frameWritten p b0 b1 b2 b3 b4 w) := by
  obtain ⟨rfl, rfl, rfl, rfl, rfl⟩ := h
  obtain ⟨hsum, he⟩ | ⟨hsum, hrange, he⟩ | ⟨hsum, hrange, he⟩ := frameComplete_cases p w
  · rw [he, frameWritten, frameKind_checksumError hsum, decide_eq_false hsum]
    rfl
  · rw [he, frameWritten, frameKind_outOfRange hsum (of_decide_eq_false hrange), decide_eq_true hsum]
    rfl
  · have ok := frameKind_ok hsum (of_decide_eq_true hrange)
    rw [he, frameWritten, frameReading, ok, decide_eq_true hsum]
    rfl

/-- The end of a READ's one attempt is the command's (R184). -/
theorem attemptEnd_read (h : w.rtRetry = false) (kind : ErrCode) :
    attemptEnd kind w = completeSw kind { w with status := { w.status with lastErr := kind } } := by
  obtain ⟨rfl, he⟩ | ⟨-, -, he⟩ | ⟨-, retry, -⟩ | ⟨-, retry, -⟩ | ⟨-, retry, -⟩ := attemptEnd_cases kind w
  · exact he
  · exact he
  all_goals simp [h] at retry

/-- With no Reading before it, the Reading after a frame is the frame's. -/
theorem frameWritten_reading (h : w.reading = .zero) :
    (frameWritten p b0 b1 b2 b3 b4 w).reading = frameReading p b0 b1 b2 b3 b4 := by
  by_cases ok : frameKind p b0 b1 b2 b3 b4 = .ok
  · simp only [frameWritten, ok, if_true]
  · simp only [frameWritten, frameReading, ok, if_false, h]

/-- The completion of a READ's frame (R153 to R160, R184). -/
theorem frameComplete_read (hf : FrameHolds w.frame b0 b1 b2 b3 b4) (hread : w.rtRetry = false)
    (hr : w.reading = .zero) :
    frameComplete p w = { w with
      frame0 := ⟨b0, b1, b2, b3⟩
      frame1 := ⟨b4, decide (checksum b0 b1 b2 b3 = b4), true⟩
      reading := frameReading p b0 b1 b2 b3 b4
      status := { w.status with
        busy := false, done := true
        err := frameKind p b0 b1 b2 b3 b4, lastErr := frameKind p b0 b1 b2 b3 b4 }
      phase := .idle, cnt := 0#32 } := by
  have hread' : (frameWritten p b0 b1 b2 b3 b4 w).rtRetry = false := hread
  rw [frameComplete_eq hf, attemptEnd_read hread', ← frameWritten_reading hr]
  rfl

end

/-- Settles O43, from the one equation of a frame's completion and what its validation finds in each case. -/
theorem frameCompletionValidatesTheFrame : Obligations.FrameCompletionValidatesTheFrame := by
  unfold Obligations.FrameCompletionValidatesTheFrame
  intro p w b0 b1 b2 b3 b4 hframe
  have hf : FrameHolds w.frame b0 b1 b2 b3 b4 := hframe ▸ frameHolds_append b0 b1 b2 b3 b4
  refine ⟨fun hsum => ?_, fun hsum hrange => ?_, fun hsum hhum hmin hmax => ?_, fun hread hr =>
    frameComplete_read hf hread hr⟩
  · rw [frameComplete_eq hf, frameWritten, frameKind_checksumError hsum, decide_eq_false hsum]
    rfl
  · rw [frameComplete_eq hf, frameWritten, frameKind_outOfRange hsum hrange, decide_eq_true hsum]
    rfl
  · rw [frameComplete_eq hf, frameWritten, frameReading, frameKind_ok hsum ⟨hhum, hmin, hmax⟩, decide_eq_true hsum]
    rfl

end Sys2Proof.Machine

/-! PROOFS. The phases of a single-wire attempt as runs (family 41_single_wire, R142 to R152): the start condition, the
bounded waits, and the high pulse of a data bit. -/

namespace Sys2Proof.Machine

/-! ## The start condition -/

/-- The engine when its start condition is over: it listens, with the line released (R144). -/
def listens (w : SwEngine) : SwEngine :=
  { startAttempt w with phase := .ack0, cnt := 0#32, oe := false, out := true }

section

variable {p : Params} (hl : p.Legal) (w : SwEngine) (line : Nat → Level)

include hl

theorem swAfter_startAttempt_low {n : Nat} (hn : n < p.tStartLow) :
    swAfter p line n (startAttempt w) = { startAttempt w with cnt := BitVec.ofNat 32 n } := by
  obtain ⟨inside, -⟩ := swAfter_startLow line hl (startAttempt_phase w) rfl
  exact inside n hn

theorem swAfter_startAttempt_release :
    (∀ j, j < p.tRelease → swAfter p line (p.tStartLow + j) (startAttempt w) =
      { startAttempt w with out := true, phase := .release, cnt := BitVec.ofNat 32 j }) ∧
    swAfter p line (p.tStartLow + p.tRelease) (startAttempt w) = listens w := by
  obtain ⟨-, released⟩ := swAfter_startLow line hl (startAttempt_phase w) rfl
  obtain ⟨inside, last⟩ := swAfter_release (w := { startAttempt w with out := true, phase := .release })
    (fun i => line (p.tStartLow + i)) hl rfl rfl
  refine ⟨fun j hj => ?_, ?_⟩
  · rw [swAfter_add, released, inside j hj]
  · rw [swAfter_add, released, last]
    rfl

end

/-- Settles O37: START_LOW and RELEASE as one run each, put end to end. -/
theorem startConditionTimeline : Obligations.StartConditionTimeline := by
  unfold Obligations.StartConditionTimeline
  intro p w line hl
  obtain ⟨inside, last⟩ := swAfter_startAttempt_release hl w line
  refine ⟨fun n hn => ?_, fun n h1 h2 => ?_, last⟩
  · rw [swAfter_startAttempt_low hl w line hn]
    exact ⟨rfl, rfl⟩
  · obtain ⟨j, rfl⟩ := Nat.exists_eq_add_of_le h1
    rw [inside j (by omega)]
    exact ⟨rfl, rfl⟩

/-! ## Waiting for a level -/

/-- The engine waits for this level: a sample of the other level only counts, unless it is the bound's (R146, R148). -/
def AwaitsLevel (p : Params) (level : Level) (w : SwEngine) : Prop :=
  ∀ (c : BitVec 32) (swIn : Level), swIn ≠ level → (c + 1#32).toNat ≠ p.tWaitTimeout →
    swTick p swIn { w with cnt := c } = { w with cnt := c + 1#32 }

/-- Until the level comes, or the bound, a wait only counts. -/
theorem AwaitsLevel.swAfter_waiting {p : Params} {level : Level} {w : SwEngine} {line : Nat → Level}
    (h : AwaitsLevel p level w) (hl : p.Legal) (h0 : w.cnt = 0#32) {n : Nat} (hn : n < p.tWaitTimeout)
    (hmiss : ∀ i, 1 ≤ i → i ≤ n → line i ≠ level) : swAfter p line n w = { w with cnt := BitVec.ofNat 32 n } := by
  obtain ⟨-, -, -, -, ⟨-, hTO⟩, -⟩ := legal_ranges hl
  refine swAfter_counts (b := n + 1) h0 (fun k hk => ?_) n n.lt_succ_self
  obtain ⟨count, succ⟩ := counted_toNat hk (by omega)
  rw [h _ _ (hmiss (k + 1) (by omega) (by omega)) (by omega), succ]

/-- In this phase each tick is one `WaitStep` (R146). -/
def IsWait (p : Params) (level : Level) (next : SwPhase) (kind : ErrCode) (w : SwEngine) : Prop :=
  ∀ (c : BitVec 32) (swIn : Level),
    swTick p swIn { w with cnt := c } = waitStep p level next kind swIn { w with cnt := c }

namespace IsWait

variable {p : Params} {level : Level} {next : SwPhase} {kind : ErrCode} {w : SwEngine} {line : Nat → Level}

theorem ack0 (hp : w.phase = .ack0) : IsWait p false .ack1 .noResponse w := fun _ _ => by simp only [swTick, hp]

theorem ack1 (hp : w.phase = .ack1) : IsWait p true .ack2 .noResponse w := fun _ _ => by simp only [swTick, hp]

theorem ack2 (hp : w.phase = .ack2) : IsWait p false .bitH .noResponse w := fun _ _ => by simp only [swTick, hp]

theorem bitH (hp : w.phase = .bitH) : IsWait p true .bitL .truncated w := fun _ _ => by simp only [swTick, hp]

theorem awaitsLevel (h : IsWait p level next kind w) : AwaitsLevel p level w := by
  intro c swIn hmiss hc
  obtain ⟨hit, -⟩ | ⟨-, bound, -⟩ | ⟨-, -, he⟩ := waitStep_cases p level next kind swIn { w with cnt := c }
  · exact absurd hit hmiss
  · exact absurd bound hc
  · rw [h c swIn, he]

/-- The first sample that matches ends a wait in its next phase. -/
theorem swAfter_matched (h : IsWait p level next kind w) (hl : p.Legal)
    (h0 : w.cnt = 0#32) {m : Nat} (h1 : 1 ≤ m) (hm : m ≤ p.tWaitTimeout)
    (hmiss : ∀ i, 1 ≤ i → i < m → line i ≠ level) (hit : line m = level) :
    swAfter p line m w = { w with phase := next } := by
  obtain ⟨k, rfl⟩ := Nat.exists_eq_add_of_le' h1
  rw [swAfter, h.awaitsLevel.swAfter_waiting hl h0 hm fun i hi hk => hmiss i hi (Nat.lt_succ_of_le hk)]
  obtain ⟨-, he⟩ | ⟨miss, -⟩ | ⟨miss, -⟩ :=
    waitStep_cases p level next kind (line (k + 1)) { w with cnt := BitVec.ofNat 32 k }
  · rw [h, he, ← h0]
  · exact absurd hit miss
  · exact absurd hit miss

/-- Without a match up to the bound the attempt ends there. -/
theorem swAfter_timedOut (h : IsWait p level next kind w) (hl : p.Legal)
    (h0 : w.cnt = 0#32) (hmiss : ∀ i, 1 ≤ i → i ≤ p.tWaitTimeout → line i ≠ level) :
    swAfter p line p.tWaitTimeout w = attemptEnd kind { w with cnt := BitVec.ofNat 32 p.tWaitTimeout } := by
  obtain ⟨-, -, -, -, ⟨hpos, hTO⟩, -⟩ := legal_ranges hl
  obtain ⟨k, hk⟩ : ∃ k, p.tWaitTimeout = k + 1 := ⟨p.tWaitTimeout - 1, by omega⟩
  obtain ⟨count, succ⟩ := counted_toNat (n := k) (b := k + 2) (by omega) (by omega)
  have waiting := h.awaitsLevel.swAfter_waiting hl h0 (n := k) (by omega) fun i hi hi' => hmiss i hi (by omega)
  rw [hk] at hmiss ⊢
  rw [swAfter, waiting]
  obtain ⟨hit, -⟩ | ⟨-, -, he⟩ | ⟨-, bound, -⟩ :=
    waitStep_cases p level next kind (line (k + 1)) { w with cnt := BitVec.ofNat 32 k }
  · exact absurd hit (hmiss (k + 1) (by omega) le_rfl)
  · rw [h, he]
    simp only [succ]
  · exact absurd (count.trans hk.symm) bound

end IsWait

/-- Settles O38: each of the four phases is a bounded wait. -/
theorem boundedWaitEndsInTime : Obligations.BoundedWaitEndsInTime := by
  unfold Obligations.BoundedWaitEndsInTime
  intro p w line phase next level kind hl hmem hp h0
  have wait : IsWait p level next kind w := by
    simp only [List.mem_cons, List.not_mem_nil, or_false, Prod.mk.injEq] at hmem
    obtain ⟨rfl, rfl, rfl, rfl⟩ | ⟨rfl, rfl, rfl, rfl⟩ | ⟨rfl, rfl, rfl, rfl⟩ | ⟨rfl, rfl, rfl, rfl⟩ := hmem
    · exact .ack0 hp
    · exact .ack1 hp
    · exact .ack2 hp
    · exact .bitH hp
  exact ⟨fun n hn hmiss => wait.awaitsLevel.swAfter_waiting hl h0 hn hmiss,
    fun m h1 hm hmiss hit => wait.swAfter_matched hl h0 h1 hm hmiss hit,
    fun hmiss => wait.swAfter_timedOut hl h0 hmiss⟩

/-! ## The high pulse of a data bit -/

section

variable {p : Params} {w : SwEngine} {line : Nat → Level} {d : Nat}

theorem swTick_bitL (hp : w.phase = .bitL) (c : BitVec 32) (swIn : Level) :
    swTick p swIn { w with cnt := c } = bitLowStep p swIn { w with cnt := c } := by
  simp only [swTick, hp]

theorem awaitsLevel_bitL (hp : w.phase = .bitL) : AwaitsLevel p false w := by
  intro c swIn hmiss hc
  rw [swTick_bitL hp]
  obtain ⟨hit, -⟩ | ⟨hit, -⟩ | ⟨-, bound, -⟩ | ⟨-, -, he⟩ := bitLowStep_cases p swIn { w with cnt := c }
  · exact absurd hit hmiss
  · exact absurd hit hmiss
  · exact absurd bound hc
  · exact he

/-- The engine with one more bit in, of a high pulse of d ticks (R149, R150). -/
def bitShifted (p : Params) (d : Nat) (w : SwEngine) : SwEngine :=
  { w with frame := shiftIn40 w.frame (decide (d > p.tBitThreshold)), bit := w.bit + 1 }

variable (hl : p.Legal) (hp : w.phase = .bitL) (h0 : w.cnt = 0#32)

include hl hp h0

/-- The last tick of a high pulse of d ticks, with the counter at d. -/
theorem swAfter_highPulse (h1 : 1 ≤ d) (hd : d ≤ p.tWaitTimeout) (high : ∀ i, 1 ≤ i → i < d → line i = true) :
    ∃ c : BitVec 32, c + 1#32 = BitVec.ofNat 32 d ∧ (c + 1#32).toNat = d ∧
      swAfter p line d w = bitLowStep p (line d) { w with cnt := c } := by
  obtain ⟨-, -, -, -, ⟨-, hTO⟩, -⟩ := legal_ranges hl
  obtain ⟨k, rfl⟩ := Nat.exists_eq_add_of_le' h1
  obtain ⟨count, succ⟩ := counted_toNat (n := k) (b := k + 2) (by omega) (by omega)
  refine ⟨BitVec.ofNat 32 k, succ, count, ?_⟩
  rw [swAfter, (awaitsLevel_bitL hp).swAfter_waiting hl h0 hd fun i hi hk => by simp [high i hi (by omega)],
    swTick_bitL hp]

/-- The falling edge that ends the pulse shifts the bit in, and the 40th completes the frame (R149 to R151). -/
theorem swAfter_bitL (h1 : 1 ≤ d) (hd : d ≤ p.tWaitTimeout) (high : ∀ i, 1 ≤ i → i < d → line i = true)
    (fall : line d = false) :
    swAfter p line d w =
      if w.bit = 39 then frameComplete p (bitShifted p d w) else { bitShifted p d w with phase := .bitH } := by
  obtain ⟨c, -, count, run⟩ := swAfter_highPulse hl hp h0 h1 hd high
  have received : bitReceived p { w with cnt := c } = bitShifted p d w := by
    simp only [bitReceived, bitShifted, classify, count, ← h0]
  rw [run, fall, ← received]
  obtain ⟨-, last, he⟩ | ⟨-, more, he⟩ | ⟨up, -⟩ | ⟨up, -⟩ := bitLowStep_cases p false { w with cnt := c }
  · rw [he, if_pos (Nat.succ.inj last)]
  · rw [he, if_neg fun h => more (congrArg (· + 1) h)]
  · exact absurd up (by decide)
  · exact absurd up (by decide)

/-- A pulse that outlasts the bound ends the attempt TRUNCATED (R148). -/
theorem swAfter_bitL_timedOut (high : ∀ i, 1 ≤ i → i ≤ p.tWaitTimeout → line i = true) :
    swAfter p line p.tWaitTimeout w = attemptEnd .truncated { w with cnt := BitVec.ofNat 32 p.tWaitTimeout } := by
  obtain ⟨-, -, -, -, ⟨hpos, -⟩, -⟩ := legal_ranges hl
  obtain ⟨c, succ, count, run⟩ := swAfter_highPulse hl hp h0 (by omega) le_rfl fun i hi hd => high i hi hd.le
  rw [run, high _ (by omega) le_rfl, ← succ]
  obtain ⟨down, -⟩ | ⟨down, -⟩ | ⟨-, -, he⟩ | ⟨-, bound, -⟩ := bitLowStep_cases p true { w with cnt := c }
  · exact absurd down (by decide)
  · exact absurd down (by decide)
  · exact he
  · exact absurd count bound

end

/-- Settles O39: the counter holds the pulse's length when its last sample comes. -/
theorem highPulseIsMeasuredAndClassified : Obligations.HighPulseIsMeasuredAndClassified := by
  unfold Obligations.HighPulseIsMeasuredAndClassified
  rintro p w _ line d hl hp h0 h1 hd high rfl
  refine ⟨fun fall => swAfter_bitL hl hp h0 h1 hd high fall, ?_⟩
  rintro rfl up
  refine swAfter_bitL_timedOut hl hp h0 fun i hi hd => ?_
  rcases hd.lt_or_eq with before | rfl
  · exact high i hi before
  · exact up

end Sys2Proof.Machine

/-! PROOFS. A single-wire attempt from its start to its end (family 41_single_wire, R141 to R163): what it takes at most,
whatever the line does, and what it receives from a sensor that answers; and so the course of a READ. -/

namespace Sys2Proof.Machine

/-! ## Runs inside an attempt -/

/-- In n ticks the engine comes from w to v, and before the last of them the status is that of w: the attempt goes on. -/
structure Reaches (p : Params) (line : Nat → Level) (n : Nat) (w v : SwEngine) : Prop where
  under_way : ∀ m, m < n → (swAfter p line m w).status = w.status
  after : swAfter p line n w = v

theorem Reaches.trans {p : Params} {line : Nat → Level} {m n : Nat} {w v u : SwEngine} (h : Reaches p line m w v)
    (hv : v.status = w.status) (h' : Reaches p (fun i => line (m + i)) n v u) : Reaches p line (m + n) w u where
  under_way k hk := by
    rcases Nat.lt_or_ge k m with first | second
    · exact h.under_way k first
    · obtain ⟨j, rfl⟩ := Nat.exists_eq_add_of_le second
      rw [swAfter_add, h.after, h'.under_way j (by omega), hv]
  after := by rw [swAfter_add, h.after, h'.after]

section

variable {p : Params} (hl : p.Legal) {w : SwEngine} {line : Nat → Level}

include hl

theorem startAttempt_reaches (w : SwEngine) (line : Nat → Level) :
    Reaches p line (p.tStartLow + p.tRelease) (startAttempt w) (listens w) := by
  obtain ⟨released, last⟩ := swAfter_startAttempt_release hl w line
  refine ⟨fun m hm => ?_, last⟩
  rcases Nat.lt_or_ge m p.tStartLow with low | high
  · rw [swAfter_startAttempt_low hl w line low]
  · obtain ⟨j, rfl⟩ := Nat.exists_eq_add_of_le high
    rw [released j (by omega)]

/-- Through a wait for a level nothing but the counter moves. -/
theorem AwaitsLevel.reaches {level : Level} (h : AwaitsLevel p level w) (h0 : w.cnt = 0#32) {m : Nat}
    (hm : m ≤ p.tWaitTimeout) (hmiss : ∀ i, 1 ≤ i → i < m → line i ≠ level) {v : SwEngine}
    (hv : swAfter p line m w = v) : Reaches p line m w v where
  under_way k hk := by
    rw [h.swAfter_waiting hl h0 (by omega) fun i h1 hi => hmiss i h1 (by omega)]
  after := hv

theorem IsWait.reaches_next {level : Level} {next : SwPhase} {kind : ErrCode} (h : IsWait p level next kind w)
    (h0 : w.cnt = 0#32) {m : Nat} (h1 : 1 ≤ m) (hm : m ≤ p.tWaitTimeout)
    (hmiss : ∀ i, 1 ≤ i → i < m → line i ≠ level) (hit : line m = level) :
    Reaches p line m w { w with phase := next } :=
  h.awaitsLevel.reaches hl h0 hm hmiss (h.swAfter_matched hl h0 h1 hm hmiss hit)

theorem bitL_reaches {d : Nat} (hp : w.phase = .bitL) (h0 : w.cnt = 0#32) (h1 : 1 ≤ d) (hd : d ≤ p.tWaitTimeout)
    (high : ∀ i, 1 ≤ i → i < d → line i = true) (fall : line d = false) :
    Reaches p line d w
      (if w.bit = 39 then frameComplete p (bitShifted p d w) else { bitShifted p d w with phase := .bitH }) :=
  (awaitsLevel_bitL hp).reaches hl h0 hd (fun i hi hid => by simp [high i hi hid])
    (swAfter_bitL hl hp h0 h1 hd high fall)

end

/-! ## The longest attempt (R163) -/

/-- Two engines that run the same command, in the same attempt of it. -/
structure SwEngine.SameCommand (w v : SwEngine) : Prop where
  status : v.status = w.status
  rtRetry : v.rtRetry = w.rtRetry
  rtMax : v.rtMax = w.rtMax
  rtDelay : v.rtDelay = w.rtDelay
  retryDelay : v.retryDelay = w.retryDelay

theorem SwEngine.SameCommand.trans {w v u : SwEngine} (h : w.SameCommand v) (h' : v.SameCommand u) :
    w.SameCommand u :=
  ⟨h'.status.trans h.status, h'.rtRetry.trans h.rtRetry, h'.rtMax.trans h.rtMax, h'.rtDelay.trans h.rtDelay,
    h'.retryDelay.trans h.retryDelay⟩

/-- Whatever the line does, the attempt that is under way ends within k ticks. -/
def EndsWithin (p : Params) (k : Nat) (w : SwEngine) : Prop :=
  ∀ line, ∃ n kind v, n ≤ k ∧ w.SameCommand v ∧ Reaches p line n w (attemptEnd kind v)

/-- A wait sees its level at a first tick within its bound, or not at all. -/
theorem first_match_or_none (line : Nat → Level) (level : Level) (bound : Nat) :
    (∃ m, 1 ≤ m ∧ m ≤ bound ∧ (∀ i, 1 ≤ i → i < m → line i ≠ level) ∧ line m = level) ∨
    ∀ i, 1 ≤ i → i ≤ bound → line i ≠ level := by
  by_cases hit : ∃ m, 1 ≤ m ∧ m ≤ bound ∧ line m = level
  · obtain ⟨h1, hm, level_at⟩ := Nat.find_spec hit
    exact .inl ⟨Nat.find hit, h1, hm, fun i hi hlt heq => Nat.find_min hit hlt ⟨hi, by omega, heq⟩, level_at⟩
  · exact .inr fun i h1 hi heq => hit ⟨i, h1, hi, heq⟩

/-- A frame's completion is the end of its attempt. -/
theorem frameComplete_endsAttempt (p : Params) (w : SwEngine) :
    ∃ kind v, w.SameCommand v ∧ frameComplete p w = attemptEnd kind v :=
  ⟨_, frameWritten p _ _ _ _ _ w, ⟨rfl, rfl, rfl, rfl, rfl⟩, frameComplete_eq ⟨rfl, rfl, rfl, rfl, rfl⟩⟩

section

variable {p : Params} (hl : p.Legal) {w : SwEngine}

/-- What comes before the rest of an attempt adds its ticks. -/
theorem EndsWithin.of_reaches {k m n : Nat} {v : SwEngine} {line : Nat → Level} (hrest : EndsWithin p k v)
    (h : Reaches p line m w v) (same : w.SameCommand v) (hm : m + k ≤ n) :
    ∃ n' kind u, n' ≤ n ∧ w.SameCommand u ∧ Reaches p line n' w (attemptEnd kind u) := by
  obtain ⟨j, kind, u, hj, same', rest⟩ := hrest fun i => line (m + i)
  exact ⟨m + j, kind, u, by omega, same.trans same', h.trans same.status rest⟩

include hl

theorem IsWait.endsWithin {level : Level} {next : SwPhase} {kind : ErrCode} {k : Nat}
    (h : IsWait p level next kind w) (h0 : w.cnt = 0#32) (hnext : EndsWithin p k { w with phase := next }) :
    EndsWithin p (p.tWaitTimeout + k) w := fun line => by
  obtain ⟨m, h1, hm, hmiss, hit⟩ | missed := first_match_or_none line level p.tWaitTimeout
  · exact hnext.of_reaches (h.reaches_next hl h0 h1 hm hmiss hit) ⟨rfl, rfl, rfl, rfl, rfl⟩ (by omega)
  · exact ⟨p.tWaitTimeout, kind, _, by omega, ⟨rfl, rfl, rfl, rfl, rfl⟩,
      h.awaitsLevel.reaches hl h0 le_rfl (fun i h1 hi => missed i h1 hi.le) (h.swAfter_timedOut hl h0 missed)⟩

/-- The high pulse of the last bit ends the attempt; after an earlier one the next bit follows. -/
theorem endsWithin_bitL {k : Nat} (hp : w.phase = .bitL) (h0 : w.cnt = 0#32)
    (hnext : w.bit ≠ 39 → ∀ d, EndsWithin p k { bitShifted p d w with phase := .bitH }) :
    EndsWithin p (p.tWaitTimeout + k) w := fun line => by
  obtain ⟨d, h1, hd, high, fall⟩ | missed := first_match_or_none line false p.tWaitTimeout
  · have run := bitL_reaches hl hp h0 h1 hd (fun i hi hid => by simpa using high i hi hid) fall
    by_cases last : w.bit = 39
    · obtain ⟨kind, v, same, he⟩ := frameComplete_endsAttempt p (bitShifted p d w)
      rw [if_pos last, he] at run
      exact ⟨d, kind, v, by omega, .trans (v := bitShifted p d w) ⟨rfl, rfl, rfl, rfl, rfl⟩ same, run⟩
    · rw [if_neg last] at run
      exact (hnext last d).of_reaches run ⟨rfl, rfl, rfl, rfl, rfl⟩ (by omega)
  · exact ⟨p.tWaitTimeout, .truncated, _, by omega, ⟨rfl, rfl, rfl, rfl, rfl⟩,
      (awaitsLevel_bitL hp).reaches hl h0 le_rfl (fun i h1 hi => missed i h1 hi.le)
        (swAfter_bitL_timedOut hl hp h0 fun i h1 hi => by simpa using missed i h1 hi)⟩

/-- With r + 1 bits to come there are 2r + 2 waits left. -/
theorem endsWithin_bitH {r : Nat} (hp : w.phase = .bitH) (h0 : w.cnt = 0#32) (hbit : w.bit + r = 39) :
    EndsWithin p ((2 * r + 2) * p.tWaitTimeout) w := by
  induction r generalizing w with
  | zero =>
    have last := endsWithin_bitL (w := { w with phase := .bitL }) (k := 0) hl rfl h0 fun more => absurd hbit more
    rw [show (2 * 0 + 2) * p.tWaitTimeout = p.tWaitTimeout + (p.tWaitTimeout + 0) by omega]
    exact IsWait.endsWithin hl (.bitH hp) h0 last
  | succ r ih =>
    rw [show (2 * (r + 1) + 2) * p.tWaitTimeout = p.tWaitTimeout + (p.tWaitTimeout + (2 * r + 2) * p.tWaitTimeout) by
      ring]
    refine IsWait.endsWithin hl (.bitH hp) h0 (endsWithin_bitL hl rfl h0 fun _ d => ih rfl h0 ?_)
    show w.bit + 1 + r = 39
    omega

/-- Every attempt ends within the bound of R163: its start condition, three waits, and two for each bit. -/
theorem startAttempt_endsWithin (w : SwEngine) : EndsWithin p (attemptBound p) (startAttempt w) := fun line => by
  have bits := endsWithin_bitH (w := { listens w with phase := .bitH }) (r := 39) hl rfl rfl rfl
  have ack2 := IsWait.endsWithin (w := { listens w with phase := .ack2 }) hl (.ack2 rfl) rfl bits
  have ack1 := IsWait.endsWithin (w := { listens w with phase := .ack1 }) hl (.ack1 rfl) rfl ack2
  have ack0 := IsWait.endsWithin (w := listens w) hl (.ack0 rfl) rfl ack1
  refine ack0.of_reaches (startAttempt_reaches hl w line) ⟨rfl, rfl, rfl, rfl, rfl⟩ ?_
  rw [attemptBound]
  omega

end

/-! ## The answered attempt (R146 to R151) -/

theorem pulseLevels_cons_append (q : Pulse) (qs : List Pulse) (rest : List Level) :
    pulseLevels (q :: qs) ++ rest =
      List.replicate q.low false ++ (List.replicate q.high true ++ (pulseLevels qs ++ rest)) := by
  rw [pulseLevels, List.append_assoc, List.append_assoc]

/-- From its time 0 on the line has these levels. -/
def Shows (line : Nat → Level) (levels : List Level) : Prop := ∀ i x, levels[i]? = some x → line i = x

namespace Shows

variable {line : Nat → Level} {m : Nat} {x : Level} {rest : List Level}

theorem pulse (h : Shows line (List.replicate m x ++ rest)) {i : Nat} (hi : i < m) : line i = x :=
  h i x (by rw [List.getElem?_append_left (by simpa using hi), List.getElem?_replicate_of_lt hi])

theorem after_pulse (h : Shows line (List.replicate m x ++ rest)) : Shows (fun i => line (m + i)) rest :=
  fun i y hy => h (m + i) y (by rw [List.getElem?_append_right (by simp), List.length_replicate,
    Nat.add_sub_cancel_left, hy])

theorem after_pulses {n : Nat} {y : Level}
    (h : Shows line (List.replicate m x ++ (List.replicate n y ++ rest))) :
    Shows (fun i => line (m + n + i)) rest := by
  simpa only [Nat.add_assoc] using h.after_pulse.after_pulse

/-- Each data bit begins low, and so does the edge that ends the last. -/
theorem bits_begin_low {p : Params} {bits : List Pulse} (h : Shows line (pulseLevels bits ++ [false]))
    (bounded : ∀ b ∈ bits, b.Bounded p) : line 0 = false := by
  cases bits with
  | nil => exact h 0 false rfl
  | cons q qs =>
    obtain ⟨⟨low, -⟩, -⟩ := bounded q List.mem_cons_self
    rw [pulseLevels_cons_append] at h
    exact h.pulse low

end Shows

/-- An answer of 40 data bits, each of its parts within the wait for it (R146 to R148). -/
structure AnswerBounded (p : Params) (latency ackLow ackHigh : Nat) (bits : List Pulse) : Prop where
  latency : 1 ≤ latency ∧ latency ≤ p.tWaitTimeout
  ackLow : 1 ≤ ackLow ∧ ackLow ≤ p.tWaitTimeout
  ackHigh : 1 ≤ ackHigh ∧ ackHigh ≤ p.tWaitTimeout
  length : bits.length = 40
  pulses : ∀ b ∈ bits, b.Bounded p

/-- The engine in the last bit's high phase, with all bits shifted in. -/
def bitsReceived (p : Params) (bits : List Pulse) (w : SwEngine) : SwEngine :=
  { w with
    phase := .bitL
    frame := (bits.map (pulseBit p)).foldl shiftIn40 w.frame
    bit := w.bit + bits.length }

theorem bitsReceived_cons (p : Params) (q : Pulse) (qs : List Pulse) (w : SwEngine) :
    bitsReceived p qs { bitsReceived p [q] w with phase := .bitH } = bitsReceived p (q :: qs) w := by
  simp only [bitsReceived, List.map_cons, List.map_nil, List.foldl_cons, List.foldl_nil, List.length_cons,
    List.length_nil, Nat.zero_add, Nat.add_assoc, Nat.add_comm 1]

section

variable {p : Params} (hl : p.Legal) {w : SwEngine} {line : Nat → Level}

include hl

/-- A pulse of the other level, and then the level that the wait is for. -/
theorem IsWait.reaches_of_shows {level : Level} {next : SwPhase} {kind : ErrCode} {m : Nat} {rest : List Level}
    (h : IsWait p level next kind w) (h0 : w.cnt = 0#32) (h1 : 1 ≤ m) (hm : m ≤ p.tWaitTimeout)
    (shown : Shows line (List.replicate m (!level) ++ rest)) (hit : line m = level) :
    Reaches p line m w { w with phase := next } :=
  h.reaches_next hl h0 h1 hm (fun i _ hi => by simp [shown.pulse hi]) hit

/-- One data bit: its low pulse in BIT_H, its high pulse in BIT_L, up to the falling edge (R148 to R151). -/
theorem pulse_reaches {q : Pulse} {rest : List Level} (hp : w.phase = .bitH) (h0 : w.cnt = 0#32)
    (bounded : q.Bounded p) (h : Shows line (List.replicate q.low false ++ (List.replicate q.high true ++ rest)))
    (fall : line (q.low + q.high) = false) :
    Reaches p line (q.low + q.high) w
      (if w.bit = 39 then frameComplete p (bitsReceived p [q] w)
        else { bitsReceived p [q] w with phase := .bitH }) := by
  obtain ⟨⟨low1, low⟩, high1, high⟩ := bounded
  have up {i : Nat} (hi : i < q.high) : line (q.low + i) = true := h.after_pulse.pulse hi
  have low_run := (IsWait.bitH hp).reaches_of_shows hl h0 low1 low h (up high1)
  exact low_run.trans rfl (bitL_reaches (w := { w with phase := .bitL }) (line := fun i => line (q.low + i)) hl rfl h0
    high1 high (fun i _ hi => up hi) fall)

/-- The data bits, one after the other, up to the falling edge that ends the last (R148 to R151). -/
theorem bits_reach {q : Pulse} {qs : List Pulse} (hp : w.phase = .bitH) (h0 : w.cnt = 0#32)
    (hbit : w.bit + (q :: qs).length = 40) (bounded : ∀ b ∈ q :: qs, b.Bounded p)
    (h : Shows line (pulseLevels (q :: qs) ++ [false])) :
    Reaches p line ((q :: qs).map fun b => b.low + b.high).sum w (frameComplete p (bitsReceived p (q :: qs) w)) := by
  induction qs generalizing q w line with
  | nil =>
    rw [pulseLevels_cons_append] at h
    have last := pulse_reaches hl hp h0 (bounded q List.mem_cons_self) h
      (h.after_pulses.bits_begin_low (bits := []) (p := p) (by simp))
    rw [if_pos (Nat.succ.inj hbit)] at last
    exact last
  | cons r rs ih =>
    rw [pulseLevels_cons_append] at h
    have later : ∀ b ∈ r :: rs, b.Bounded p := fun b hb => bounded b (List.mem_cons_of_mem q hb)
    have first := pulse_reaches hl hp h0 (bounded q List.mem_cons_self) h (h.after_pulses.bits_begin_low later)
    simp only [List.length_cons] at hbit
    rw [if_neg (by omega)] at first
    have rest := ih (w := { bitsReceived p [q] w with phase := .bitH }) rfl h0
      (show w.bit + 1 + (rs.length + 1) = 40 by omega) later h.after_pulses
    rw [bitsReceived_cons] at rest
    exact first.trans rfl rest

/-- The whole answer, from the first sample tick of ACK0 to the edge that ends the last bit (R147, R148, R151). -/
theorem answer_reaches {latency ackLow ackHigh : Nat} {bits : List Pulse}
    (bounds : AnswerBounded p latency ackLow ackHigh bits)
    (h : Shows (fun i => line (1 + i)) (answer latency ackLow ackHigh bits)) :
    Reaches p line (latency + (ackLow + (ackHigh + (bits.map fun b => b.low + b.high).sum))) (listens w)
      (frameComplete p (bitsReceived p bits (listens w))) := by
  obtain ⟨⟨hlat1, hlat⟩, ⟨hlow1, hlow⟩, ⟨hhigh1, hhigh⟩, hlen, pulses⟩ := bounds
  obtain ⟨k, rfl⟩ := Nat.exists_eq_add_of_le' hlat1
  simp only [answer, List.append_assoc, Nat.add_sub_cancel] at h
  have acked : Shows (fun i => line (k + 1 + i))
      (List.replicate ackLow false ++ (List.replicate ackHigh true ++ (pulseLevels bits ++ [false]))) := by
    simpa only [Nat.add_comm k 1, Nat.add_assoc] using h.after_pulse
  have silent : ∀ i, 1 ≤ i → i < k + 1 → line i ≠ false := fun i h1 hi => by
    have up := h.pulse (i := i - 1) (by omega)
    simp only [Nat.add_sub_cancel' h1] at up
    simp [up]
  have ack0 := (IsWait.ack0 (w := listens w) rfl).reaches_next hl rfl hlat1 hlat silent (acked.pulse hlow1)
  have ack1 := (IsWait.ack1 (w := { listens w with phase := .ack1 }) rfl).reaches_of_shows hl rfl hlow1 hlow
    acked (acked.after_pulse.pulse hhigh1)
  have ack2 := (IsWait.ack2 (w := { listens w with phase := .ack2 }) rfl).reaches_of_shows hl rfl hhigh1 hhigh
    acked.after_pulse (acked.after_pulse.after_pulse.bits_begin_low pulses)
  obtain ⟨q, qs, rfl⟩ := List.exists_cons_of_ne_nil (List.ne_nil_of_length_pos (by omega : 0 < bits.length))
  have data := bits_reach (w := { listens w with phase := .bitH }) hl rfl rfl ((Nat.zero_add _).trans hlen) pulses
    acked.after_pulse.after_pulse
  exact ack0.trans rfl (ack1.trans rfl (ack2.trans rfl data))

end

/-! ## READ -/

/-- The engine as an accepted READ hands it to its one attempt (R140, R141). -/
def readAccepted (w : SwEngine) : SwEngine :=
  { swAccept 0x1#4 w with
    rtRetry := false, rtMax := 1#8, rtDelay := 0#32
    status := ⟨true, false, w.status.overrun, .ok, 0x1#4, .ok, 0#8⟩ }

theorem exec_swRead_idle {s : State} (hb : s.sw.status.busy = false) :
    exec .swRead s = .next { s with sw := startAttempt (readAccepted s.sw) } := by
  show Host.Outcome.next { s with sw := swCommandWrite _ _ _ } = _
  rw [swCommandWrite_idle hb]
  rfl

/-- Settles O25: the accepted command with every write of StartAttempt. -/
theorem readStartsOneAttempt : Obligations.ReadStartsOneAttempt := by
  unfold Obligations.ReadStartsOneAttempt
  intro s hb
  rw [exec_swRead_idle hb]
  rfl

/-- Settles O48: the one attempt ends in time, and its end is the command's. -/
theorem readEndsInBoundedTime : Obligations.ReadEndsInBoundedTime := by
  unfold Obligations.ReadEndsInBoundedTime
  intro s line hl hb
  obtain ⟨n, kind, v, hn, same, run⟩ := startAttempt_endsWithin hl (readAccepted s.sw) line
  refine ⟨_, n, exec_swRead_idle hb, hn, ?_⟩
  rw [run.after, attemptEnd_read same.rtRetry]
  exact ⟨rfl, rfl, rfl⟩

/-- Settles O47: the start condition, the answer, and the completion of the frame that the answer carries. -/
theorem readDecodesTheAnsweredFrame : Obligations.ReadDecodesTheAnsweredFrame := by
  unfold Obligations.ReadDecodesTheAnsweredFrame
  intro s line latency ackLow ackHigh bits b0 b1 b2 b3 b4 n hl hb hlat1 hlat hlow1 hlow hhigh1 hhigh hlen pulses
    h0 h1 h2 h3 h4 shows hn
  obtain rfl : n = s.params.tStartLow + s.params.tRelease +
      (latency + (ackLow + (ackHigh + (bits.map fun b => b.low + b.high).sum))) := by omega
  have answered := answer_reaches (w := readAccepted s.sw)
    (line := fun i => line (s.params.tStartLow + s.params.tRelease + i)) hl
    ⟨⟨hlat1, hlat⟩, ⟨hlow1, hlow⟩, ⟨hhigh1, hhigh⟩, hlen, pulses⟩
    fun i x hx => by simpa only [Nat.add_assoc] using shows i x hx
  have run := (startAttempt_reaches hl (readAccepted s.sw) line).trans rfl answered
  have bytes : FrameHolds (bitsReceived s.params bits (listens (readAccepted s.sw))).frame b0 b1 b2 b3 b4 :=
    ⟨h0.frameByte_eq hlen (by decide) _, h1.frameByte_eq hlen (by decide) _, h2.frameByte_eq hlen (by decide) _,
      h3.frameByte_eq hlen (by decide) _, h4.frameByte_eq hlen (by decide) _⟩
  rw [frameComplete_read bytes rfl rfl] at run
  refine ⟨_, _, exec_swRead_idle hb, rfl, fun m hm => ?_, ?_⟩
  · rw [run.under_way m hm]
    rfl
  · rw [run.after]
    exact ⟨rfl, rfl, rfl, rfl, rfl, rfl⟩

end Sys2Proof.Machine

/-! PROOFS. The one path to a Reading (family 41_single_wire, R160): what each operation does to SW_READING. -/

namespace Sys2Proof.Machine

/-! ## Operations that keep SW_READING -/

@[simp] theorem attemptEnd_reading (kind : ErrCode) (w : SwEngine) : (attemptEnd kind w).reading = w.reading := by
  obtain ⟨-, -, -, -, -, hr, -⟩ := attemptEnd_keeps kind w
  exact hr

@[simp] theorem waitStep_reading (p : Params) (level : Level) (next : SwPhase) (fail : ErrCode) (swIn : Level)
    (w : SwEngine) : (waitStep p level next fail swIn w).reading = w.reading := by
  obtain ⟨-, h⟩ | ⟨-, -, h⟩ | ⟨-, -, h⟩ := waitStep_cases p level next fail swIn w <;> simp [h]

@[simp] theorem startLowStep_reading (p : Params) (w : SwEngine) : (startLowStep p w).reading = w.reading := by
  obtain ⟨-, h⟩ | ⟨-, h⟩ := startLowStep_cases p w <;> rw [h]

@[simp] theorem releaseStep_reading (p : Params) (w : SwEngine) : (releaseStep p w).reading = w.reading := by
  obtain ⟨-, h⟩ | ⟨-, h⟩ := releaseStep_cases p w <;> rw [h]

@[simp] theorem retryDelayTick_reading (w : SwEngine) : (retryDelayTick w).reading = w.reading := by
  obtain ⟨-, h⟩ | ⟨-, h⟩ := retryDelayTick_cases w <;> simp [h]

/-! ## The frame that passed -/

/-- A Reading that a frame has just been read into: the frame in the frame registers passed both checks, and the command
completed OK (R155, R157, R160). -/
structure ReadingValidated (p : Params) (w : SwEngine) : Prop extends ReadingStands p w where
  checksum :
    checksum w.frame0.humInt w.frame0.humFrac w.frame0.tempInt w.frame0.tempFrac = w.frame1.checksum
  done : w.status.done = true
  err : w.status.err = .ok

theorem frameComplete_reading (p : Params) (w : SwEngine) :
    (frameComplete p w).reading = w.reading ∨ ReadingValidated p (frameComplete p w) := by
  obtain ⟨-, he⟩ | ⟨-, -, he⟩ | ⟨hsum, hrange, he⟩ := frameComplete_cases p w <;> rw [he]
  · exact .inl (attemptEnd_reading _ _)
  · exact .inl (attemptEnd_reading _ _)
  · exact .inr ⟨⟨rfl, rfl, rfl, rfl, rfl, of_decide_eq_true hrange⟩, hsum, rfl, rfl⟩

theorem bitLowStep_reading (p : Params) (swIn : Level) (w : SwEngine) :
    (bitLowStep p swIn w).reading = w.reading ∨ ReadingValidated p (bitLowStep p swIn w) := by
  obtain ⟨-, -, h⟩ | ⟨-, -, h⟩ | ⟨-, -, h⟩ | ⟨-, -, h⟩ := bitLowStep_cases p swIn w <;> rw [h]
  · exact frameComplete_reading p (bitReceived p w)
  · exact .inl rfl
  · exact .inl (attemptEnd_reading _ _)
  · exact .inl rfl

theorem swTick_reading (p : Params) (swIn : Level) (w : SwEngine) :
    (swTick p swIn w).reading = w.reading ∨ ReadingValidated p (swTick p swIn w) := by
  cases hp : w.phase <;> simp only [swTick, hp]
  case bitL => exact bitLowStep_reading p swIn w
  all_goals exact .inl (by simp)

/-! ## The other turns -/

/-- The own effect of an accepted word leaves SW_READING as the acceptance did. -/
theorem swWordRun_reading (v : Word) (w : SwEngine) : (swWordRun v w).reading = w.reading := by
  obtain ⟨-, -, h⟩ | ⟨-, -, h⟩ | ⟨e, -, h⟩ := swWordRun_cases v <;> rw [h]
  · rfl
  · by_cases h0 : nField v = 0
    · rw [h0, runReadRetry_zero, completeSw_reading]
    · rw [runReadRetry_pos h0, startAttempt_reading]
  · rfl

/-- A write to the window keeps SW_READING, or the acceptance of a command clears it (R140). -/
theorem swWritten_reading (off : Offset) (v : Word) (w : SwEngine) :
    (swWritten off v w).reading = w.reading ∨ (swWritten off v w).reading = .zero := by
  unfold swWritten
  split
  · cases hb : w.status.busy with
    | true => exact .inl (by rw [swCommandWrite_busy hb])
    | false => exact .inr (by rw [swCommandWrite_idle hb, swWordRun_reading, swAccept_reading])
  · exact .inl (by rw [w1cSw_eq])
  · exact .inl rfl
  · exact .inl rfl

/-- TEMPERATURE is the temperature modulo 256 (R153). -/
theorem temperatureByte_toNat (t : Int) : ((temperatureByte t).toNat : Int) = t % 256 := by
  rw [temperatureByte, BitVec.toNat_ofInt, Int.toNat_of_nonneg (Int.emod_nonneg t (by decide))]
  rfl

theorem takeTurn_reading {turn : Turn} {s t : State} (h : takeTurn turn s = .next t) :
    t.sw.reading = s.sw.reading ∨ t.sw.reading = .zero ∨ ReadingValidated s.params t.sw := by
  cases turn with
  | host =>
    obtain ⟨off, v, rest, -, -, -, hw⟩ | ⟨l, ops, rfl⟩ := hostTurn_next h
    · rw [memWrite_eq] at hw
      cases hw
      exact (swWritten_reading off v s.sw).imp_right .inl
    · exact .inl rfl
  | tick adcDin swIn =>
    cases h
    unfold tickTurn
    split
    · exact (swTick_reading s.params swIn s.sw).imp_right .inr
    · exact .inl rfl
  | reset level =>
    cases h
    unfold resetTurn
    split
    · exact .inl rfl
    · exact .inr (.inl rfl)

/-- Settles O55: of all turns only a frame's completion writes a Reading, after both checks. -/
theorem noCorruptedReadingSurfaces : Obligations.NoCorruptedReadingSurfaces := by
  unfold Obligations.NoCorruptedReadingSurfaces
  intro s t h nonzero
  obtain ⟨-, hturn⟩ := step_next h
  obtain ⟨hparams, -, hsw, -⟩ := nextTurn_keeps s
  rw [← hparams, ← hsw]
  obtain same | cleared | validated := takeTurn_reading hturn
  · exact .inl same
  · exact absurd cleared nonzero
  · obtain ⟨hhum, hrange⟩ := validated.range
    exact .inr ⟨validated.checksum, ⟨Int.natCast_nonneg _, hhum, hrange⟩, validated.humidity,
      by rw [validated.temperature, temperatureByte_toNat], validated.valid, validated.done, validated.err⟩

end Sys2Proof.Machine

/-! PROOFS. READ_RETRY's acceptance, the end of an attempt, and the delay between attempts (family 42_retry, R181 to
R187). -/

namespace Sys2Proof.Machine

/-! ## The accepted command (R181 to R183) -/

/-- The engine of a running READ_RETRY with budget n that has started j attempts, the last ended one with `last`. -/
def retrying (n j : Nat) (last : ErrCode) (w : SwEngine) : SwEngine :=
  { w with
    status := ⟨true, false, w.status.overrun, .ok, 0x2#4, last, BitVec.ofNat 8 j⟩
    reading := .zero
    rtRetry := true, rtMax := BitVec.ofNat 8 n, rtDelay := w.retryDelay }

theorem exec_swReadretry_idle {s : State} (hb : s.sw.status.busy = false) (n : Nat) :
    exec (.swReadretry n) s = .next { s with sw := runReadRetry n (swAccept 0x2#4 s.sw) } := by
  show Host.Outcome.next { s with sw := swCommandWrite _ _ _ } = _
  rw [swCommandWrite_idle hb]

/-- With a budget, the first attempt starts (R182). -/
theorem exec_swReadretry_pos {s : State} (hb : s.sw.status.busy = false) {n : Nat} (hn : 1 ≤ n) :
    exec (.swReadretry n) s = .next { s with sw := startAttempt (retrying n 0 .ok s.sw) } := by
  rw [exec_swReadretry_idle hb, runReadRetry_pos (by omega)]
  rfl

/-- Settles O26: the accepted command with every write of StartAttempt. -/
theorem readRetryStartsFirstAttempt : Obligations.ReadRetryStartsFirstAttempt := by
  unfold Obligations.ReadRetryStartsFirstAttempt
  intro n s hb hn _
  rw [exec_swReadretry_pos hb hn]
  rfl

/-- Settles O27: the accepted command with every write of its completion. -/
theorem zeroBudgetCompletesAtOnce : Obligations.ZeroBudgetCompletesAtOnce := by
  unfold Obligations.ZeroBudgetCompletesAtOnce
  intro s hb
  rw [exec_swReadretry_idle hb, runReadRetry_zero]
  rfl

/-! ## The end of an attempt (R184) -/

/-- An attempt that ended with this kind, before anything is decided on it. -/
def attemptReported (kind : ErrCode) (w : SwEngine) : SwEngine :=
  { w with status := { w.status with lastErr := kind } }

/-- The delay that follows an attempt that failed with this kind, at its start (R184). -/
def delayAfter (kind : ErrCode) (w : SwEngine) : SwEngine :=
  { attemptReported kind w with phase := .delay, cnt := 0#32 }

/-- A success, and the failure that uses up the budget, complete a READ_RETRY. -/
theorem attemptEnd_retry_completes {kind : ErrCode} {w : SwEngine} (hretry : w.rtRetry = true)
    (last : kind = .ok ∨ w.rtMax.toNat ≤ w.status.attempts.toNat) :
    attemptEnd kind w =
      completeSw (if kind = .ok then .ok else .sensorUnavailable) (attemptReported kind w) := by
  obtain ⟨rfl, he⟩ | ⟨-, read, -⟩ | ⟨hk, -, -, he⟩ | ⟨hk, -, hleft, -⟩ | ⟨hk, -, hleft, -⟩ := attemptEnd_cases kind w
  · exact he
  · simp [hretry] at read
  · rw [he, if_neg hk]
    rfl
  · exact absurd hleft (last.resolve_left hk).not_gt
  · exact absurd hleft (last.resolve_left hk).not_gt

/-- A failure with attempts left goes on to the next, at once or after a delay. -/
theorem attemptEnd_retry_goes_on {kind : ErrCode} {w : SwEngine} (hk : kind ≠ .ok) (hretry : w.rtRetry = true)
    (hleft : w.status.attempts.toNat < w.rtMax.toNat) :
    (w.rtDelay = 0#32 ∧ attemptEnd kind w = startAttempt (attemptReported kind w)) ∨
    (w.rtDelay ≠ 0#32 ∧ attemptEnd kind w = delayAfter kind w) := by
  obtain ⟨ok, -⟩ | ⟨-, read, -⟩ | ⟨-, -, spent, -⟩ | ⟨-, -, -, he⟩ | ⟨-, -, -, he⟩ := attemptEnd_cases kind w
  · exact absurd ok hk
  · simp [hretry] at read
  · exact absurd hleft spent.not_gt
  · exact .inl he
  · exact .inr he

/-- Settles O44: of the five cases of an attempt's end, the one that the assumptions leave. -/
theorem attemptEndDecides : Obligations.AttemptEndDecides := by
  unfold Obligations.AttemptEndDecides
  intro kind w
  refine ⟨?_, fun _ hread => ?_, fun hk hretry hspent => ?_, fun hk hretry hleft hdelay => ?_,
    fun hk hretry hleft hdelay => ?_⟩
  · rintro rfl
    rfl
  · rw [attemptEnd_read hread]
    rfl
  · rw [attemptEnd_retry_completes hretry (.inr hspent), if_neg hk]
    rfl
  · obtain ⟨-, he⟩ | ⟨delays, -⟩ := attemptEnd_retry_goes_on hk hretry hleft
    · exact he
    · exact absurd hdelay delays
  · obtain ⟨none, -⟩ | ⟨-, he⟩ := attemptEnd_retry_goes_on hk hretry hleft
    · exact absurd none hdelay
    · exact he

/-! ## The delay (R185) -/

theorem swTick_delay {w : SwEngine} (hp : w.phase = .delay) (p : Params) (swIn : Level) (c : BitVec 32) :
    swTick p swIn { w with cnt := c } = retryDelayTick { w with cnt := c } := by
  simp only [swTick, hp]

section

variable (p : Params) {w : SwEngine} (line : Nat → Level) (hp : w.phase = .delay) (h0 : w.cnt = 0#32)

include hp h0

theorem swAfter_delay_counts {n : Nat} (hn : n < w.rtDelay.toNat) :
    swAfter p line n w = { w with cnt := BitVec.ofNat 32 n } := by
  refine swAfter_counts h0 (fun n hn => ?_) n hn
  obtain ⟨count, succ⟩ := counted_toNat hn w.rtDelay.isLt.le
  rw [swTick_delay hp]
  obtain ⟨due, -⟩ | ⟨-, he⟩ := retryDelayTick_cases { w with cnt := BitVec.ofNat 32 n }
  · exact absurd (count.symm.trans (congrArg BitVec.toNat due)) hn.ne
  · rw [he, succ]

theorem swAfter_delay (hd : w.rtDelay ≠ 0#32) : swAfter p line w.rtDelay.toNat w = startAttempt w := by
  obtain ⟨k, hk⟩ : ∃ k, w.rtDelay.toNat = k + 1 :=
    Nat.exists_eq_succ_of_ne_zero fun h => hd (BitVec.eq_of_toNat_eq h)
  have due : BitVec.ofNat 32 k + 1#32 = w.rtDelay := by
    rw [← BitVec.ofNat_add, ← hk, BitVec.ofNat_toNat, BitVec.setWidth_eq]
  rw [hk, swAfter, swAfter_delay_counts p line hp h0 (by omega), swTick_delay hp]
  obtain ⟨-, he⟩ | ⟨early, -⟩ := retryDelayTick_cases { w with cnt := BitVec.ofNat 32 k }
  · rw [he]
    rfl
  · exact absurd due early

end

/-- Settles O45: DELAY as one run that counts, and its last tick. -/
theorem retryDelayLastsItsTicks : Obligations.RetryDelayLastsItsTicks := by
  unfold Obligations.RetryDelayLastsItsTicks
  intro p w line hp h0 hd
  exact ⟨fun n hn => swAfter_delay_counts p line hp h0 hn, swAfter_delay p line hp h0 hd⟩

/-! ## The latched delay (R181, R248) -/

theorem runReadRetry_rtDelay (n : Nat) (w : SwEngine) : (runReadRetry n w).rtDelay = w.retryDelay := by
  by_cases h0 : n = 0
  · rw [h0, runReadRetry_zero]
    rfl
  · rw [runReadRetry_pos h0]
    rfl

@[simp] theorem attemptEnd_rtDelay (kind : ErrCode) (w : SwEngine) : (attemptEnd kind w).rtDelay = w.rtDelay := by
  obtain ⟨-, -, -, hd, -⟩ := attemptEnd_keeps kind w
  exact hd

@[simp] theorem frameComplete_rtDelay (p : Params) (w : SwEngine) : (frameComplete p w).rtDelay = w.rtDelay := by
  obtain ⟨kind, v, same, he⟩ := frameComplete_endsAttempt p w
  rw [he, attemptEnd_rtDelay, same.rtDelay]

@[simp] theorem waitStep_rtDelay (p : Params) (level : Level) (next : SwPhase) (fail : ErrCode) (swIn : Level)
    (w : SwEngine) : (waitStep p level next fail swIn w).rtDelay = w.rtDelay := by
  obtain ⟨-, h⟩ | ⟨-, -, h⟩ | ⟨-, -, h⟩ := waitStep_cases p level next fail swIn w <;> simp [h]

@[simp] theorem bitLowStep_rtDelay (p : Params) (swIn : Level) (w : SwEngine) :
    (bitLowStep p swIn w).rtDelay = w.rtDelay := by
  obtain ⟨-, -, h⟩ | ⟨-, -, h⟩ | ⟨-, -, h⟩ | ⟨-, -, h⟩ := bitLowStep_cases p swIn w <;> simp [h, bitReceived]

@[simp] theorem startLowStep_rtDelay (p : Params) (w : SwEngine) : (startLowStep p w).rtDelay = w.rtDelay := by
  obtain ⟨-, h⟩ | ⟨-, h⟩ := startLowStep_cases p w <;> rw [h]

@[simp] theorem releaseStep_rtDelay (p : Params) (w : SwEngine) : (releaseStep p w).rtDelay = w.rtDelay := by
  obtain ⟨-, h⟩ | ⟨-, h⟩ := releaseStep_cases p w <;> rw [h]

@[simp] theorem retryDelayTick_rtDelay (w : SwEngine) : (retryDelayTick w).rtDelay = w.rtDelay := by
  obtain ⟨-, h⟩ | ⟨-, h⟩ := retryDelayTick_cases w <;> simp [h]

theorem swTick_rtDelay (p : Params) (swIn : Level) (w : SwEngine) : (swTick p swIn w).rtDelay = w.rtDelay := by
  cases hp : w.phase <;> simp [swTick, hp]

/-- While a command runs, a write to the window latches nothing (R66). -/
theorem swWritten_rtDelay {w : SwEngine} (hb : w.status.busy = true) (off : Offset) (v : Word) :
    (swWritten off v w).rtDelay = w.rtDelay := by
  unfold swWritten
  split
  · rw [swCommandWrite_busy hb]
  · rw [w1cSw_eq]
  · rfl
  · rfl

theorem hostTurn_rtDelay {s t : State} (hb : s.sw.status.busy = true) (h : hostTurn s = .next t) :
    t.sw.rtDelay = s.sw.rtDelay := by
  obtain ⟨off, v, rest, -, -, -, hw⟩ | ⟨l, ops, rfl⟩ := hostTurn_next h
  · rw [memWrite_eq] at hw
    cases hw
    exact swWritten_rtDelay hb off v
  · rfl

theorem tickTurn_rtDelay (adcDin swIn : Level) (s : State) : (tickTurn adcDin swIn s).sw.rtDelay = s.sw.rtDelay := by
  unfold tickTurn
  split
  · exact swTick_rtDelay s.params swIn s.sw
  · rfl

/-- Settles O46: what each command latches, and that neither a host access nor a tick touches the latch. -/
theorem delayIsLatchedAtAcceptance : Obligations.DelayIsLatchedAtAcceptance := by
  unfold Obligations.DelayIsLatchedAtAcceptance
  refine ⟨fun n s t hb h => ?_, fun s t hb h => ?_, fun s t h hb => ?_⟩
  · rw [exec_swReadretry_idle hb] at h
    cases h
    exact runReadRetry_rtDelay n _
  · rw [exec_swRead_idle hb] at h
    cases h
    rfl
  · obtain ⟨-, hturn⟩ := step_next h
    obtain ⟨-, -, hsw, -⟩ := nextTurn_keeps s
    rw [← hsw] at hb ⊢
    cases hn : (nextTurn s).1 with
    | reset level => exact .inr ⟨level, rfl⟩
    | host =>
      rw [hn] at hturn
      exact .inl (hostTurn_rtDelay hb hturn)
    | tick adcDin swIn =>
      rw [hn] at hturn
      cases hturn
      exact .inl (tickTurn_rtDelay adcDin swIn _)

end Sys2Proof.Machine

/-! PROOFS. An attempt is the same whatever command makes it (family 42_retry, R141, R182, R188): so each attempt of a
READ_RETRY goes as that of a READ against the same levels. -/

namespace Sys2Proof.Machine

/-! ## The attempt of one engine in the command of another -/

/-- The engine with the attempt of `a`, made by the command that `c` runs. -/
def SwEngine.under (a c : SwEngine) : SwEngine :=
  { a with
    status := c.status, retryDelay := c.retryDelay, rtRetry := c.rtRetry, rtMax := c.rtMax, rtDelay := c.rtDelay
    puEn := c.puEn }

/-- A new attempt keeps nothing of the one before it but a Reading (R142). -/
theorem startAttempt_under {a : SwEngine} (hr : a.reading = .zero) (p : Params) (c : SwEngine) :
    startAttempt (a.under c) = (freshAttempt p).under (startAttempt c) := by
  simp only [startAttempt, SwEngine.under, hr]
  rfl

/-! ## One tick of an attempt -/

/-- One tick takes an attempt on, or ends it, by nothing that depends on the command. -/
def TicksAlike (p : Params) (swIn : Level) (a : SwEngine) : Prop :=
  (∃ b : SwEngine, b.phase.InAttempt ∧ ∀ c, swTick p swIn (a.under c) = b.under c) ∨
  ∃ (kind : ErrCode) (b : SwEngine), ∀ c, swTick p swIn (a.under c) = attemptEnd kind (b.under c)

section

variable {p : Params} {a : SwEngine} (swIn : Level)

theorem ticksAlike_wait {level : Level} {next : SwPhase} {kind : ErrCode}
    (h : ∀ c, IsWait p level next kind (a.under c)) (hp : a.phase.InAttempt) (hn : next.InAttempt) :
    TicksAlike p swIn a := by
  have tick (c : SwEngine) : swTick p swIn (a.under c) = waitStep p level next kind swIn (a.under c) := h c a.cnt swIn
  obtain ⟨hit, -⟩ | ⟨miss, bound, -⟩ | ⟨miss, inside, -⟩ := waitStep_cases p level next kind swIn a
  · exact .inl ⟨{ a with cnt := 0#32, phase := next }, hn, fun c => (tick c).trans (if_pos hit)⟩
  · exact .inr ⟨kind, { a with cnt := a.cnt + 1#32 }, fun c =>
      (tick c).trans ((if_neg miss).trans (if_pos bound))⟩
  · exact .inl ⟨{ a with cnt := a.cnt + 1#32 }, hp, fun c =>
      (tick c).trans ((if_neg miss).trans (if_neg inside))⟩

/-- A phase that the engine times by itself (R143, R144). -/
theorem ticksAlike_timed {bound : Nat} {next : SwEngine} (hp : a.phase.InAttempt) (hn : next.phase.InAttempt)
    (tick : ∀ c, swTick p swIn (a.under c) =
      if (a.cnt + 1#32).toNat = bound then next.under c else { a with cnt := a.cnt + 1#32 }.under c) :
    TicksAlike p swIn a := by
  by_cases last : (a.cnt + 1#32).toNat = bound
  · exact .inl ⟨next, hn, fun c => (tick c).trans (if_pos last)⟩
  · exact .inl ⟨{ a with cnt := a.cnt + 1#32 }, hp, fun c => (tick c).trans (if_neg last)⟩

theorem ticksAlike_startLow (hp : a.phase = .startLow) : TicksAlike p swIn a := by
  refine ticksAlike_timed (bound := p.tStartLow) (next := { a with cnt := 0#32, out := true, phase := .release }) swIn
    (by rw [hp]; decide) (by decide : SwPhase.release.InAttempt) fun c => ?_
  simp only [swTick, SwEngine.under, hp]
  rfl

theorem ticksAlike_release (hp : a.phase = .release) : TicksAlike p swIn a := by
  refine ticksAlike_timed (bound := p.tRelease) (next := { a with cnt := 0#32, oe := false, phase := .ack0 }) swIn
    (by rw [hp]; decide) (by decide : SwPhase.ack0.InAttempt) fun c => ?_
  simp only [swTick, SwEngine.under, hp]
  rfl

theorem ticksAlike_bitL (hp : a.phase = .bitL) : TicksAlike p swIn a := by
  have tick (c : SwEngine) : swTick p swIn (a.under c) = bitLowStep p swIn (a.under c) :=
    swTick_bitL (w := a.under c) hp a.cnt swIn
  obtain ⟨down, last, -⟩ | ⟨down, more, -⟩ | ⟨up, bound, -⟩ | ⟨up, inside, -⟩ := bitLowStep_cases p swIn a
  · obtain ⟨b0, b1, b2, b3, b4, bytes⟩ : ∃ b0 b1 b2 b3 b4, FrameHolds (bitReceived p a).frame b0 b1 b2 b3 b4 :=
      ⟨_, _, _, _, _, rfl, rfl, rfl, rfl, rfl⟩
    exact .inr ⟨_, frameWritten p b0 b1 b2 b3 b4 (bitReceived p a), fun c => (tick c).trans
      ((if_pos down).trans ((if_pos last).trans (frameComplete_eq (w := (bitReceived p a).under c) bytes)))⟩
  · exact .inl ⟨{ bitReceived p a with phase := .bitH }, (by decide : SwPhase.bitH.InAttempt), fun c =>
      (tick c).trans ((if_pos down).trans (if_neg more))⟩
  · exact .inr ⟨.truncated, { a with cnt := a.cnt + 1#32 }, fun c =>
      (tick c).trans ((if_neg (by simp [up])).trans (if_pos bound))⟩
  · exact .inl ⟨{ a with cnt := a.cnt + 1#32 }, by rw [hp]; decide, fun c =>
      (tick c).trans ((if_neg (by simp [up])).trans (if_neg inside))⟩

theorem ticksAlike (hp : a.phase.InAttempt) : TicksAlike p swIn a := by
  cases hph : a.phase with
  | idle => exact absurd hph hp.1
  | startLow => exact ticksAlike_startLow swIn hph
  | release => exact ticksAlike_release swIn hph
  | ack0 => exact ticksAlike_wait swIn (fun _ => .ack0 hph) hp (by decide)
  | ack1 => exact ticksAlike_wait swIn (fun _ => .ack1 hph) hp (by decide)
  | ack2 => exact ticksAlike_wait swIn (fun _ => .ack2 hph) hp (by decide)
  | bitH => exact ticksAlike_wait swIn (fun _ => .bitH hph) hp (by decide)
  | bitL => exact ticksAlike_bitL swIn hph
  | delay => exact absurd hph hp.2

end

/-! ## A whole attempt -/

/-- The attempt of `a` has ended after n ticks at `b`, whatever the command. -/
def AttemptEndsAt (p : Params) (line : Nat → Level) (n : Nat) (a : SwEngine) (kind : ErrCode) (b : SwEngine) : Prop :=
  ∀ c, Reaches p line n (a.under c) (attemptEnd kind (b.under c))

/-- In m ticks an attempt comes to an engine that is still in it, or has ended, whatever the command. -/
theorem attempt_goes_on_or_ended {p : Params} {a : SwEngine} (line : Nat → Level) (hp : a.phase.InAttempt) (m : Nat) :
    (∃ b : SwEngine, b.phase.InAttempt ∧ ∀ c, Reaches p line m (a.under c) (b.under c)) ∨
    ∃ n kind b, n ≤ m ∧ AttemptEndsAt p line n a kind b := by
  induction m with
  | zero => exact .inl ⟨a, hp, fun c => ⟨fun _ hm => absurd hm (Nat.not_lt_zero _), rfl⟩⟩
  | succ m ih =>
    obtain ⟨b, hb, run⟩ | ⟨n, kind, b, hn, ended⟩ := ih
    · have under_way (c : SwEngine) (k : Nat) (hk : k < m + 1) :
          (swAfter p line k (a.under c)).status = (a.under c).status := by
        rcases Nat.lt_succ_iff_lt_or_eq.mp hk with before | rfl
        · exact (run c).under_way k before
        · rw [(run c).after]
          rfl
      obtain ⟨v, hv, tick⟩ | ⟨kind, v, tick⟩ := ticksAlike (p := p) (line (m + 1)) hb
      · exact .inl ⟨v, hv, fun c => ⟨under_way c, by rw [swAfter, (run c).after, tick]⟩⟩
      · exact .inr ⟨m + 1, kind, v, le_rfl, fun c => ⟨under_way c, by rw [swAfter, (run c).after, tick]⟩⟩
    · exact .inr ⟨n, kind, b, by omega, ended⟩

theorem freshAttempt_inAttempt (p : Params) : (freshAttempt p).phase.InAttempt :=
  (by decide : SwPhase.startLow.InAttempt)

/-- An attempt of a READ that ends is the attempt of any command, with the same end. -/
theorem AttemptEnds.endsAt {p : Params} {line : Nat → Level} {d : Nat} {kind : ErrCode}
    (h : AttemptEnds p line d kind) : ∃ b, AttemptEndsAt p line d (freshAttempt p) kind b := by
  obtain ⟨b, -, run⟩ | ⟨n, kind', b, hn, ended⟩ := attempt_goes_on_or_ended (p := p) line (freshAttempt_inAttempt p) d
  · have after : swAfter p line d (freshAttempt p) = b.under (freshAttempt p) := (run (freshAttempt p)).after
    have idle := h.ends
    rw [after] at idle
    cases idle
  · have after : swAfter p line n (freshAttempt p) = attemptEnd kind' (b.under (freshAttempt p)) :=
      (ended (freshAttempt p)).after
    rw [attemptEnd_read rfl] at after
    obtain rfl : n = d := by
      refine hn.antisymm (Nat.le_of_not_lt fun before => ?_)
      have busy := h.runs n before
      rw [after] at busy
      cases busy
    obtain rfl : kind' = kind := by
      rw [← h.result, after]
      rfl
    exact ⟨b, ended⟩

/-- Every attempt ends, within the bound of R163. -/
theorem exists_attemptEnds {p : Params} (hl : p.Legal) (line : Nat → Level) :
    ∃ d kind, d ≤ attemptBound p ∧ AttemptEnds p line d kind := by
  obtain ⟨d, kind, v, hd, same, run⟩ := startAttempt_endsWithin hl (readAccepted (.atReset p)) line
  have after : swAfter p line d (freshAttempt p) = _ := run.after
  rw [attemptEnd_read same.rtRetry] at after
  exact ⟨d, kind, hd, fun m hm => congrArg SwStatus.busy (run.under_way m hm), by rw [after]; rfl, by rw [after]; rfl⟩

end Sys2Proof.Machine

/-! PROOFS. READ_RETRY from its acceptance to its completion (family 42_retry, R182 to R190): attempt after attempt, each the
latched delay after the one before it, up to the first that succeeds or to the last. -/

namespace Sys2Proof.Machine

/-! ## Runs of a busy engine -/

/-- In n ticks the engine comes from w to v, and it is BUSY before the last of them. -/
structure BusyUntil (p : Params) (line : Nat → Level) (n : Nat) (w v : SwEngine) : Prop where
  busy : ∀ m, m < n → (swAfter p line m w).status.busy = true
  after : swAfter p line n w = v

section

variable {p : Params} {line : Nat → Level} {m n : Nat} {w v u : SwEngine}

theorem Reaches.busyUntil (h : Reaches p line n w v) (hb : w.status.busy = true) : BusyUntil p line n w v where
  busy m hm := by rw [h.under_way m hm, hb]
  after := h.after

theorem BusyUntil.trans (h : BusyUntil p line m w v) (h' : BusyUntil p (fun i => line (m + i)) n v u) :
    BusyUntil p line (m + n) w u where
  busy k hk := by
    rcases Nat.lt_or_ge k m with first | second
    · exact h.busy k first
    · obtain ⟨j, rfl⟩ := Nat.exists_eq_add_of_le second
      rw [swAfter_add, h.after, h'.busy j (by omega)]
  after := by rw [swAfter_add, h.after, h'.after]

theorem BusyUntil.refl (p : Params) (line : Nat → Level) (w : SwEngine) : BusyUntil p line 0 w w where
  busy m hm := absurd hm (Nat.not_lt_zero m)
  after := rfl

end

/-- After a failure with attempts left, the next attempt starts the latched delay later (R184, R185). -/
theorem attemptEnd_busyUntil_next {kind : ErrCode} {w : SwEngine} (hk : kind ≠ .ok) (hretry : w.rtRetry = true)
    (hleft : w.status.attempts.toNat < w.rtMax.toNat) (hb : w.status.busy = true) (p : Params) (line : Nat → Level) :
    BusyUntil p line w.rtDelay.toNat (attemptEnd kind w) (startAttempt (attemptReported kind w)) := by
  obtain ⟨none, he⟩ | ⟨delays, he⟩ := attemptEnd_retry_goes_on hk hretry hleft <;> rw [he]
  · rw [none]
    exact .refl p line _
  · refine ⟨fun m hm => ?_, swAfter_delay (w := delayAfter kind w) p line rfl rfl delays⟩
    rw [swAfter_delay_counts (w := delayAfter kind w) p line rfl rfl hm]
    exact hb

/-! ## The end of a READ's attempt -/

theorem SwInv.swAfter {p : Params} {w : SwEngine} (h : SwInv p w) (hl : p.Legal) (line : Nat → Level) (n : Nat) :
    SwInv p (swAfter p line n w) := by
  induction n with
  | zero => exact h
  | succ n ih => exact ih.tick hl (line (n + 1))

theorem freshAttempt_inv {p : Params} (hl : p.Legal) : SwInv p (freshAttempt p) := SwInv.atReset.runRead hl

section

variable {p : Params} {line : Nat → Level} {d : Nat} {kind : ErrCode} (h : AttemptEnds p line d kind)

include h

/-- The end of a READ's attempt is the end of any command's, before the command decides on it. -/
theorem AttemptEnds.endsAt_completed : ∃ b, AttemptEndsAt p line d (freshAttempt p) kind b ∧
    swAfter p line d (freshAttempt p) = completeSw kind (attemptReported kind (b.under (freshAttempt p))) := by
  obtain ⟨b, ended⟩ := h.endsAt
  exact ⟨b, ended, (ended (freshAttempt p)).after.trans (attemptEnd_read rfl kind)⟩

theorem AttemptEnds.reading_valid_iff (hl : p.Legal) :
    (swAfter p line d (freshAttempt p)).reading.valid = true ↔ kind = .ok := by
  obtain ⟨b, -, after⟩ := h.endsAt_completed
  have done : (swAfter p line d (freshAttempt p)).status.done = true := by
    rw [after]
    rfl
  rw [((freshAttempt_inv hl).swAfter hl line d).done_ok done, h.result]

theorem AttemptEnds.reading_zero (hl : p.Legal) (hk : kind ≠ .ok) :
    (swAfter p line d (freshAttempt p)).reading = .zero :=
  ((freshAttempt_inv hl).swAfter hl line d).not_valid
    (Bool.eq_false_of_not_eq_true fun hv => hk ((h.reading_valid_iff hl).mp hv))

end

/-! ## One attempt of a READ_RETRY -/

/-- What a READ_RETRY that completes with its attempt k, of this kind, leaves of its command (R182, R187). -/
def retryEnded (n k : Nat) (kind : ErrCode) (w : SwEngine) : SwEngine :=
  completeSw (if kind = .ok then .ok else .sensorUnavailable) (retrying n k kind w)

theorem under_startAttempt_retrying (a : SwEngine) (n j : Nat) (last kind : ErrCode) (w : SwEngine) :
    a.under (startAttempt (attemptReported kind (retrying n j last w))) = a.under (retrying n (j + 1) kind w) := by
  simp only [SwEngine.under, retrying, BitVec.ofNat_add]
  rfl

/-- The first attempt starts as that of a READ (R142, R182). -/
theorem startAttempt_retrying (p : Params) (n : Nat) (w : SwEngine) :
    startAttempt (retrying n 0 .ok w) = (freshAttempt p).under (retrying n 1 .ok w) :=
  (startAttempt_under (a := retrying n 0 .ok w) rfl p (retrying n 0 .ok w)).trans
    (under_startAttempt_retrying (freshAttempt p) n 0 .ok .ok w)

section

variable {p : Params} {line : Nat → Level} {d n j : Nat} {kind : ErrCode} (h : AttemptEnds p line d kind)
  (last : ErrCode) (w : SwEngine)

include h

/-- A success, or the failure of attempt n, ends the command with that attempt (R184). -/
theorem AttemptEnds.retry_completes (hend : kind = .ok ∨ j = n) :
    BusyUntil p line d ((freshAttempt p).under (retrying n j last w))
      ((swAfter p line d (freshAttempt p)).under (retryEnded n j kind w)) := by
  obtain ⟨b, ended, after⟩ := h.endsAt_completed
  have run := ended (retrying n j last w)
  rw [attemptEnd_retry_completes rfl (hend.imp_right fun hj => by rw [hj]; exact le_rfl)] at run
  rw [after]
  exact run.busyUntil rfl

/-- The failure of an earlier attempt is followed by the next, the latched delay after it (R184, R185). -/
theorem AttemptEnds.retry_goes_on (hl : p.Legal) (hk : kind ≠ .ok) (hj : j < n) (hn : n ≤ 255) :
    BusyUntil p line (d + w.retryDelay.toNat) ((freshAttempt p).under (retrying n j last w))
      ((freshAttempt p).under (retrying n (j + 1) kind w)) := by
  obtain ⟨b, ended, after⟩ := h.endsAt_completed
  have noReading : b.reading = .zero := by
    have zero := h.reading_zero hl hk
    rwa [after] at zero
  have left : (BitVec.ofNat 8 j).toNat < (BitVec.ofNat 8 n).toNat := by
    rw [BitVec.toNat_ofNat, BitVec.toNat_ofNat]
    omega
  have next := attemptEnd_busyUntil_next (w := b.under (retrying n j last w)) hk rfl left rfl p fun i => line (d + i)
  rw [← under_startAttempt_retrying, ← startAttempt_under noReading]
  exact ((ended _).busyUntil rfl).trans next

end

/-! ## The attempts up to the first success (R188) -/

/-- When the attempts up to the k-th start, how long they take, and what they end with: each is the delay after the one
before it, and goes as the attempt of a READ against the levels from its start on. -/
structure RetrySchedule (p : Params) (line : Nat → Level) (delay : Nat) (start dur : Nat → Nat) (kind : Nat → ErrCode)
    (k : Nat) : Prop where
  first : start 1 = 0
  next : ∀ j, 1 ≤ j → j < k → start (j + 1) = start j + dur j + delay
  ends : ∀ j, 1 ≤ j → j ≤ k → AttemptEnds p (fun i => line (start j + i)) (dur j) (kind j)
  failed : ∀ j, 1 ≤ j → j < k → kind j ≠ .ok

namespace RetrySchedule

variable {p : Params} {line : Nat → Level} {start dur : Nat → Nat} {kind : Nat → ErrCode} {k n : Nat} {w : SwEngine}
  (h : RetrySchedule p line w.retryDelay.toNat start dur kind k) (hn : n ≤ 255)

include h hn

theorem starts (hl : p.Legal) (hk : k ≤ n) {j : Nat} (h1 : 1 ≤ j) (hj : j ≤ k) :
    ∃ last, BusyUntil p line (start j) (startAttempt (retrying n 0 .ok w))
      ((freshAttempt p).under (retrying n j last w)) := by
  induction j, h1 using Nat.le_induction with
  | base =>
    rw [h.first, startAttempt_retrying p]
    exact ⟨.ok, .refl p line _⟩
  | succ j h1 ih =>
    obtain ⟨last, before⟩ := ih (by omega)
    have attempt := (h.ends j h1 (by omega)).retry_goes_on last w hl (h.failed j h1 hj) (hj.trans hk) hn
    rw [h.next j h1 hj, Nat.add_assoc]
    exact ⟨kind j, before.trans attempt⟩

theorem completes (hl : p.Legal) (hk : k ≤ n) (h1 : 1 ≤ k) (hend : kind k = .ok ∨ k = n) :
    BusyUntil p line (start k + dur k) (startAttempt (retrying n 0 .ok w))
      ((swAfter p (fun i => line (start k + i)) (dur k) (freshAttempt p)).under (retryEnded n k (kind k) w)) := by
  obtain ⟨last, before⟩ := h.starts hn hl hk h1 le_rfl
  exact before.trans ((h.ends k h1 le_rfl).retry_completes last w hend)

end RetrySchedule

/-- Settles O51: by induction the attempts start as scheduled, and the k-th ends the command. -/
theorem readRetryEndsAtItsFirstSuccess : Obligations.ReadRetryEndsAtItsFirstSuccess := by
  unfold Obligations.ReadRetryEndsAtItsFirstSuccess
  intro s n k line start dur kind hl hb h1 hk hn first next ends failed hend
  have schedule : RetrySchedule s.params line s.sw.retryDelay.toNat start dur kind k := ⟨first, next, ends, failed⟩
  have run := schedule.completes hn hl hk h1 hend
  refine ⟨_, _, _, exec_swReadretry_pos hb (h1.trans hk), rfl, rfl, run.busy, fun j hj1 hj => ?_, ?_⟩
  · obtain ⟨last, started⟩ := schedule.starts hn hl hk hj1 hj
    rw [started.after]
    rfl
  · rw [run.after]
    exact ⟨rfl, rfl, rfl, rfl, (ends k h1 le_rfl).reading_valid_iff hl⟩

/-! ## The longest READ_RETRY (R189, R190) -/

/-- A READ_RETRY with budget n has completed: OK with a Reading, or SENSOR_UNAVAILABLE without one after n attempts. -/
structure RetryCompleted (n : Nat) (w : SwEngine) : Prop where
  idle : w.status.busy = false
  done : w.status.done = true
  outcome :
    (w.status.err = .ok ∧ w.reading.valid = true ∧ 1 ≤ w.status.attempts.toNat ∧ w.status.attempts.toNat ≤ n) ∨
    (w.status.err = .sensorUnavailable ∧ w.reading.valid = false ∧ w.status.attempts.toNat = n)

theorem retryEnded_completed {n k : Nat} {kind : ErrCode} {a : SwEngine} (valid : a.reading.valid = true ↔ kind = .ok)
    (h1 : 1 ≤ k) (hk : k ≤ n) (hn : n ≤ 255) (hend : kind = .ok ∨ k = n) (w : SwEngine) :
    RetryCompleted n (a.under (retryEnded n k kind w)) := by
  have attempts : (BitVec.ofNat 8 k).toNat = k := Nat.mod_eq_of_lt (by omega)
  refine ⟨rfl, rfl, ?_⟩
  by_cases ok : kind = .ok
  · exact .inl ⟨if_pos ok, valid.mpr ok, h1.trans_eq attempts.symm, attempts.trans_le hk⟩
  · exact .inr ⟨if_neg ok, Bool.eq_false_of_not_eq_true fun hv => ok (valid.mp hv),
      attempts.trans (hend.resolve_left ok)⟩

/-- One attempt completes the command within the bound of R163, or the next starts the latched delay after it. -/
theorem retry_completes_or_goes_on {p : Params} (hl : p.Legal) {n j : Nat} (hn : n ≤ 255) (h1 : 1 ≤ j) (hj : j ≤ n)
    (last : ErrCode) (w : SwEngine) (line : Nat → Level) :
    ∃ d, d ≤ attemptBound p ∧
      (RetryCompleted n (swAfter p line d ((freshAttempt p).under (retrying n j last w))) ∨
        j < n ∧ ∃ kind, swAfter p line (d + w.retryDelay.toNat) ((freshAttempt p).under (retrying n j last w)) =
          (freshAttempt p).under (retrying n (j + 1) kind w)) := by
  obtain ⟨d, kind, hd, attempt⟩ := exists_attemptEnds hl line
  refine ⟨d, hd, ?_⟩
  by_cases hend : kind = .ok ∨ j = n
  · rw [(attempt.retry_completes last w hend).after]
    exact .inl (retryEnded_completed (attempt.reading_valid_iff hl) h1 hj hn hend w)
  · obtain ⟨hk, hne⟩ := not_or.mp hend
    have hlt := hj.lt_of_ne hne
    exact .inr ⟨hlt, kind, (attempt.retry_goes_on last w hl hk hlt hn).after⟩

/-- With r attempts left after the one that starts, the command ends within r + 1 attempts and r delays. -/
theorem retry_endsWithin {p : Params} (hl : p.Legal) {n j r : Nat} (hn : n ≤ 255) (h1 : 1 ≤ j) (hj : j + r = n)
    (last : ErrCode) (w : SwEngine) (line : Nat → Level) :
    ∃ m, m ≤ (r + 1) * attemptBound p + r * w.retryDelay.toNat ∧
      RetryCompleted n (swAfter p line m ((freshAttempt p).under (retrying n j last w))) := by
  induction r generalizing j last line with
  | zero =>
    obtain ⟨d, hd, completed | ⟨left, -⟩⟩ := retry_completes_or_goes_on hl hn h1 (by omega) last w line
    · exact ⟨d, by omega, completed⟩
    · exact absurd hj left.ne
  | succ r ih =>
    obtain ⟨d, hd, completed | ⟨-, kind, next⟩⟩ := retry_completes_or_goes_on hl hn h1 (by omega) last w line
    · exact ⟨d, Nat.le_add_right_of_le (hd.trans (Nat.le_mul_of_pos_left _ (Nat.succ_pos _))), completed⟩
    · obtain ⟨m, hm, completed⟩ :=
        ih (j := j + 1) (by omega) (by omega) kind fun i => line (d + w.retryDelay.toNat + i)
      refine ⟨d + w.retryDelay.toNat + m, ?_, ?_⟩
      · linarith
      · rwa [swAfter_add, next]

/-- Settles O50: from the first attempt on, with n - 1 left. -/
theorem readRetryEndsInBoundedTime : Obligations.ReadRetryEndsInBoundedTime := by
  unfold Obligations.ReadRetryEndsInBoundedTime
  intro s n line hl hb h1 hn
  obtain ⟨r, rfl⟩ := Nat.exists_eq_add_of_le h1
  obtain ⟨m, hm, completed⟩ := retry_endsWithin hl hn le_rfl rfl .ok s.sw line
  rw [← startAttempt_retrying] at completed
  exact ⟨_, m, _, exec_swReadretry_pos hb h1, by rwa [Nat.add_comm 1 r, Nat.add_sub_cancel], rfl,
    completed.idle, completed.done, completed.outcome⟩

/-! ## The silent line (R189) -/

/-- The one end of an attempt that nothing answers: the bound of ACK0 (R147, R163). -/
theorem startAttempt_silent_reaches {p : Params} (hl : p.Legal) (w : SwEngine) {line : Nat → Level}
    (silent : ∀ i, p.tStartLow + p.tRelease < i → i ≤ silentAttempt p → line i = true) :
    Reaches p line (silentAttempt p) (startAttempt w)
      (attemptEnd .noResponse { listens w with cnt := BitVec.ofNat 32 p.tWaitTimeout }) := by
  have wait : IsWait p false .ack1 .noResponse (listens w) := .ack0 rfl
  have missed : ∀ i, 1 ≤ i → i ≤ p.tWaitTimeout → line (p.tStartLow + p.tRelease + i) ≠ false := fun i h1 hi => by
    simp [silent (p.tStartLow + p.tRelease + i) (by omega) (by rw [silentAttempt]; omega)]
  exact (startAttempt_reaches hl w line).trans rfl (wait.awaitsLevel.reaches hl rfl le_rfl
    (fun i h1 hi => missed i h1 hi.le) (wait.swAfter_timedOut hl rfl missed))

/-- The engine of a READ that nothing answered, at its completion. -/
def unanswered (p : Params) : SwEngine :=
  completeSw .noResponse (attemptReported .noResponse (listens (readAccepted (.atReset p))))

theorem freshAttempt_silent {p : Params} (hl : p.Legal) :
    BusyUntil p (fun _ => true) (silentAttempt p) (freshAttempt p) (unanswered p) := by
  have run := startAttempt_silent_reaches hl (readAccepted (.atReset p)) (line := fun _ => true) fun _ _ _ => rfl
  rw [attemptEnd_read rfl] at run
  exact run.busyUntil rfl

/-- On a silent line the attempts follow each other at equal distances, and none succeeds. -/
theorem silent_schedule {p : Params} (hl : p.Legal) (delay n : Nat) :
    RetrySchedule p (fun _ => true) delay (fun j => (j - 1) * (silentAttempt p + delay)) (fun _ => silentAttempt p)
      (fun _ => .noResponse) n where
  first := Nat.zero_mul _
  next j h1 _ := by
    obtain ⟨i, rfl⟩ := Nat.exists_eq_add_of_le' h1
    simp only [Nat.add_sub_cancel]
    ring
  ends _ _ _ := by
    obtain ⟨busy, after⟩ := freshAttempt_silent hl
    exact ⟨busy, by rw [after]; rfl, by rw [after]; rfl⟩
  failed _ _ _ := by decide

/-- Settles O52: the schedule of a silent line, whose n-th attempt ends the command. -/
theorem silentReadRetryExhaustsItsBudget : Obligations.SilentReadRetryExhaustsItsBudget := by
  unfold Obligations.SilentReadRetryExhaustsItsBudget
  intro s n m hl hb h1 hn hm
  have run := (silent_schedule hl s.sw.retryDelay.toNat n).completes hn hl le_rfl h1 (.inr rfl)
  have total : (n - 1) * (silentAttempt s.params + s.sw.retryDelay.toNat) + silentAttempt s.params = m := by
    obtain ⟨i, rfl⟩ := Nat.exists_eq_add_of_le' h1
    rw [hm, Nat.add_sub_cancel]
    ring
  rw [(freshAttempt_silent hl).after, total] at run
  refine ⟨_, _, exec_swReadretry_pos hb h1, rfl, run.busy, ?_⟩
  rw [run.after]
  exact ⟨rfl, rfl, rfl, rfl⟩

end Sys2Proof.Machine

/-! PROOFS. Exceptions (family 60_exceptions): completions in the acceptance, OVERRUN, and an engine without ticks. -/

namespace Sys2Proof.Machine

/-! ## Completions in the acceptance (R203, R204) -/

theorem adcWordRun_illegal {v : Word} {e : DecodeError} (hd : decode .adcCmd v = .error e) (p : Params) :
    adcWordRun p v = completeAdc .illegalCommand := by
  simp [adcWordRun, hd]

theorem swWordRun_illegal {v : Word} {e : DecodeError} (hd : decode .swCmd v = .error e) :
    swWordRun v = completeSw .illegalCommand := by
  simp [swWordRun, hd]

/-- Settles O17: the write is accepted, and the own effect of an ILLEGAL word is its completion. -/
theorem illegalWordCompletesAtOnce : Obligations.IllegalWordCompletesAtOnce := by
  unfold Obligations.IllegalWordCompletesAtOnce
  intro s v ts hs e hl hr ht
  refine ⟨fun hh hb hd => ?_, fun hh hb hd => ?_⟩
  · rw [step_write_adcCmd hl hr ht hh, adcCommandWrite_idle hb, adcWordRun_illegal hd]
    rfl
  · rw [step_write_swCmd hl hr ht hh, swCommandWrite_idle hb, swWordRun_illegal hd]
    rfl

/-- Settles O23: the channel check comes before any pin activity. -/
theorem invalidChannelCompletesAtOnce : Obligations.InvalidChannelCompletesAtOnce := by
  unfold Obligations.InvalidChannelCompletesAtOnce
  intro ch s hb hch
  rw [exec_adcRead_invalid hb hch]
  rfl

/-! ## A tick keeps OVERRUN (R207) -/

@[simp] theorem transactionEnd_overrun (p : Params) (a : AdcEngine) :
    (transactionEnd p a).status.overrun = a.status.overrun := by
  unfold transactionEnd
  split
  · rfl
  · split <;> rfl

@[simp] theorem adcPhaseEnd_overrun (p : Params) (din : Level) (a : AdcEngine) :
    (adcPhaseEnd p din a).status.overrun = a.status.overrun := by
  cases hp : a.phase <;> simp only [adcPhaseEnd, hp]
  case high => split <;> simp
  all_goals simp

theorem adcTick_overrun (p : Params) (din : Level) (a : AdcEngine) :
    (adcTick p din a).status.overrun = a.status.overrun := by
  obtain ⟨-, h⟩ | ⟨-, -, h⟩ | ⟨-, -, h⟩ := adcTick_cases p din a <;> simp [h]

@[simp] theorem attemptEnd_overrun (kind : ErrCode) (w : SwEngine) :
    (attemptEnd kind w).status.overrun = w.status.overrun := by
  obtain ⟨-, -, -, -, -, -, ho, -⟩ := attemptEnd_keeps kind w
  exact ho

@[simp] theorem frameComplete_overrun (p : Params) (w : SwEngine) :
    (frameComplete p w).status.overrun = w.status.overrun := by
  obtain ⟨kind, v, same, he⟩ := frameComplete_endsAttempt p w
  rw [he, attemptEnd_overrun, same.status]

@[simp] theorem waitStep_overrun (p : Params) (level : Level) (next : SwPhase) (fail : ErrCode) (swIn : Level)
    (w : SwEngine) : (waitStep p level next fail swIn w).status.overrun = w.status.overrun := by
  obtain ⟨-, h⟩ | ⟨-, -, h⟩ | ⟨-, -, h⟩ := waitStep_cases p level next fail swIn w <;> simp [h]

@[simp] theorem bitLowStep_overrun (p : Params) (swIn : Level) (w : SwEngine) :
    (bitLowStep p swIn w).status.overrun = w.status.overrun := by
  obtain ⟨-, -, h⟩ | ⟨-, -, h⟩ | ⟨-, -, h⟩ | ⟨-, -, h⟩ := bitLowStep_cases p swIn w <;> simp [h, bitReceived]

@[simp] theorem startLowStep_overrun (p : Params) (w : SwEngine) :
    (startLowStep p w).status.overrun = w.status.overrun := by
  obtain ⟨-, h⟩ | ⟨-, h⟩ := startLowStep_cases p w <;> rw [h]

@[simp] theorem releaseStep_overrun (p : Params) (w : SwEngine) :
    (releaseStep p w).status.overrun = w.status.overrun := by
  obtain ⟨-, h⟩ | ⟨-, h⟩ := releaseStep_cases p w <;> rw [h]

@[simp] theorem retryDelayTick_overrun (w : SwEngine) :
    (retryDelayTick w).status.overrun = w.status.overrun := by
  obtain ⟨-, h⟩ | ⟨-, h⟩ := retryDelayTick_cases w <;> simp [h]

theorem swTick_overrun (p : Params) (swIn : Level) (w : SwEngine) :
    (swTick p swIn w).status.overrun = w.status.overrun := by
  cases hp : w.phase <;> simp [swTick, hp]

/-! ## What a turn does to OVERRUN (R65, R66, R207)

The rules are the same at both engines, so they are said once, for an engine whose command and status registers stand at
`cmd` and `status`. -/

/-- OVERRUN goes from its first value to its second in this turn of a machine with these pending host operations, at an
engine with this BUSY. -/
inductive OverrunStep (cmd status : Offset) (busy : Bool) : Turn → List HostOp → Bool → Bool → Prop where
  /-- nothing writes it -/
  | kept (turn : Turn) (ops : List HostOp) (old : Bool) : OverrunStep cmd status busy turn ops old old
  /-- a command write while BUSY -/
  | rejected (v : Word) (rest : List HostOp) (old : Bool) (hb : busy = true) :
      OverrunStep cmd status busy .host (.wr cmd 4 v :: rest) old true
  /-- a write of 1 to its bit -/
  | cleared (v : Word) (rest : List HostOp) (old : Bool) (hv : v.getLsbD 2 = true) :
      OverrunStep cmd status busy .host (.wr status 4 v :: rest) old false
  /-- reset -/
  | reset (level : Level) (ops : List HostOp) (old : Bool) :
      OverrunStep cmd status busy (.reset level) ops old false

namespace OverrunStep

variable {cmd status : Offset} {busy old new : Bool} {turn : Turn} {ops : List HostOp}

theorem of_eq (h : new = old) : OverrunStep cmd status busy turn ops old new := h ▸ .kept turn ops new

/-- Only a rejected command write sets OVERRUN. -/
theorem rises (h : OverrunStep cmd status busy turn ops old new) (hold : old = false) (hnew : new = true) :
    turn = .host ∧ busy = true ∧ ∃ v rest, ops = .wr cmd 4 v :: rest := by
  cases h with
  | kept => simp [hold] at hnew
  | rejected v rest _ hb => exact ⟨rfl, hb, v, rest, rfl⟩
  | cleared => cases hnew
  | reset => cases hnew

/-- Only a write of 1 to its bit and reset clear OVERRUN. -/
theorem falls (h : OverrunStep cmd status busy turn ops old new) (hold : old = true) (hnew : new = false) :
    (∃ l, turn = .reset l) ∨
    (turn = .host ∧ ∃ v rest, ops = .wr status 4 v :: rest ∧ v.getLsbD 2 = true) := by
  cases h with
  | kept => simp [hold] at hnew
  | rejected => cases hnew
  | cleared v rest _ hv => exact .inr ⟨rfl, v, rest, rfl, hv⟩
  | reset level => exact .inl ⟨level, rfl⟩

/-- A write-one-to-clear as one step of OVERRUN. -/
theorem w1c (v : Word) (rest : List HostOp) :
    OverrunStep cmd status busy .host (.wr status 4 v :: rest) old (old && !v.getLsbD 2) := by
  cases hv : v.getLsbD 2 with
  | true =>
    rw [Bool.not_true, Bool.and_false]
    exact .cleared v rest old hv
  | false =>
    rw [Bool.not_false, Bool.and_true]
    exact .kept _ _ old

end OverrunStep

/-- OVERRUN of the ADC engine in a turn. -/
abbrev AdcOverrunStep (turn : Turn) (ops : List HostOp) (a b : AdcEngine) : Prop :=
  OverrunStep (regOffset .adcCmd) (regOffset .adcStatus) a.status.busy turn ops a.status.overrun b.status.overrun

/-- OVERRUN of the single-wire engine in a turn. -/
abbrev SwOverrunStep (turn : Turn) (ops : List HostOp) (w x : SwEngine) : Prop :=
  OverrunStep (regOffset .swCmd) (regOffset .swStatus) w.status.busy turn ops w.status.overrun x.status.overrun

theorem adcWritten_overrunStep (p : Params) (off : Offset) (v : Word) (rest : List HostOp) (a : AdcEngine) :
    AdcOverrunStep .host (.wr off 4 v :: rest) a (adcWritten p off v a) := by
  unfold adcWritten
  split
  next hr =>
    obtain rfl := regAt_some hr
    cases hb : a.status.busy with
    | true =>
      rw [adcCommandWrite_busy hb]
      exact .rejected v rest _ hb
    | false => exact .of_eq (adcCommandWrite_effect hb p v).overrun
  next hr =>
    obtain rfl := regAt_some hr
    rw [w1cAdc_eq]
    exact .w1c v rest
  next => exact .of_eq rfl

theorem swWritten_overrunStep (off : Offset) (v : Word) (rest : List HostOp) (w : SwEngine) :
    SwOverrunStep .host (.wr off 4 v :: rest) w (swWritten off v w) := by
  unfold swWritten
  split
  next hr =>
    obtain rfl := regAt_some hr
    cases hb : w.status.busy with
    | true =>
      rw [swCommandWrite_busy hb]
      exact .rejected v rest _ hb
    | false => exact .of_eq (swCommandWrite_effect hb v).overrun
  next hr =>
    obtain rfl := regAt_some hr
    rw [w1cSw_eq]
    exact .w1c v rest
  next => exact .of_eq rfl
  next => exact .of_eq rfl

/-- The host's turn reaches the engines through a write to the window, or not at all. -/
theorem hostTurn_engines {s t : State} (h : hostTurn s = .next t) :
    (∃ off v rest, s.host = .wr off 4 v :: rest ∧ t.adc = adcWritten s.params off v s.adc ∧
      t.sw = swWritten off v s.sw) ∨
    (t.adc = s.adc ∧ t.sw = s.sw) := by
  obtain ⟨off, v, rest, hh, -, -, hw⟩ | ⟨l, ops, rfl⟩ := hostTurn_next h
  · rw [memWrite_eq] at hw
    cases hw
    exact .inl ⟨off, v, rest, hh, rfl, rfl⟩
  · exact .inr ⟨rfl, rfl⟩

theorem takeTurn_overrunStep {turn : Turn} {s t : State} (h : takeTurn turn s = .next t) :
    AdcOverrunStep turn s.host s.adc t.adc ∧ SwOverrunStep turn s.host s.sw t.sw := by
  cases turn with
  | host =>
    obtain ⟨off, v, rest, hh, hadc, hsw⟩ | ⟨hadc, hsw⟩ := hostTurn_engines h <;> rw [hadc, hsw]
    · rw [hh]
      exact ⟨adcWritten_overrunStep s.params off v rest s.adc, swWritten_overrunStep off v rest s.sw⟩
    · exact ⟨.of_eq rfl, .of_eq rfl⟩
  | tick adcDin swIn =>
    cases h
    unfold tickTurn
    split
    · exact ⟨.of_eq (adcTick_overrun s.params adcDin s.adc), .of_eq (swTick_overrun s.params swIn s.sw)⟩
    · exact ⟨.of_eq rfl, .of_eq rfl⟩
  | reset level =>
    cases h
    unfold resetTurn
    split
    · exact ⟨.of_eq rfl, .of_eq rfl⟩
    · exact ⟨.reset level _ _, .reset level _ _⟩

/-- Settles O56: each engine's OVERRUN moves by the rules of `OverrunStep`, whatever the turn. -/
theorem overrunChangesByItsRulesOnly : Obligations.OverrunChangesByItsRulesOnly := by
  unfold Obligations.OverrunChangesByItsRulesOnly
  intro s t h
  obtain ⟨-, hturn⟩ := step_next h
  obtain ⟨-, hadc, hsw, -, -, hhost⟩ := nextTurn_keeps s
  obtain ⟨adc, sw⟩ := takeTurn_overrunStep hturn
  rw [hadc, hhost] at adc
  rw [hsw, hhost] at sw
  exact ⟨adc.rises, adc.falls, sw.rises, sw.falls⟩

/-! ## An engine without ticks (R214) -/

/-- The ADC engine is the same but for OVERRUN. -/
def AdcEngine.SameButOverrun (a b : AdcEngine) : Prop :=
  b = { a with status := { a.status with overrun := b.status.overrun } }

/-- The single-wire engine is the same but for OVERRUN and SW_RETRY_DELAY. -/
def SwEngine.SameButOverrunAndDelay (w x : SwEngine) : Prop :=
  x = { w with status := { w.status with overrun := x.status.overrun }, retryDelay := x.retryDelay }

/-- A write to the window can do no more to an engine that is BUSY (R64 to R66). -/
theorem adcWritten_of_busy {a : AdcEngine} (hb : a.status.busy = true) (p : Params) (off : Offset) (v : Word) :
    a.SameButOverrun (adcWritten p off v a) := by
  unfold adcWritten
  split
  · rw [adcCommandWrite_busy hb]
    rfl
  · rw [w1cAdc_eq]
    rfl
  · rfl

/-- See `adcWritten_of_busy`. -/
theorem swWritten_of_busy {w : SwEngine} (hb : w.status.busy = true) (off : Offset) (v : Word) :
    w.SameButOverrunAndDelay (swWritten off v w) := by
  unfold swWritten
  split
  · rw [swCommandWrite_busy hb]
    rfl
  · rw [w1cSw_eq]
    rfl
  · rfl
  · rfl

/-- Every busy engine is the same but for what the host may write. -/
structure BusyEnginesStay (s t : State) : Prop where
  adc : s.adc.status.busy = true → s.adc.SameButOverrun t.adc
  sw : s.sw.status.busy = true → s.sw.SameButOverrunAndDelay t.sw

theorem BusyEnginesStay.refl (s : State) : BusyEnginesStay s s where
  adc _ := rfl
  sw _ := rfl

/-- An engine that stays as it is stays BUSY. -/
theorem BusyEnginesStay.trans {s t u : State} (h : BusyEnginesStay s t) (h' : BusyEnginesStay t u) :
    BusyEnginesStay s u where
  adc hb := by
    have first : t.adc = _ := h.adc hb
    have second : u.adc = _ := h'.adc (by rw [first]; exact hb)
    rw [first] at second
    exact second
  sw hb := by
    have first : t.sw = _ := h.sw hb
    have second : u.sw = _ := h'.sw (by rw [first]; exact hb)
    rw [first] at second
    exact second

theorem hostTurn_busyEnginesStay {s t : State} (h : hostTurn s = .next t) : BusyEnginesStay s t := by
  obtain ⟨off, v, rest, -, hadc, hsw⟩ | ⟨hadc, hsw⟩ := hostTurn_engines h
  · exact ⟨fun hb => hadc ▸ adcWritten_of_busy hb s.params off v, fun hb => hsw ▸ swWritten_of_busy hb off v⟩
  · exact ⟨fun _ => hadc ▸ rfl, fun _ => hsw ▸ rfl⟩

/-- Runs of host turns, by induction on their number. -/
theorem run_hostTurns_busyEnginesStay {k : Nat} {rest : List Turn} {s t : State}
    (hts : s.turns = List.replicate k .host ++ rest) (h : Host.Core.run Sys2Proof.core k s = .next t) :
    BusyEnginesStay s t := by
  induction k generalizing s with
  | zero =>
    cases h
    exact .refl _
  | succ k ih =>
    obtain ⟨u, hu, hrun⟩ := run_succ_next h
    rw [List.replicate_succ, List.cons_append] at hts
    obtain ⟨hl, -⟩ := step_next hu
    have later : BusyEnginesStay u t := ih (step_turns hts hu) hrun
    rw [step_host hl hts] at hu
    obtain ⟨adc, sw⟩ := hostTurn_busyEnginesStay hu
    exact .trans ⟨adc, sw⟩ later

/-- Settles O58, by induction on the number of host turns. -/
theorem withoutTicksABusyEngineStays : Obligations.WithoutTicksABusyEngineStays := by
  unfold Obligations.WithoutTicksABusyEngineStays
  intro s t k rest hts h
  obtain ⟨adc, sw⟩ := run_hostTurns_busyEnginesStay hts h
  exact ⟨adc, sw⟩

end Sys2Proof.Machine

/-! PROOFS. Reset as a level (family 70_reset_and_hazards, R230), and the timeout of a silent READ (R253). -/

namespace Sys2Proof.Machine

/-! ## The block while `rst_n` is low -/

/-- Both engines hold their reset values (R48). -/
structure HoldsReset (p : Params) (s : State) : Prop where
  adc : s.adc = AdcEngine.atReset
  sw : s.sw = SwEngine.atReset p

section

variable {s t : State} (hr : s.rstN = false)

include hr

/-- No access reaches the engines. -/
theorem hostTurn_low_engines (h : hostTurn s = .next t) : t.adc = s.adc ∧ t.sw = s.sw := by
  obtain ⟨-, -, -, -, -, high, -⟩ | ⟨l, ops, rfl⟩ := hostTurn_next h
  · exact absurd hr (by simp [high])
  · exact ⟨rfl, rfl⟩

theorem tickTurn_low (adcDin swIn : Level) : tickTurn adcDin swIn s = { s with host := elapseDelay s.host } :=
  if_neg (by simp [hr])

/-- The release, too, puts the reset values. -/
theorem resetTurn_low (level : Level) : resetTurn level s = { resetBlock s with rstN := level } :=
  if_neg (by simp [hr])

theorem busRead_low (off : Offset) : busRead off s = 0#32 := if_neg (by simp [hr])

theorem busWritten_low (off : Offset) (v : Word) : busWritten off v s = s := if_neg (by simp [hr])

theorem HoldsReset.takeTurn_low {turn : Turn} (held : HoldsReset s.params s) (h : takeTurn turn s = .next t) :
    HoldsReset s.params t := by
  cases turn with
  | host =>
    obtain ⟨adc, sw⟩ := hostTurn_low_engines hr h
    exact ⟨adc.trans held.adc, sw.trans held.sw⟩
  | tick adcDin swIn =>
    cases h
    rw [tickTurn_low hr]
    exact ⟨held.adc, held.sw⟩
  | reset level =>
    cases h
    rw [resetTurn_low hr]
    exact ⟨rfl, rfl⟩

theorem HoldsReset.step_low (held : HoldsReset s.params s) (h : step s = .next t) : HoldsReset s.params t := by
  obtain ⟨-, hturn⟩ := step_next h
  obtain ⟨hparams, hadc, hsw, hrst, -, -⟩ := nextTurn_keeps s
  rw [← hparams] at held ⊢
  exact HoldsReset.takeTurn_low (hrst.trans hr) ⟨hadc.trans held.adc, hsw.trans held.sw⟩ hturn

variable {off : Offset} {ts : List Turn} {hs : List HostOp} (hl : s.params.Legal) (ho : off.toNat % 4 = 0)
  (ht : s.turns = .host :: ts)

include hl ho ht

theorem step_read_low (hh : s.host = .rd off 4 :: hs) :
    step s = .next { s with lastRead := 0#32, turns := ts, host := hs } := by
  have defined : HostOp.undefinedAccess (.rd off 4) = false := by
    simp [HostOp.undefinedAccess, accessDefined, ho]
  obtain ⟨t, h⟩ := hostTurn_answers (s := { s with turns := ts }) hh defined
  rw [step_host hl ht, h, hostTurn_read (s := { s with turns := ts }) hh h,
    busRead_low (s := { s with turns := ts }) hr]

theorem step_write_low {v : Word} (hh : s.host = .wr off 4 v :: hs) :
    step s = .next { s with turns := ts, host := hs } := by
  rw [step_write hl ho ht hh, busWritten_low (s := { s with turns := ts, host := hs }) hr]

end

/-- Settles O21: assertion writes the reset values, and of the turns that follow only a release touches the engines. -/
theorem resetHoldsTheBlock : Obligations.ResetHoldsTheBlock := by
  unfold Obligations.ResetHoldsTheBlock
  refine ⟨fun s t ts ht h => ?_, fun s t hr hadc hsw h => ?_, fun s off v ts hs hl hr ho ht => ?_⟩
  · obtain ⟨hl, -⟩ := step_next h
    rw [step_reset hl ht] at h
    cases h
    and_intros <;> rfl
  · obtain ⟨adc, sw⟩ := HoldsReset.step_low hr ⟨hadc, hsw⟩ h
    exact ⟨adc, sw⟩
  · exact ⟨step_read_low hr hl ho ht, step_write_low hr hl ho ht⟩

/-! ## A READ that nothing answers -/

/-- Settles O49: the one attempt ends at the bound of ACK0, and its end is the command's. -/
theorem silentReadGivesNoResponse : Obligations.SilentReadGivesNoResponse := by
  unfold Obligations.SilentReadGivesNoResponse
  intro s line hl hb silent
  have run := (startAttempt_silent_reaches hl (readAccepted s.sw) silent).busyUntil rfl
  rw [attemptEnd_read rfl] at run
  refine ⟨_, _, exec_swRead_idle hb, rfl, run.busy, ?_⟩
  rw [run.after]
  exact ⟨rfl, rfl, rfl, rfl, rfl⟩

end Sys2Proof.Machine
